-- ==== Sys2Proof/Word.lean ====
section
/-! DEFINITION. The words of the frame link block: 32-bit registers and command words, bytes, and the
14-bit block offsets of the Host interface (00_scope.md R8, R9; 20_memory.md R42). -/

namespace Sys2Proof

/-- A register value or a command word: "Every register is 32 bits wide" (R8). -/
abbrev Word := BitVec 32

/-- A byte, 0 to 255 (R9). -/
abbrev Byte := BitVec 8

/-- A block offset: "Offsets are 14-bit byte addresses" (R42). -/
abbrev Offset := BitVec 14

end Sys2Proof
end

