-- ==== Sys2Proof/Config.lean ====
section
/-! DEFINITION. The parameters of an implementation (00_scope.md R6), and the free values: bytes the spec
leaves unspecified at reset (93_implementation_defined.md U1 to U3). A machine's parameters stand in
`State.cfg`; a claim about every state is a claim about every value of them. -/

namespace Sys2Proof

/-- `TX_ERR_POLICY`: what a DMA transfer error does to the transfer (R6, R90). -/
inductive TxErrPolicy where
  /-- The transfer stops, and DONE never comes. -/
  | stall
  /-- The transfer counts as complete: DONE is set. -/
  | endAsComplete
deriving DecidableEq, Repr, Inhabited

/-- `CRC_PARAMS` (R6, R68), in the terms of R68's pseudocode: the register is kept bit-reversed.
DESIGN CHOICE (log 2): which numbers a value of `CRC_PARAMS` other than the default consists of. -/
structure CrcParams where
  /-- The polynomial, bit-reversed form. -/
  polyRev : Word
  /-- The register's value before the first byte. -/
  init : Word
  /-- Input reflected: a byte enters with its bit 0 first. -/
  refIn : Bool
  /-- Output reflected: the register is the result without reversing it. -/
  refOut : Bool
  /-- The final exclusive or. -/
  xorOut : Word
deriving DecidableEq, Repr

/-- The default of `CRC_PARAMS`: CRC-32/ISCSI (R68). PRESUMED (log 2): the spec marks these numbers as
general knowledge. -/
def CrcParams.iscsi : CrcParams :=
  { polyRev := 0x82F63B78, init := 0xFFFFFFFF, refIn := true, refOut := true, xorOut := 0xFFFFFFFF }

/-- The parameters of R6, one field a row of its table. -/
structure Params where
  /-- `TX_CAP`, TX buffer capacity in bytes. -/
  txCap : Nat
  /-- `STAGE_CAP`, STAGE window size in bytes. -/
  stageCap : Nat
  /-- `RX_CAP`, RX ring capacity in bytes. -/
  rxCap : Nat
  /-- `RXOUT_CAP`, RXOUT window size in bytes. -/
  rxoutCap : Nat
  /-- `RX_TIMEOUT`, in bit times; no rule reads it (R102, R118). -/
  rxTimeout : Nat
  /-- `TX_ERR_POLICY`. -/
  txErrPolicy : TxErrPolicy
  /-- `CRC_PARAMS`. -/
  crc : CrcParams
  /-- `FLB_BASE`, the block's base address in the Host's address space. -/
  flbBase : Nat
  /-- `IRQ_PRIO` of TX_IRQ; no rule of the block reads it (R111). DESIGN CHOICE (log 18): a natural number, the
  larger the higher priority; the spec gives an order only (N35). -/
  txIrqPrio : Nat
  /-- `IRQ_PRIO` of RX_IRQ; no rule of the block reads it (R111). DESIGN CHOICE (log 18), as `txIrqPrio`. -/
  rxIrqPrio : Nat
deriving DecidableEq, Repr

/-- The constraint column of R6, but for its last row: there RX_IRQ stands at or below TX_IRQ, in R111's words,
where the table says TX_IRQ above RX_IRQ. DEDUCED (log 11). "At or below" is `≤` because the larger number is the
higher priority: DESIGN CHOICE (log 18), the spec gives an order of priorities and no numbers (N35). -/
def Params.wf (c : Params) : Bool :=
  decide (1 ≤ c.txCap ∧ c.txCap ≤ 65535 ∧ 1 ≤ c.stageCap ∧ c.stageCap ≤ 4096 ∧
    2 ≤ c.rxCap ∧ c.rxCap ≤ 65535 ∧ 1 ≤ c.rxoutCap ∧ c.rxoutCap ≤ 4096 ∧
    1 ≤ c.rxTimeout ∧ c.flbBase % 16384 = 0 ∧ c.rxIrqPrio ≤ c.txIrqPrio)

/-- The host address of a block offset: the block is "placed at `FLB_BASE`" (R42). -/
def Params.hostAddress (c : Params) (off : Offset) : Nat := c.flbBase + off.toNat

/-- The example configuration of R7 (95_test_vectors.md): "for the examples only", it does not describe the
hardware. Only tests use it. The rows R7 leaves out take the least value `Params.wf` allows (the two priorities
are equal there: log 11, log 18). -/
def Params.specExample : Params :=
  { txCap := 16, stageCap := 16, rxCap := 8, rxoutCap := 16, rxTimeout := 1, txErrPolicy := .stall,
    crc := .iscsi, flbBase := 0, txIrqPrio := 0, rxIrqPrio := 0 }

/-- The four byte memories of the block (R13). -/
inductive Region where
  /-- `tx_buf`, the transmit buffer (R22). -/
  | txBuf
  /-- `stage`, the STAGE window (R37). -/
  | stage
  /-- `rx_ring`, the receive ring (R31). -/
  | rxRing
  /-- `rxout`, the RXOUT window (R38). -/
  | rxOut
deriving DecidableEq, Repr

namespace Config

/-- FREE VALUE (log 3): the byte an address of a region holds after a reset for which the spec gives none,
"a byte drawn at reset, fixed until written" (U1, U2, U3). The first argument says which draw. -/
opaque unspecifiedByte : Nat → Region → Nat → Byte

/-- OPEN parameters (log 1): constants without a body, so nothing can be proved of their values. -/
opaque txCapChoice : Nat
opaque stageCapChoice : Nat
opaque rxCapChoice : Nat
opaque rxoutCapChoice : Nat
opaque rxTimeoutChoice : Nat
opaque txErrPolicy : TxErrPolicy
opaque flbBaseChoice : Nat
opaque rxIrqPrio : Nat
opaque txIrqPrioAbove : Nat

/-- The implementation's parameters: each ranges over exactly the values R6 allows it, and is otherwise
open; `CRC_PARAMS` is at the default R68 states (log 1, log 2). TX_IRQ's priority is RX_IRQ's or a larger number:
R111's order in place of the table's (log 11), the larger number the higher priority (log 18). -/
def flb : Params :=
  { txCap := 1 + txCapChoice % 65535
    stageCap := 1 + stageCapChoice % 4096
    rxCap := 2 + rxCapChoice % 65534
    rxoutCap := 1 + rxoutCapChoice % 4096
    rxTimeout := 1 + rxTimeoutChoice
    txErrPolicy := txErrPolicy
    crc := .iscsi
    flbBase := 16384 * flbBaseChoice
    txIrqPrio := rxIrqPrio + txIrqPrioAbove
    rxIrqPrio := rxIrqPrio }

end Config

end Sys2Proof
end

