-- ==== Sys2Proof/Machine/Memory.lean ====
section
/-! DEFINITION. A byte memory as plain data: a list of (address, byte) in one canonical form, addresses
strictly rising and no entry equal to what an unlisted address holds (log 12). -/

namespace Sys2Proof.Machine

/-- A byte memory. Its addresses are indices into the buffer, ring or window it holds. -/
abbrev Memory := List Host.Cell

/-- What an unlisted address of a region holds: the byte the spec gives it at reset. `tx_buf` is "all 0"
(R22); the other three are "unspecified" (R31, R37, R38), which is no value. -/
def atReset : Region → Option Byte
  | .txBuf => some 0
  | .stage => none
  | .rxRing => none
  | .rxOut => none

/-- The byte listed at an address. -/
def Memory.lookup : Memory → Nat → Option Byte
  | [], _ => none
  | c :: m, a => if c.1 = a then some c.2 else Memory.lookup m a

/-- The byte at an address, where it has one. -/
def Memory.read (r : Region) (m : Memory) (a : Nat) : Option Byte :=
  match Memory.lookup m a with
  | some b => some b
  | none => atReset r

/-- List a byte at an address, in address order, in place of what was listed there. -/
def Memory.insert : Memory → Nat → Byte → Memory
  | [], a, b => [(a, b)]
  | c :: m, a, b =>
    if a < c.1 then (a, b) :: c :: m
    else if a = c.1 then (a, b) :: m
    else c :: Memory.insert m a b

/-- Unlist an address. -/
def Memory.erase : Memory → Nat → Memory
  | [], _ => []
  | c :: m, a => if c.1 = a then Memory.erase m a else c :: Memory.erase m a

/-- Write a byte; writing the byte an unlisted address holds removes the entry. -/
def Memory.write (r : Region) (m : Memory) (a : Nat) (b : Byte) : Memory :=
  if atReset r = some b then Memory.erase m a else Memory.insert m a b

/-- Write bytes at rising addresses. -/
def Memory.writeBytes (r : Region) (m : Memory) (a : Nat) : List Byte → Memory
  | [] => m
  | b :: bs => Memory.writeBytes r (Memory.write r m a b) (a + 1) bs

/-- Addresses strictly rising, none below `lo`. -/
def Memory.risingFrom : Nat → Memory → Bool
  | _, [] => true
  | lo, c :: m => decide (lo ≤ c.1) && Memory.risingFrom (c.1 + 1) m

/-- The canonical form. -/
def Memory.wf (r : Region) (m : Memory) : Bool :=
  Memory.risingFrom 0 m && m.all (fun c => decide (atReset r ≠ some c.2))

/-- Every listed address lies below a capacity. -/
def Memory.within (cap : Nat) (m : Memory) : Bool := m.all (fun c => decide (c.1 < cap))

end Sys2Proof.Machine
end

