-- ==== Sys2Proof/Syntax.lean ====
section
/-! DEFINITION. The commands of FLB-CI v1, one constructor for each row of spec/opcode_table.json
(30_encoding.md R63). Operand fields are decoded once, in Decode.lean; the machine sees these terms only. -/

namespace Sys2Proof

/-- The two command ports (00_scope.md R3). -/
inductive Port where
  | tx | rx
deriving DecidableEq, Repr

/-- Field E of Format I: 0 selects big-endian, 1 little-endian (R62). -/
inductive Endian where
  | be | le
deriving DecidableEq, Repr

/-- Field W of Format I: 0, 1, 2, 3 select 1, 2, 4, 8 bytes (R62). -/
inductive IntWidth where
  | w1 | w2 | w4 | w8
deriving DecidableEq, Repr

/-- A command with its operands. `len` is the byte count LEN, 0 to 65535 (R62; checked in WellFormed.lean). -/
inductive Instr where
  /-- CRC_CALC LEN, R72. -/
  | crcCalc (len : Nat)
  /-- ENCODE LEN, R73. -/
  | encodeFrame (len : Nat)
  /-- DECODE LEN, R74. -/
  | decodeFrame (len : Nat)
  /-- TX_OPEN, R81. -/
  | txOpen
  /-- TX_OPEN_BE, R82. -/
  | txOpenBe
  /-- TX_APPEND_BYTES LEN, R83. -/
  | txAppendBytes (len : Nat)
  /-- TX_APPEND_INT E W, R84. -/
  | txAppendInt (e : Endian) (w : IntWidth)
  /-- TX_COMMIT, R85. -/
  | txCommit
  /-- TX_ABORT, R86. -/
  | txAbort
  /-- TX_COMPLETE, R87. -/
  | txComplete
  /-- TX_CLRERR, R88. -/
  | txClrerr
  /-- RX_START, R97. -/
  | rxStart
  /-- RX_READ LEN, R98. -/
  | rxRead (len : Nat)
  /-- RX_CLRTO, R99. -/
  | rxClrto
  /-- RX_CLRIRQ, R100. -/
  | rxClrirq
deriving DecidableEq, Repr

end Sys2Proof
end

