-- ==== Sys2Proof/Machine/State.lean ====
section
/-! DEFINITION. The machine's state: the block's components exactly as 10_state.md R13 lists them
(`Block`), the parameters of R6 (`cfg`), and the model's own fields: the events still to come (`inputs`),
the last value a Host read returned (`rdata`) and the draw of unspecified bytes (`draw`). -/

namespace Sys2Proof.Machine

/-- The result codes of 60_exceptions.md R108; their numbers are in Flags.lean. -/
inductive ResultCode where
  | ok
  | bufferOverflow
  | busy
  | notStarted
  | serializationFault
  | integrityFault
  | producerError
  | sequenceError
  | illegalCommand
deriving DecidableEq, Repr

/-- The TXM lifecycle state (R21). -/
inductive TxState where
  | idle
  | inFlight
deriving DecidableEq, Repr

/-- The width of a Host access (R45, R46). -/
inductive AccessWidth where
  | b8
  | b16
  | b32
deriving DecidableEq, Repr

/-- One step of one agent (00_scope.md R11), or the system reset (R123). -/
inductive Event where
  /-- The Host reads a block offset. -/
  | hostRead (off : Offset) (width : AccessWidth)
  /-- The Host writes a block offset; of the value, the low bits of the width count. -/
  | hostWrite (off : Offset) (width : AccessWidth) (value : Word)
  /-- TXDMA's turn to send a byte (R89). -/
  | txSend
  /-- A DMA transfer error, if one can occur (R90). -/
  | txError
  /-- The Line offers a byte to RXDMA (R101). -/
  | rxByte (b : Byte)
  /-- RXTO's timeout, if it is armed (R102). -/
  | rxTimeout
  /-- The system reset (R123). -/
  | sysReset
deriving DecidableEq, Repr

/-- The block's state: "exactly these components and nothing else" (R13), under the spec's names. -/
structure Block where
  tx_arg0 : Word
  tx_arg1 : Word
  tx_result : ResultCode
  tx_rvalue : Word
  rx_result : ResultCode
  rx_rvalue : Word
  tx_state : TxState
  tx_buf : Memory
  tx_len : Nat
  tx_sent : Nat
  tx_done : Bool
  tx_xerr : Bool
  tx_stalled : Bool
  err : Bool
  sess_open : Bool
  sess_be : Bool
  sess_err : ResultCode
  stage : Memory
  rx_run : Bool
  rx_ring : Memory
  rx_wr : Nat
  rx_rd : Nat
  rx_to : Bool
  rx_armed : Bool
  rx_ht : Bool
  rx_tc : Bool
  rxout : Memory
  line_out : List Byte
deriving DecidableEq, Repr

/-- The column "reset" of R13. STAGE, the ring and RXOUT list nothing: their bytes are unspecified. -/
def Block.reset : Block :=
  { tx_arg0 := 0, tx_arg1 := 0, tx_result := .ok, tx_rvalue := 0, rx_result := .ok, rx_rvalue := 0,
    tx_state := .idle, tx_buf := [], tx_len := 0, tx_sent := 0, tx_done := false, tx_xerr := false,
    tx_stalled := false, err := false, sess_open := false, sess_be := false, sess_err := .ok, stage := [],
    rx_run := false, rx_ring := [], rx_wr := 0, rx_rd := 0, rx_to := false, rx_armed := false,
    rx_ht := false, rx_tc := false, rxout := [], line_out := [] }

structure State where
  /-- The parameters of the implementation (R6); no step changes them (log 1). -/
  cfg : Params
  /-- The block (R13). -/
  blk : Block
  /-- MODEL: the steps still to come, in the total order of R52 (log 4). -/
  inputs : List Event
  /-- MODEL: the value the last Host read returned to the Host (log 7). -/
  rdata : Word
  /-- MODEL: which draw of the unspecified bytes this run has; each reset takes the next (log 3). -/
  draw : Nat
deriving DecidableEq, Repr

/-- The state right after a reset of a machine with given parameters (R123). -/
def State.resetWith (cfg : Params) (draw : Nat) : State :=
  { cfg := cfg, blk := Block.reset, inputs := [], rdata := 0, draw := draw }

/-- The machine right after reset (R123, R124). No event is placed (log 4). -/
def State.reset : State := State.resetWith Config.flb 0

/-- Why the machine stops with a fault. -/
inductive Fault where
  /-- Raised by a Host access: the offset lies in 0x3000 to 0x3FFF, outside the block's 0x3000 offsets (R42),
  and the spec gives such an access no meaning. Safe: the model stops where hardware may go on. -/
  | offsetOutsideBlock
deriving DecidableEq, Repr

/-- Why the model gives a step no meaning. -/
inductive Refusal where
  /-- Raised by a dispatcher arm without a meaning. Safe: nothing can be proved of that command. -/
  | notModelled (mnemonic : String)
  /-- Raised by a Host access to 0x0000 to 0x0FFF that is not 32 bits wide or not aligned: "A model refuses
  such an access" (R45, U4). Safe. -/
  | registerAccess
  /-- Raised by a misaligned 16-bit or 32-bit access to a window: "has no meaning, and a model refuses it"
  (R46, U5). Safe. -/
  | misalignedWindowAccess
deriving DecidableEq, Repr

end Sys2Proof.Machine
end

