-- ==== Sys2Proof/Machine/Flags.lean ====
section
/-! DEFINITION. Result codes as numbers (60_exceptions.md R108), the status registers (10_state.md R25,
R34), the flags they show (R39) and the output signals (R33, R110). -/

namespace Sys2Proof.Machine

/-- The number of a result code (R108). -/
def ResultCode.code : ResultCode → Byte
  | .ok => 0
  | .bufferOverflow => 1
  | .busy => 2
  | .notStarted => 3
  | .serializationFault => 4
  | .integrityFault => 5
  | .producerError => 6
  | .sequenceError => 7
  | .illegalCommand => 8

/-- A bit as a number. -/
def bitNat (b : Bool) : Nat := if b then 1 else 0

/-- BUSY: 1 iff `tx_state = InFlight` (R25). -/
def busyFlag (b : Block) : Bool := decide (b.tx_state = .inFlight)

/-- SFAIL: 1 iff `sess_open = 1` and `sess_err ≠ OK` (R25). -/
def sfailFlag (b : Block) : Bool := b.sess_open && decide (b.sess_err ≠ .ok)

/-- TX_STATUS (R25). -/
def txStatus (b : Block) : Word :=
  BitVec.ofNat 32 (bitNat (busyFlag b) + 2 * bitNat b.err + 4 * bitNat b.sess_open + 8 * bitNat (sfailFlag b) +
    16 * bitNat b.tx_done + 32 * bitNat b.tx_xerr + 64 * bitNat b.sess_be)

/-- RX_STATUS (R34). -/
def rxStatus (b : Block) : Word :=
  BitVec.ofNat 32 (bitNat b.rx_run + 2 * bitNat b.rx_to + 4 * bitNat b.rx_ht + 8 * bitNat b.rx_tc)

/-- TX_IRQ, the completion interrupt request (R33). -/
def txIrq (b : Block) : Bool := b.tx_done

/-- RX_IRQ, the receive interrupt request (R33). -/
def rxIrq (b : Block) : Bool := b.rx_ht || b.rx_tc

/-- ERR_IND, the error indicator (R33). -/
def errInd (b : Block) : Bool := b.err

/-- A good session: `sess_open = 1` and `sess_err = OK` (R79). -/
def goodSession (b : Block) : Bool := b.sess_open && decide (b.sess_err = .ok)

/-- A failed session: `sess_open = 1` and `sess_err ≠ OK` (R79). -/
def failedSession (b : Block) : Bool := sfailFlag b

end Sys2Proof.Machine
end

