-- ==== Sys2Proof/Machine/Operands.lean ====
section
/-! DEFINITION. Operand assembly (30_encoding.md R62) and the byte orders of the notation (00_scope.md R9). -/

namespace Sys2Proof.Machine

/-- The width in bytes, `2^W` (R62). -/
def widthBytes : IntWidth → Nat
  | .w1 => 1
  | .w2 => 2
  | .w4 => 4
  | .w8 => 8

/-- The number of bytes of a Host access (R45, R46). -/
def accessBytes : AccessWidth → Nat
  | .b8 => 1
  | .b16 => 2
  | .b32 => 4

/-- `BE_n(v)`: the n bytes of `v mod 2^(8n)`, most significant first (R9). -/
def beBytes (n v : Nat) : List Byte := (List.range n).map fun i => BitVec.ofNat 8 (v / 2 ^ (8 * (n - 1 - i)))

/-- `LE_n(v)`: "the same bytes in reverse order" (R9). -/
def leBytes (n v : Nat) : List Byte := (beBytes n v).reverse

/-- A big-endian byte sequence as a number; on four bytes this is `unBE32` (R9). -/
def unBe (bs : List Byte) : Nat := bs.foldl (fun acc b => acc * 256 + b.toNat) 0

/-- A little-endian byte sequence as a number (R47). -/
def unLe (bs : List Byte) : Nat := unBe bs.reverse

/-- `BE_w(v)` or `LE_w(v)`, as field E says (R84). -/
def intBytes (e : Endian) (n v : Nat) : List Byte :=
  match e with
  | .be => beBytes n v
  | .le => leBytes n v

/-- The integer operand of Format I, `V mod 2^(8·width)` with `V = x[TX_ARG1]·2^32 + x[TX_ARG0]` (R62). -/
def intOperand (w : IntWidth) (b : Block) : Nat :=
  (b.tx_arg1.toNat * 2 ^ 32 + b.tx_arg0.toNat) % 2 ^ (8 * widthBytes w)

end Sys2Proof.Machine
end

