-- ==== Sys2Proof/Machine/Ops.lean ====
section
/-! DEFINITION. The named operations over memories and registers that the meanings share. The block takes no
exception (60_exceptions.md R107, R114): what ends a command, good or bad, is `finish` (00_scope.md R10),
which reports the outcome as a result code. -/

namespace Sys2Proof.Machine

/-! ### Bytes of the four memories -/

/-- The memory of a region. -/
def State.mem (s : State) : Region → Memory
  | .txBuf => s.blk.tx_buf
  | .stage => s.blk.stage
  | .rxRing => s.blk.rx_ring
  | .rxOut => s.blk.rxout

/-- The byte at an index of a region: what was written there, or what the region holds since reset; where
the spec gives that no value, the free value of this run's draw (R37, R38, U1 to U3; log 3). -/
def State.byteAt (s : State) (r : Region) (a : Nat) : Byte :=
  (Memory.read r (s.mem r) a).getD (Config.unspecifiedByte s.draw r a)

/-- The bytes at indices a to a + n - 1 of a region. -/
def State.bytesAt (s : State) (r : Region) (a n : Nat) : List Byte :=
  (List.range n).map fun i => s.byteAt r (a + i)

/-- Write bytes at rising indices of a region. -/
def State.putBytes (s : State) (r : Region) (a : Nat) (bs : List Byte) : State :=
  match r with
  | .txBuf => { s with blk := { s.blk with tx_buf := Memory.writeBytes .txBuf s.blk.tx_buf a bs } }
  | .stage => { s with blk := { s.blk with stage := Memory.writeBytes .stage s.blk.stage a bs } }
  | .rxRing => { s with blk := { s.blk with rx_ring := Memory.writeBytes .rxRing s.blk.rx_ring a bs } }
  | .rxOut => { s with blk := { s.blk with rxout := Memory.writeBytes .rxOut s.blk.rxout a bs } }

/-! ### The end of a command -/

/-- `finish(CODE, value)` on the TX port (R10, R17, R18). -/
def State.finishTx (s : State) (code : ResultCode) (value : Word) : State :=
  { s with blk := { s.blk with tx_result := code, tx_rvalue := value } }

/-- `finish(CODE, value)` on the RX port (R10, R19). -/
def State.finishRx (s : State) (code : ResultCode) (value : Word) : State :=
  { s with blk := { s.blk with rx_result := code, rx_rvalue := value } }

/-- `finish` on the port that took the command (R10). -/
def State.finish (s : State) (p : Port) (code : ResultCode) (value : Word) : State :=
  match p with
  | .tx => s.finishTx code value
  | .rx => s.finishRx code value

/-- `finish(CODE, tx_len)` on the TX port, `tx_len` as the state has it. -/
def State.finishTxLen (s : State) (code : ResultCode) : State := s.finishTx code (BitVec.ofNat 32 s.blk.tx_len)

/-! ### The transmit buffer and its session -/

/-- "clears the buffer": every byte of `tx_buf` 0, and `tx_len` 0 (R22, R81, R87). -/
def State.clearTxBuf (s : State) : State := { s with blk := { s.blk with tx_buf := [], tx_len := 0 } }

/-- Open a session (R81, R82): BUSY is its first error while InFlight; otherwise the buffer is cleared. -/
def State.openSession (s : State) (be : Bool) : State :=
  if s.blk.sess_open then s.finishTx .sequenceError 0
  else
    let opened := { s with blk := { s.blk with sess_open := true, sess_be := be } }
    match s.blk.tx_state with
    | .inFlight => State.finishTxLen { opened with blk := { opened.blk with sess_err := .busy } } .busy
    | .idle => (State.clearTxBuf { opened with blk := { opened.blk with sess_err := .ok } }).finishTx .ok 0

/-- `session_append(bytes, fault)` (R80): all or nothing, and only the first error of a session is kept. -/
def State.sessionAppend (s : State) (bytes : List Byte) (fault : ResultCode) : State :=
  if s.blk.sess_open = false then s.finishTx .sequenceError 0
  else if s.blk.sess_err ≠ .ok then s.finishTxLen s.blk.sess_err
  else if s.cfg.txCap < s.blk.tx_len + bytes.length then
    State.finishTxLen { s with blk := { s.blk with sess_err := fault } } fault
  else
    let filled := s.putBytes .txBuf s.blk.tx_len bytes
    State.finishTxLen { filled with blk := { filled.blk with tx_len := s.blk.tx_len + bytes.length } } .ok

/-- The session ends: `sess_open`, `sess_be` and `sess_err` become 0, 0 and OK (R30, R85, R86). -/
def State.endSession (s : State) : State :=
  { s with blk := { s.blk with sess_open := false, sess_be := false, sess_err := .ok } }

/-- A session with first error `e` ends without a transfer: ERROR is latched, and a best-effort session
reports OK in place of its error (R85, R86, R95). -/
def State.failSession (s : State) (e : ResultCode) : State :=
  let ended := s.endSession
  State.finishTxLen { ended with blk := { ended.blk with err := true } } (if s.blk.sess_be then .ok else e)

/-- Start the transfer of the buffer (R85): a zero-length transfer is complete at once. -/
def State.startTransfer (s : State) : State :=
  { s with blk := { s.blk with
      tx_state := .inFlight, tx_sent := 0, tx_xerr := false, tx_stalled := false,
      tx_done := decide (s.blk.tx_len = 0) } }

/-- Reclaim the buffer (R87): it is cleared, the progress is cleared, and the TXM is Idle. -/
def State.reclaim (s : State) : State :=
  let cleared := s.clearTxBuf
  { cleared with blk := { cleared.blk with
      tx_sent := 0, tx_done := false, tx_xerr := false, tx_stalled := false, tx_state := .idle } }

/-! ### The receive ring -/

/-- `avail = (rx_wr - rx_rd) mod RX_CAP`, the non-negative remainder (R8, R31, R96). -/
def ringAvail (cap wr rd : Nat) : Nat := (((wr : Int) - (rd : Int)) % (cap : Int)).toNat

/-- The number of bytes a drain sees (R31). -/
def State.avail (s : State) : Nat := ringAvail s.cfg.rxCap s.blk.rx_wr s.blk.rx_rd

/-- The first k waiting bytes, `rx_ring[(rx_rd + i) mod RX_CAP]` for i < k (R96). -/
def State.waiting (s : State) (k : Nat) : List Byte :=
  (List.range k).map fun i => s.byteAt .rxRing ((s.blk.rx_rd + i) % s.cfg.rxCap)

end Sys2Proof.Machine
end

