-- ==== Sys2Proof/Machine/Agents.lean ====
section
/-! DEFINITION. The steps of the block's own agents (41_tx_transfer.md R89, R90; 42_rx_reader.md R101, R102)
and the system reset (70_reset_and_hazards.md R123). An agent whose guard does not hold takes no step: its
turn changes nothing (00_scope.md R10; log 5). -/

namespace Sys2Proof.Machine

/-- The guard of the transfer-error step (R90): InFlight, not complete, not stalled. -/
def transferActive (b : Block) : Bool := busyFlag b && !b.tx_done && !b.tx_stalled

/-- The guard of the send step (R89). -/
def sendEnabled (b : Block) : Bool := transferActive b && decide (b.tx_sent < b.tx_len)

/-- The TXDMA send step (R89). -/
def State.txSendStep (s : State) : State :=
  if sendEnabled s.blk then
    { s with blk := { s.blk with
        line_out := s.blk.line_out ++ [s.byteAt .txBuf s.blk.tx_sent],
        tx_sent := s.blk.tx_sent + 1,
        tx_done := decide (s.blk.tx_sent + 1 = s.blk.tx_len) } }
  else s

/-- The TXDMA transfer-error step (R90), under either `TX_ERR_POLICY`. -/
def State.txErrorStep (s : State) : State :=
  if transferActive s.blk then
    match s.cfg.txErrPolicy with
    | .stall => { s with blk := { s.blk with tx_xerr := true, err := true, tx_stalled := true } }
    | .endAsComplete => { s with blk := { s.blk with tx_xerr := true, err := true, tx_done := true } }
  else s

/-- The RXDMA byte step (R101): a byte offered before RX_START is lost; afterwards it is always stored. -/
def State.rxByteStep (s : State) (b : Byte) : State :=
  if s.blk.rx_run then
    let stored := s.putBytes .rxRing s.blk.rx_wr [b]
    let wr := (s.blk.rx_wr + 1) % s.cfg.rxCap
    { stored with blk := { stored.blk with
        rx_wr := wr, rx_armed := true,
        rx_ht := s.blk.rx_ht || decide (wr = s.cfg.rxCap / 2),
        rx_tc := s.blk.rx_tc || decide (wr = 0) } }
  else s

/-- The RXTO timeout step (R102). -/
def State.rxTimeoutStep (s : State) : State :=
  if s.blk.rx_armed then { s with blk := { s.blk with rx_to := true, rx_armed := false } } else s

/-- The system reset (R123): every component to its reset value, with a new draw of the unspecified bytes
(log 9). The parameters are the implementation's and stay. -/
def State.systemReset (s : State) : State := { s with blk := Block.reset, draw := s.draw + 1 }

end Sys2Proof.Machine
end

