-- ==== Sys2Proof/WellFormed.lean ====
section
/-! DEFINITION. Which command terms a word can stand for: LEN is 16 bits wide (30_encoding.md R61, R62). -/

namespace Sys2Proof

/-- LEN fits its field, `word[15:0]` (R62). -/
def lenFits (len : Nat) : Bool := decide (len < 2 ^ 16)

/-- A command every operand of which fits its field. -/
def Instr.wf : Instr → Bool
  | .crcCalc len => lenFits len
  | .encodeFrame len => lenFits len
  | .decodeFrame len => lenFits len
  | .txOpen => true
  | .txOpenBe => true
  | .txAppendBytes len => lenFits len
  | .txAppendInt _ _ => true
  | .txCommit => true
  | .txAbort => true
  | .txComplete => true
  | .txClrerr => true
  | .rxStart => true
  | .rxRead len => lenFits len
  | .rxClrto => true
  | .rxClrirq => true

end Sys2Proof
end

