-- ==== Sys2Proof/Decode.lean ====
section
/-! DEFINITION. Command words: the formats (30_encoding.md R60, R61), the command map (R63), decoding
(R64) and, after it, the encoder. A command word is one 32-bit register value (R49, R59): it has no byte
order and no length to find. -/

namespace Sys2Proof

/-- `v[hi:lo]`, bits hi down to lo, inclusive, as an unsigned number (R8). -/
def bitField (w : Word) (hi lo : Nat) : Nat := w.toNat / 2 ^ lo % 2 ^ (hi + 1 - lo)

/-- Why a word is no command on a port (R64, R65). Each is reported as ILLEGAL_COMMAND. -/
inductive DecodeError where
  /-- The opcode stands in no row of R63. -/
  | unassignedOpcode
  /-- The opcode's row belongs to the other port. -/
  | otherPort
  /-- A reserved bit of the row's format is 1. -/
  | reservedBits
deriving DecidableEq, Repr

/-- The three formats of R61, each with what its operands make. -/
inductive Format where
  /-- Format N: no operand. -/
  | n (i : Instr)
  /-- Format L: the length operand LEN. -/
  | l (make : Nat → Instr)
  /-- Format I: the operands E and W. -/
  | i (make : Endian → IntWidth → Instr)

/-- A row of the command map (R63). -/
structure CommandRow where
  opc : Nat
  port : Port
  format : Format

/-- The command map, row by row as in R63. -/
def commandMap : List CommandRow :=
  [ ⟨0x01, .tx, .l .crcCalc⟩,
    ⟨0x02, .tx, .l .encodeFrame⟩,
    ⟨0x03, .rx, .l .decodeFrame⟩,
    ⟨0x10, .tx, .n .txOpen⟩,
    ⟨0x11, .tx, .n .txOpenBe⟩,
    ⟨0x12, .tx, .l .txAppendBytes⟩,
    ⟨0x13, .tx, .i .txAppendInt⟩,
    ⟨0x14, .tx, .n .txCommit⟩,
    ⟨0x15, .tx, .n .txAbort⟩,
    ⟨0x16, .tx, .n .txComplete⟩,
    ⟨0x17, .tx, .n .txClrerr⟩,
    ⟨0x20, .rx, .n .rxStart⟩,
    ⟨0x21, .rx, .l .rxRead⟩,
    ⟨0x22, .rx, .n .rxClrto⟩,
    ⟨0x23, .rx, .n .rxClrirq⟩ ]

/-- Field E: 0 is big-endian, 1 little-endian (R62). -/
def endianOf (e : Nat) : Endian := if e = 0 then .be else .le

/-- Field W: `width = 2^W` bytes (R62). -/
def widthOf (w : Nat) : IntWidth :=
  if w = 0 then .w1 else if w = 1 then .w2 else if w = 2 then .w4 else .w8

/-- The reserved bits of a format are 0 (R61, R64): all of BODY, bits 23:16, or bits 23:3. -/
def reservedClear (f : Format) (w : Word) : Bool :=
  match f with
  | .n _ => decide (bitField w 23 0 = 0)
  | .l _ => decide (bitField w 23 16 = 0)
  | .i _ => decide (bitField w 23 3 = 0)

/-- The command a word of a format stands for, its operands as R62 reads them. -/
def operandsOf (f : Format) (w : Word) : Instr :=
  match f with
  | .n i => i
  | .l make => make (bitField w 15 0)
  | .i make => make (endianOf (bitField w 2 2)) (widthOf (bitField w 1 0))

/-- Decoding on the port that took the write, with the checks in R64's order. -/
def decode (p : Port) (w : Word) : Except DecodeError Instr :=
  match commandMap.find? (fun r => decide (r.opc = bitField w 31 24)) with
  | none => .error .unassignedOpcode
  | some r =>
    if r.port ≠ p then .error .otherPort
    else if reservedClear r.format w then .ok (operandsOf r.format w)
    else .error .reservedBits

/-- The command a word stands for on the port whose opcode it carries, if it is one on either. -/
def decodeOnOwnPort (w : Word) : Option (Port × Instr) :=
  match decode .tx w with
  | .ok i => some (.tx, i)
  | .error _ =>
    match decode .rx w with
    | .ok i => some (.rx, i)
    | .error _ => none

/-- The word of a table row's bits: a row is one 32-bit word (R59), bit 0 its least significant bit. -/
def tableWord (nbits w : Nat) : Word := BitVec.ofNat 32 (w % 2 ^ nbits)

/-- The command the decoder reads from a word of the opcode table, on the port of the word's row. -/
def decodeTableWord (nbits w : Nat) : Option Instr := (decodeOnOwnPort (tableWord nbits w)).map (·.2)

/-! ### The encoder, from the same map -/

/-- The port that accepts a command (R63). -/
def Instr.port : Instr → Port
  | .crcCalc _ => .tx
  | .encodeFrame _ => .tx
  | .decodeFrame _ => .rx
  | .txOpen => .tx
  | .txOpenBe => .tx
  | .txAppendBytes _ => .tx
  | .txAppendInt _ _ => .tx
  | .txCommit => .tx
  | .txAbort => .tx
  | .txComplete => .tx
  | .txClrerr => .tx
  | .rxStart => .rx
  | .rxRead _ => .rx
  | .rxClrto => .rx
  | .rxClrirq => .rx

/-- OPC of a command (R63). -/
def Instr.opc : Instr → Nat
  | .crcCalc _ => 0x01
  | .encodeFrame _ => 0x02
  | .decodeFrame _ => 0x03
  | .txOpen => 0x10
  | .txOpenBe => 0x11
  | .txAppendBytes _ => 0x12
  | .txAppendInt _ _ => 0x13
  | .txCommit => 0x14
  | .txAbort => 0x15
  | .txComplete => 0x16
  | .txClrerr => 0x17
  | .rxStart => 0x20
  | .rxRead _ => 0x21
  | .rxClrto => 0x22
  | .rxClrirq => 0x23

/-- Field E of a byte order. -/
def Endian.field : Endian → Nat
  | .be => 0
  | .le => 1

/-- Field W of a width. -/
def IntWidth.field : IntWidth → Nat
  | .w1 => 0
  | .w2 => 1
  | .w4 => 2
  | .w8 => 3

/-- BODY of a command (R61, R63): 0, LEN, or 4·E + W. -/
def Instr.body : Instr → Nat
  | .crcCalc len => len
  | .encodeFrame len => len
  | .decodeFrame len => len
  | .txOpen => 0
  | .txOpenBe => 0
  | .txAppendBytes len => len
  | .txAppendInt e w => 4 * e.field + w.field
  | .txCommit => 0
  | .txAbort => 0
  | .txComplete => 0
  | .txClrerr => 0
  | .rxStart => 0
  | .rxRead len => len
  | .rxClrto => 0
  | .rxClrirq => 0

/-- The word of a command: `OPC·2^24 + BODY` (R63). -/
def encode (i : Instr) : Word := BitVec.ofNat 32 (i.opc * 2 ^ 24 + i.body)

end Sys2Proof
end

