-- ==== Sys2Proof/Machine/Codec.lean ====
section
/-! DEFINITION. The frame codec (40_codec.md): the CRC, the frame, and the commands CRC_CALC, ENCODE and
DECODE. -/

namespace Sys2Proof.Machine

/-! ### The CRC and the frame -/

/-- One turn of R68's inner loop. -/
def crcBit (p : CrcParams) (c : Word) : Word := if c.getLsbD 0 then (c >>> 1) ^^^ p.polyRev else c >>> 1

/-- "repeat n times" of R68's inner loop. -/
def crcBits (p : CrcParams) : Nat → Word → Word
  | 0, c => c
  | n + 1, c => crcBits p n (crcBit p c)

/-- The byte as it enters the register: as it is when input is reflected (R68). -/
def crcInput (p : CrcParams) (b : Byte) : Byte := if p.refIn then b else b.reverse

/-- One turn of R68's outer loop: a byte into the register, then 8 turns of the inner loop. -/
def crcByte (p : CrcParams) (c : Word) (b : Byte) : Word := crcBits p 8 (c ^^^ (crcInput p b).setWidth 32)

/-- The register after the bytes of a sequence. -/
def crcRegister (p : CrcParams) (s : List Byte) : Word := s.foldl (crcByte p) p.init

/-- The result of a register value: as it is when output is reflected, then the final exclusive or (R68). -/
def crcOutput (p : CrcParams) (c : Word) : Word := (if p.refOut then c else c.reverse) ^^^ p.xorOut

/-- `CRC32C(s)` under CRC_PARAMS `p` (R68); for the default parameters this is R68's pseudocode. -/
def crc32 (p : CrcParams) (s : List Byte) : Word := crcOutput p (crcRegister p s)

/-- `frame(p) = p ++ BE32(CRC32C(p))` (R70). -/
def frame (p : CrcParams) (payload : List Byte) : List Byte := payload ++ beBytes 4 (crc32 p payload).toNat

/-- A valid frame (R71). -/
def validFrame (p : CrcParams) (f : List Byte) : Bool :=
  decide (4 ≤ f.length) &&
    decide ((crc32 p (f.take (f.length - 4))).toNat = unBe (f.drop (f.length - 4)))

/-! ### The commands -/

/-- CRC_CALC (R72). -/
def execCrcCalc (n : Nat) (s : State) : Host.Outcome State Fault Refusal :=
  .next (if s.cfg.stageCap < n then s.finishTx .illegalCommand 0
    else s.finishTx .ok (crc32 s.cfg.crc (s.bytesAt .stage 0 n)))

/-- ENCODE (R73): one append of the frame of STAGE's first n bytes, in the shape of `session_append` (R80). -/
def execEncodeFrame (n : Nat) (s : State) : Host.Outcome State Fault Refusal :=
  .next (if s.cfg.stageCap < n then s.finishTx .illegalCommand 0
    else s.sessionAppend (frame s.cfg.crc (s.bytesAt .stage 0 n)) .serializationFault)

/-- DECODE (R74). -/
def execDecodeFrame (n : Nat) (s : State) : Host.Outcome State Fault Refusal :=
  .next (if s.cfg.rxoutCap < n then s.finishRx .illegalCommand 0
    else if n < 4 then s.finishRx .integrityFault 0
    else
      let c := crc32 s.cfg.crc (s.bytesAt .rxOut 0 (n - 4))
      let t := unBe (s.bytesAt .rxOut (n - 4) 4)
      s.finishRx (if c.toNat = t then .ok else .integrityFault) c)

end Sys2Proof.Machine
end

