-- ==== Sys2Proof/Machine/Rxr.lean ====
section
/-! DEFINITION. The commands of the receive transfer reader (42_rx_reader.md R97 to R100). -/

namespace Sys2Proof.Machine

/-- RX_START (R97). -/
def execRxStart (s : State) : Host.Outcome State Fault Refusal :=
  .next (if s.blk.rx_run then s.finishRx .sequenceError 0
    else State.finishRx { s with blk := { s.blk with rx_run := true } } .ok 0)

/-- The drain of R98: the first k waiting bytes go to RXOUT from offset 0, and `rx_rd` moves past them. -/
def State.drain (s : State) (k : Nat) : State :=
  let copied := s.putBytes .rxOut 0 (s.waiting k)
  { copied with blk := { copied.blk with rx_rd := (s.blk.rx_rd + k) % s.cfg.rxCap } }

/-- RX_READ (R98). -/
def execRxRead (n : Nat) (s : State) : Host.Outcome State Fault Refusal :=
  .next (if s.cfg.rxoutCap < n then s.finishRx .illegalCommand 0
    else (s.drain (min s.avail n)).finishRx .ok (BitVec.ofNat 32 (min s.avail n)))

/-- RX_CLRTO (R99). -/
def execRxClrto (s : State) : Host.Outcome State Fault Refusal :=
  .next (State.finishRx { s with blk := { s.blk with rx_to := false } } .ok 0)

/-- RX_CLRIRQ (R100). -/
def execRxClrirq (s : State) : Host.Outcome State Fault Refusal :=
  .next (State.finishRx { s with blk := { s.blk with rx_ht := false, rx_tc := false } } .ok 0)

end Sys2Proof.Machine
end

