-- ==== Sys2Proof/Machine/Txm.lean ====
section
/-! DEFINITION. The commands of the transmit transfer manager (41_tx_transfer.md R81 to R88). -/

namespace Sys2Proof.Machine

/-- TX_OPEN (R81). -/
def execTxOpen (s : State) : Host.Outcome State Fault Refusal := .next (s.openSession false)

/-- TX_OPEN_BE (R82). -/
def execTxOpenBe (s : State) : Host.Outcome State Fault Refusal := .next (s.openSession true)

/-- TX_APPEND_BYTES (R83). -/
def execTxAppendBytes (n : Nat) (s : State) : Host.Outcome State Fault Refusal :=
  .next (if s.cfg.stageCap < n then s.finishTx .illegalCommand 0
    else s.sessionAppend (s.bytesAt .stage 0 n) .bufferOverflow)

/-- TX_APPEND_INT (R84). -/
def execTxAppendInt (e : Endian) (w : IntWidth) (s : State) : Host.Outcome State Fault Refusal :=
  .next (s.sessionAppend (intBytes e (widthBytes w) (intOperand w s.blk)) .bufferOverflow)

/-- TX_COMMIT (R85). -/
def execTxCommit (s : State) : Host.Outcome State Fault Refusal :=
  .next (if s.blk.sess_open = false then s.finishTx .sequenceError 0
    else if s.blk.sess_err = .ok then s.endSession.startTransfer.finishTxLen .ok
    else s.failSession s.blk.sess_err)

/-- TX_ABORT (R86): the first error wins, else PRODUCER_ERROR. -/
def execTxAbort (s : State) : Host.Outcome State Fault Refusal :=
  .next (if s.blk.sess_open = false then s.finishTx .sequenceError 0
    else s.failSession (if s.blk.sess_err = .ok then .producerError else s.blk.sess_err))

/-- TX_COMPLETE (R87). -/
def execTxComplete (s : State) : Host.Outcome State Fault Refusal :=
  .next (match s.blk.tx_state with
    | .idle => s.finishTxLen .notStarted
    | .inFlight => if s.blk.tx_done then s.reclaim.finishTx .ok 0 else s.finishTxLen .busy)

/-- TX_CLRERR (R88). -/
def execTxClrerr (s : State) : Host.Outcome State Fault Refusal :=
  .next (State.finishTxLen { s with blk := { s.blk with err := false } } .ok)

end Sys2Proof.Machine
end

