-- ==== Sys2Proof/Machine/Dispatch.lean ====
section
/-! DEFINITION. One arm per command: each calls the meaning of its own (30_encoding.md R63). -/

namespace Sys2Proof.Machine

def exec (i : Instr) (s : State) : Host.Outcome State Fault Refusal :=
  match i with
  | .crcCalc len => Sys2Proof.Machine.execCrcCalc len s
  | .encodeFrame len => Sys2Proof.Machine.execEncodeFrame len s
  | .decodeFrame len => Sys2Proof.Machine.execDecodeFrame len s
  | .txOpen => Sys2Proof.Machine.execTxOpen s
  | .txOpenBe => Sys2Proof.Machine.execTxOpenBe s
  | .txAppendBytes len => Sys2Proof.Machine.execTxAppendBytes len s
  | .txAppendInt e w => Sys2Proof.Machine.execTxAppendInt e w s
  | .txCommit => Sys2Proof.Machine.execTxCommit s
  | .txAbort => Sys2Proof.Machine.execTxAbort s
  | .txComplete => Sys2Proof.Machine.execTxComplete s
  | .txClrerr => Sys2Proof.Machine.execTxClrerr s
  | .rxStart => Sys2Proof.Machine.execRxStart s
  | .rxRead len => Sys2Proof.Machine.execRxRead len s
  | .rxClrto => Sys2Proof.Machine.execRxClrto s
  | .rxClrirq => Sys2Proof.Machine.execRxClrirq s

end Sys2Proof.Machine
end

