-- ==== Sys2Proof/Machine/HostAccess.lean ====
section
/-! DEFINITION. The Host's accesses: the register and window map (20_memory.md R43), widths and alignment
(R45, R46), byte order (R47), side effects (R50), and a command written to a port (30_encoding.md R64). -/

namespace Sys2Proof.Machine

/-- The offset of a port's command register (R43). -/
def cmdOffset : Port → Offset
  | .tx => 0x000
  | .rx => 0x040

/-- A number in bits [15:0], bits [31:16] 0 (R26, R36). -/
def lowHalf (n : Nat) : Word := BitVec.ofNat 32 (n % 2 ^ 16)

/-- A capacities register: one number in bits [15:0], one in bits [31:16] (R27, R36). -/
def capsWord (low high : Nat) : Word := BitVec.ofNat 32 (low % 2 ^ 16 + high % 2 ^ 16 * 2 ^ 16)

/-- What a 32-bit read of a register offset returns (R43); an unmapped offset reads 0 (R44), and so do the
command registers (R28, R35). -/
def readRegister (s : State) (off : Offset) : Word :=
  match off.toNat with
  | 0x004 => s.blk.tx_arg0
  | 0x008 => s.blk.tx_arg1
  | 0x00C => s.blk.tx_result.code.setWidth 32
  | 0x010 => s.blk.tx_rvalue
  | 0x014 => txStatus s.blk
  | 0x018 => lowHalf s.blk.tx_len
  | 0x01C => capsWord s.cfg.txCap s.cfg.stageCap
  | 0x04C => s.blk.rx_result.code.setWidth 32
  | 0x050 => s.blk.rx_rvalue
  | 0x054 => rxStatus s.blk
  | 0x058 => lowHalf s.avail
  | 0x05C => capsWord s.cfg.rxCap s.cfg.rxoutCap
  | 0x060 => lowHalf s.blk.rx_wr
  | 0x064 => lowHalf s.blk.rx_rd
  | _ => 0

/-- A command word on a port (R64): the command it selects, or ILLEGAL_COMMAND with no other effect (R65). -/
def runCommand (p : Port) (w : Word) (s : State) : Host.Outcome State Fault Refusal :=
  match decode p w with
  | .ok i => exec i s
  | .error _ => .next (s.finish p .illegalCommand 0)

/-- A 32-bit write to a register offset: a command register executes its word, TX_ARG0 and TX_ARG1 store it,
and every other offset ignores it (R15, R16, R28, R35, R44). -/
def writeRegister (s : State) (off : Offset) (v : Word) : Host.Outcome State Fault Refusal :=
  match off.toNat with
  | 0x000 => runCommand .tx v s
  | 0x004 => .next { s with blk := { s.blk with tx_arg0 := v } }
  | 0x008 => .next { s with blk := { s.blk with tx_arg1 := v } }
  | 0x040 => runCommand .rx v s
  | _ => .next s

/-- The byte a Host read of a window offset returns: STAGE, RXOUT, or 0 beyond a window's capacity (R37, R38,
R44, R46). -/
def windowByte (s : State) (o : Nat) : Byte :=
  if 0x1000 ≤ o ∧ o < 0x1000 + s.cfg.stageCap ∧ o < 0x2000 then s.byteAt .stage (o - 0x1000)
  else if 0x2000 ≤ o ∧ o < 0x2000 + s.cfg.rxoutCap ∧ o < 0x3000 then s.byteAt .rxOut (o - 0x2000)
  else 0

/-- A Host read of n bytes of a window, assembled little-endian and zero-extended (R46, R47). -/
def readWindow (s : State) (off : Offset) (n : Nat) : Word :=
  BitVec.ofNat 32 (unLe ((List.range n).map fun i => windowByte s (off.toNat + i)))

/-- A Host write of window bytes, one by one: STAGE bytes within its capacity are stored, all others are
ignored (R37, R38, R44, R46). -/
def writeWindowBytes (s : State) (o : Nat) : List Byte → State
  | [] => s
  | b :: bs =>
    let s' := if 0x1000 ≤ o ∧ o < 0x1000 + s.cfg.stageCap ∧ o < 0x2000 then s.putBytes .stage (o - 0x1000) [b] else s
    writeWindowBytes s' (o + 1) bs

/-- A Host read (R43 to R47, R50): the value goes to the Host, and the block does not change. -/
def hostRead (off : Offset) (w : AccessWidth) (s : State) : Host.Outcome State Fault Refusal :=
  if off.toNat < 0x1000 then
    if w = .b32 ∧ off.toNat % 4 = 0 then .next { s with rdata := readRegister s off }
    else .refused .registerAccess
  else if off.toNat < 0x3000 then
    if off.toNat % accessBytes w = 0 then .next { s with rdata := readWindow s off (accessBytes w) }
    else .refused .misalignedWindowAccess
  else .fault .offsetOutsideBlock

/-- A Host write (R43 to R47, R50). -/
def hostWrite (off : Offset) (w : AccessWidth) (v : Word) (s : State) : Host.Outcome State Fault Refusal :=
  if off.toNat < 0x1000 then
    if w = .b32 ∧ off.toNat % 4 = 0 then writeRegister s off v
    else .refused .registerAccess
  else if off.toNat < 0x3000 then
    if off.toNat % accessBytes w = 0 then
      .next (writeWindowBytes s off.toNat (leBytes (accessBytes w) v.toNat))
    else .refused .misalignedWindowAccess
  else .fault .offsetOutsideBlock

end Sys2Proof.Machine
end

