-- ==== Sys2Proof/Machine/Events.lean ====
section
/-! DEFINITION. What one event does: each is one atomic step of one agent (00_scope.md R11, 20_memory.md
R51). -/

namespace Sys2Proof.Machine

/-- One step of one agent, or the system reset. -/
def perform (e : Event) (s : State) : Host.Outcome State Fault Refusal :=
  match e with
  | .hostRead off w => hostRead off w s
  | .hostWrite off w v => hostWrite off w v s
  | .txSend => .next s.txSendStep
  | .txError => .next s.txErrorStep
  | .rxByte b => .next (s.rxByteStep b)
  | .rxTimeout => .next s.rxTimeoutStep
  | .sysReset => .next s.systemReset

/-- The machine's next step: the next event of the total order (R52). With none placed, nothing happens. -/
def nextStep (s : State) : Host.Outcome State Fault Refusal :=
  match s.inputs with
  | [] => .next s
  | e :: rest => perform e { s with inputs := rest }

/-- The Host's write of a command word to a port (R59). -/
def commandEvent (p : Port) (w : Word) : Event := .hostWrite (cmdOffset p) .b32 w

/-- The port a table word is written to: its row's port, or the TX port for a word of no row. -/
def portOfWord (w : Word) : Port :=
  match decodeOnOwnPort w with
  | some (p, _) => p
  | none => .tx

end Sys2Proof.Machine
end

