-- ==== Sys2Proof/Machine/Step.lean ====
section
/-! DEFINITION. The step function, and a command word placed as the machine's next event. The block fetches
nothing (10_state.md R20): its next command is the Host's next write. -/

namespace Sys2Proof.Machine

/-- One step of the machine: next, fault or refusal. -/
def step : State → Host.Outcome State Fault Refusal := fun s => nextStep s

/-- The state with a table word placed as the very next event: the Host's write of it to its port (log 4). -/
def State.withFetchWord (s : State) (nbits w : Nat) : State :=
  { s with inputs := commandEvent (portOfWord (tableWord nbits w)) (tableWord nbits w) :: s.inputs }

end Sys2Proof.Machine
end

