-- ==== Sys2Proof/Machine/Schedule.lean ====
section
/-! DEFINITION. Infinite orders of steps and their fairness (41_tx_transfer.md R91; 42_rx_reader.md R103; U6). One
step of the machine is fair or unfair to nobody: fairness is a property of an order of steps and the states it passes
through (log 8). -/

namespace Sys2Proof.Machine

/-- An infinite order of steps of all agents (20_memory.md R52). The Line is free in it: it offers no byte, or any
finite or infinite sequence of bytes (R103; U11). -/
abbrev Schedule := Nat → Event

/-- The states an order of steps passes through: the k-th event, placed as the machine's next, leads from the k-th
state to the one after. -/
def follows (σ : Nat → State) (e : Schedule) : Prop := ∀ k, step { σ k with inputs := [e k] } = .next (σ (k + 1))

/-- TXDMA is weakly fair: "if its guard stays true, it eventually fires" (R91). -/
def sendFair (σ : Nat → State) (e : Schedule) : Prop :=
  ∀ n, (∀ k, n ≤ k → sendEnabled (σ k).blk = true) → ∃ k, n ≤ k ∧ e k = .txSend

/-- RXTO is fair: if the timeout is armed "and from some point on the Line offers no more bytes, the step eventually
fires" (R103), unless the system reset comes first and disarms it (R123). -/
def timeoutFair (σ : Nat → State) (e : Schedule) : Prop :=
  ∀ n, (σ n).blk.rx_armed = true → (∃ m, ∀ k, m ≤ k → ∀ b, e k ≠ .rxByte b) →
    ∃ k, n ≤ k ∧ (e k = .rxTimeout ∧ (σ k).blk.rx_armed = true ∨ e k = .sysReset)

/-- A fair order of steps. The Host, the Line and the transfer error are under no fairness (R90, R103). -/
def fair (σ : Nat → State) (e : Schedule) : Prop := sendFair σ e ∧ timeoutFair σ e

end Sys2Proof.Machine
end

