-- ==== Sys2Proof/Safety.lean ====
section
/-! DEFINITION. What the statements speak of: the invariants of 10_state.md R41 and of the storage, what a
step may leave unchanged, and runs over a list of events. -/

namespace Sys2Proof.Safety

open Sys2Proof.Machine

/-- R41 items 1 to 5, and the values R30 gives `sess_err`. -/
structure TransferInvariant (b : Block) : Prop where
  /-- Item 1: an Idle TXM has no progress. -/
  idle_no_progress : b.tx_state = .idle →
    b.tx_sent = 0 ∧ b.tx_done = false ∧ b.tx_xerr = false ∧ b.tx_stalled = false
  /-- Item 2: a good session is open only on an idle buffer. -/
  good_session_idle : b.sess_open = true → b.sess_err = .ok → b.tx_state = .idle
  /-- Item 3, first part. -/
  sent_le_len : b.tx_sent ≤ b.tx_len
  /-- Item 3, second part. -/
  done_all_sent_or_error : b.tx_done = true → b.tx_stalled = false → b.tx_sent = b.tx_len ∨ b.tx_xerr = true
  /-- Item 4. -/
  stalled_error_not_done : b.tx_stalled = true → b.tx_xerr = true ∧ b.tx_done = false
  /-- Item 5. -/
  closed_session_clear : b.sess_open = false → b.sess_be = false ∧ b.sess_err = .ok
  /-- R30: the first error of a session. -/
  session_errors : b.sess_err = .ok ∨ b.sess_err = .busy ∨ b.sess_err = .bufferOverflow ∨ b.sess_err = .serializationFault

/-- A transfer in flight that is not done has bytes left to send (R85 and R89 set DONE with the last one). -/
def unfinishedHasBytes (b : Block) : Prop := b.tx_state = .inFlight → b.tx_done = false → b.tx_sent < b.tx_len

/-- The ranges R13 gives the lengths and indices, and the form of the four memories. -/
structure StorageInvariant (s : State) : Prop where
  /-- The parameters satisfy R6's constraints (the order of the interrupt priorities: log 11; as numbers: log 18). -/
  params : s.cfg.wf = true
  /-- `tx_len` in 0..TX_CAP. -/
  len_le_cap : s.blk.tx_len ≤ s.cfg.txCap
  /-- `rx_wr` in 0..RX_CAP-1. -/
  wr_lt_cap : s.blk.rx_wr < s.cfg.rxCap
  /-- `rx_rd` in 0..RX_CAP-1. -/
  rd_lt_cap : s.blk.rx_rd < s.cfg.rxCap
  /-- Canonical form of `tx_buf`, TX_CAP bytes. -/
  txBuf_wf : Memory.wf .txBuf s.blk.tx_buf = true ∧ Memory.within s.cfg.txCap s.blk.tx_buf = true
  /-- Canonical form of `stage`, STAGE_CAP bytes. -/
  stage_wf : Memory.wf .stage s.blk.stage = true ∧ Memory.within s.cfg.stageCap s.blk.stage = true
  /-- Canonical form of `rx_ring`, RX_CAP bytes. -/
  ring_wf : Memory.wf .rxRing s.blk.rx_ring = true ∧ Memory.within s.cfg.rxCap s.blk.rx_ring = true
  /-- Canonical form of `rxout`, RXOUT_CAP bytes. -/
  rxout_wf : Memory.wf .rxOut s.blk.rxout = true ∧ Memory.within s.cfg.rxoutCap s.blk.rxout = true

/-! ### What may differ between two states -/

/-- Only the block may differ: the parameters, the coming events, the value last read and the draw do not. -/
def onlyBlock (s t : State) : Prop := t = { s with blk := t.blk }

/-- Every byte of every memory reads as before. -/
def sameBytes (s t : State) : Prop := ∀ r a, t.byteAt r a = s.byteAt r a

/-- Every byte reads as before but for the n bytes of one region from index lo. -/
def sameBytesBut (r0 : Region) (lo n : Nat) (s t : State) : Prop :=
  ∀ r a, (r = r0 → a < lo ∨ lo + n ≤ a) → t.byteAt r a = s.byteAt r a

/-- The receive side is the same: RX port results, RXR state and RXOUT (R13). -/
def sameReceiveSide (b c : Block) : Prop :=
  c = { b with
    tx_arg0 := c.tx_arg0, tx_arg1 := c.tx_arg1, tx_result := c.tx_result, tx_rvalue := c.tx_rvalue,
    tx_state := c.tx_state, tx_buf := c.tx_buf, tx_len := c.tx_len, tx_sent := c.tx_sent, tx_done := c.tx_done,
    tx_xerr := c.tx_xerr, tx_stalled := c.tx_stalled, err := c.err, sess_open := c.sess_open,
    sess_be := c.sess_be, sess_err := c.sess_err, stage := c.stage, line_out := c.line_out }

/-- The transmit side is the same: TX port registers, TXM state, STAGE and the line (R13). -/
def sameTransmitSide (b c : Block) : Prop :=
  c = { b with
    rx_result := c.rx_result, rx_rvalue := c.rx_rvalue, rx_run := c.rx_run, rx_ring := c.rx_ring,
    rx_wr := c.rx_wr, rx_rd := c.rx_rd, rx_to := c.rx_to, rx_armed := c.rx_armed, rx_ht := c.rx_ht,
    rx_tc := c.rx_tc, rxout := c.rxout }

/-! ### Outcomes of commands, as the rules give them -/

/-- A command of the TX port that changes nothing but its result and value. -/
def txReports (s t : State) (code : ResultCode) (value : Word) : Prop :=
  t = { s with blk := { s.blk with tx_result := code, tx_rvalue := value } } ∧ sameBytes s t

/-- A command of the RX port that changes nothing but its result and value. -/
def rxReports (s t : State) (code : ResultCode) (value : Word) : Prop :=
  t = { s with blk := { s.blk with rx_result := code, rx_rvalue := value } } ∧ sameBytes s t

/-- `session_append(bytes, fault)` as R80 gives it, from the state before to the state after. -/
def appendOutcome (s t : State) (bytes : List Byte) (fault : ResultCode) : Prop :=
  if s.blk.sess_open = false then txReports s t .sequenceError 0
  else if s.blk.sess_err ≠ .ok then txReports s t s.blk.sess_err (BitVec.ofNat 32 s.blk.tx_len)
  else if s.cfg.txCap < s.blk.tx_len + bytes.length then
    t = { s with blk := { s.blk with
      sess_err := fault, tx_result := fault, tx_rvalue := BitVec.ofNat 32 s.blk.tx_len } } ∧ sameBytes s t
  else
    t = { s with blk := { s.blk with
      tx_buf := t.blk.tx_buf, tx_len := s.blk.tx_len + bytes.length,
      tx_result := .ok, tx_rvalue := BitVec.ofNat 32 (s.blk.tx_len + bytes.length) } } ∧
    t.bytesAt .txBuf s.blk.tx_len bytes.length = bytes ∧
    sameBytesBut .txBuf s.blk.tx_len bytes.length s t

/-- TX_OPEN and TX_OPEN_BE as R81 and R82 give them; `be` is what `sess_be` becomes. -/
def openOutcome (s t : State) (be : Bool) : Prop :=
  if s.blk.sess_open = true then txReports s t .sequenceError 0
  else if s.blk.tx_state = .inFlight then
    t = { s with blk := { s.blk with
      sess_open := true, sess_be := be, sess_err := .busy,
      tx_result := .busy, tx_rvalue := BitVec.ofNat 32 s.blk.tx_len } } ∧ sameBytes s t
  else
    t = { s with blk := { s.blk with
      sess_open := true, sess_be := be, sess_err := .ok, tx_buf := t.blk.tx_buf, tx_len := 0,
      tx_result := .ok, tx_rvalue := 0 } } ∧
    (∀ a, t.byteAt .txBuf a = 0) ∧ (∀ r a, r ≠ .txBuf → t.byteAt r a = s.byteAt r a)

/-- The end of a session with first error `e`, without a transfer (R85, R86). -/
def failOutcome (s t : State) (e : ResultCode) : Prop :=
  t = { s with blk := { s.blk with
    sess_open := false, sess_be := false, sess_err := .ok, err := true,
    tx_result := if s.blk.sess_be then .ok else e, tx_rvalue := BitVec.ofNat 32 s.blk.tx_len } } ∧ sameBytes s t

/-! ### Events and runs -/

/-- An event is the Host's write of a given command to its port's command register. -/
def isCommand (e : Event) (i : Instr) : Prop :=
  ∃ w, e = .hostWrite (cmdOffset i.port) .b32 w ∧ decode i.port w = .ok i

/-- A command's word on its port, as a number: decoding it there gives the command, and encoding the command
gives it (R62 to R64). -/
def hasWord (i : Instr) (p : Port) (w : Nat) : Prop :=
  decode p (BitVec.ofNat 32 w) = .ok i ∧ encode i = BitVec.ofNat 32 w

/-- The append-class commands (R80): TX_APPEND_BYTES, TX_APPEND_INT and ENCODE. -/
def appendClass : Instr → Bool
  | .encodeFrame _ => true
  | .txAppendBytes _ => true
  | .txAppendInt _ _ => true
  | .crcCalc _ => false
  | .decodeFrame _ => false
  | .txOpen => false
  | .txOpenBe => false
  | .txCommit => false
  | .txAbort => false
  | .txComplete => false
  | .txClrerr => false
  | .rxStart => false
  | .rxRead _ => false
  | .rxClrto => false
  | .rxClrirq => false

/-- How many bytes an append-class command appends (R73, R83, R84); 0 for the other commands. -/
def appendSize : Instr → Nat
  | .encodeFrame len => len + 4
  | .txAppendBytes len => len
  | .txAppendInt _ w => widthBytes w
  | .crcCalc _ => 0
  | .decodeFrame _ => 0
  | .txOpen => 0
  | .txOpenBe => 0
  | .txCommit => 0
  | .txAbort => 0
  | .txComplete => 0
  | .txClrerr => 0
  | .rxStart => 0
  | .rxRead _ => 0
  | .rxClrto => 0
  | .rxClrirq => 0

/-- The byte an event offers to RXDMA, if it offers one. -/
def offeredByte : Event → Option Byte
  | .rxByte b => some b
  | .hostRead _ _ => none
  | .hostWrite _ _ _ => none
  | .txSend => none
  | .txError => none
  | .rxTimeout => none
  | .sysReset => none

/-- The bytes the Line offers over a list of events, in order. -/
def offeredBytes (es : List Event) : List Byte := es.filterMap offeredByte

/-! ### R68's pseudocode, line by line -/

/-- R68's inner loop, n times: "if c[0] = 1: c <- (c >> 1) ^ 0x82F63B78, else: c <- c >> 1". -/
def crcLoop : Nat → Word → Word
  | 0, c => c
  | n + 1, c => crcLoop n (if c.getLsbD 0 = true then (c >>> 1) ^^^ 0x82F63B78 else c >>> 1)

/-- R68's outer loop: "c <- c ^ s[i]", then the inner loop 8 times. -/
def crcBytes : Word → List Byte → Word
  | c, [] => c
  | c, b :: bs => crcBytes (crcLoop 8 (c ^^^ b.setWidth 32)) bs

/-- R68's CRC32C. -/
def crc32c (s : List Byte) : Word := crcBytes 0xFFFFFFFF s ^^^ 0xFFFFFFFF

/-- The events that write a list of TX port commands, in order. -/
def txCommands (is : List Instr) : List Event := is.map fun i => commandEvent .tx (encode i)

/-- `k` steps of the machine. -/
def run (k : Nat) (s : State) : Host.Outcome State Fault Refusal := Host.Core.run Sys2Proof.core k s

/-! ### Illegal words, said without the decoder (R63, R65) -/

/-- The opcodes of a port (R63). -/
def opcodesOf : Port → List Nat
  | .tx => [0x01, 0x02, 0x10, 0x11, 0x12, 0x13, 0x14, 0x15, 0x16, 0x17]
  | .rx => [0x03, 0x20, 0x21, 0x22, 0x23]

/-- The opcodes of Format L (R63). -/
def lengthOpcodes : List Nat := [0x01, 0x02, 0x03, 0x12, 0x21]

/-- A reserved bit of the format of the word's opcode is 1 (R61). -/
def reservedBitSet (w : Word) : Prop :=
  if bitField w 31 24 ∈ lengthOpcodes then bitField w 23 16 ≠ 0
  else if bitField w 31 24 = 0x13 then bitField w 23 3 ≠ 0
  else bitField w 23 0 ≠ 0

/-- "A word is illegal if its opcode is not in rule R63 for its port, or if a reserved bit of its format is
1" (R65). -/
def illegalWord (p : Port) (w : Word) : Prop := bitField w 31 24 ∉ opcodesOf p ∨ reservedBitSet w

/-- The unassigned opcodes of R65. -/
def unassignedOpcode (opc : Nat) : Prop :=
  opc = 0x00 ∨ (0x04 ≤ opc ∧ opc ≤ 0x0F) ∨ (0x18 ≤ opc ∧ opc ≤ 0x1F) ∨ (0x24 ≤ opc ∧ opc ≤ 0xFF)

/-! ### Flags -/

/-- A flag that goes from 0 to 1 only under a condition. -/
def setOnlyBy (f : Block → Bool) (b c : Block) (cond : Prop) : Prop := f b = false → f c = true → cond

/-- A flag that goes from 1 to 0 only under a condition. -/
def clearedOnlyBy (f : Block → Bool) (b c : Block) (cond : Prop) : Prop := f b = true → f c = false → cond

end Sys2Proof.Safety
end

