-- ==== Sys2Proof/Certificates/Slice0/Obligations.lean ====
section
/-! DEFINITION. The statements for the provers. Each docstring names the rule it formalises; a statement that
rests on a choice of the model says so and names the log entry. -/

open Sys2Proof Sys2Proof.Machine Sys2Proof.Safety

/-! ### Encoding -/

/-- Decoding the word of a well-formed command on its port gives the command back, and the word is an opcode
of the other port on the other one (R61 to R64). -/
def Obligations.DecodeEncodeRoundTrip : Prop :=
  ∀ i : Instr, i.wf = true →
    decode i.port (encode i) = .ok i ∧ ∀ p, p ≠ i.port → decode p (encode i) = .error .otherPort

/-- A legal word is the encoding of the command it selects: no bit of a legal word is without meaning, and its
command is well-formed and of the port that took it (R61 to R64). -/
def Obligations.LegalWordIsItsEncoding : Prop :=
  ∀ (p : Port) (w : Word) (i : Instr), decode p w = .ok i → i.wf = true ∧ i.port = p ∧ encode i = w

/-- R65: an illegal word writes ILLEGAL_COMMAND and 0 on its port and changes no other state; every unassigned
opcode is illegal on both ports; a legal word whose LEN exceeds its window does the same. -/
def Obligations.IllegalWordHasNoOtherEffect : Prop :=
  (∀ (p : Port) (w : Word) (s : State) (rest : List Event), illegalWord p w →
    s.inputs = commandEvent p w :: rest →
    step s = .next (match p with
      | .tx => { s with inputs := rest, blk := { s.blk with tx_result := .illegalCommand, tx_rvalue := 0 } }
      | .rx => { s with inputs := rest, blk := { s.blk with rx_result := .illegalCommand, rx_rvalue := 0 } })) ∧
  (∀ (p : Port) (w : Word), unassignedOpcode (bitField w 31 24) → illegalWord p w) ∧
  (∀ (n : Nat) (s : State), s.cfg.stageCap < n →
    (∀ i ∈ [Instr.crcCalc n, .encodeFrame n, .txAppendBytes n],
      ∃ t, exec i s = .next t ∧ txReports s t .illegalCommand 0)) ∧
  (∀ (n : Nat) (s : State), s.cfg.rxoutCap < n →
    (∀ i ∈ [Instr.decodeFrame n, .rxRead n],
      ∃ t, exec i s = .next t ∧ rxReports s t .illegalCommand 0))

/-- Words written out from R63's encodings decode to the commands they stand for. -/
def Obligations.SampleWordsDecode : Prop :=
  decode .tx 0x01000009#32 = .ok (.crcCalc 9) ∧ decode .tx 0x13000005#32 = .ok (.txAppendInt .le .w2) ∧
  decode .tx 0x14000000#32 = .ok .txCommit ∧ decode .rx 0x21000010#32 = .ok (.rxRead 16) ∧
  decode .rx 0x03000007#32 = .ok (.decodeFrame 7) ∧ decode .tx 0x21000010#32 = .error .otherPort

/-! ### The step -/

/-- When the next event is the Host's write of a word to a command register and the word decodes there to a
command, the step is that command's meaning, on the state with the event taken off (R59, R64). -/
def Obligations.StepRunsDecodedCommand : Prop :=
  ∀ (s : State) (rest : List Event) (p : Port) (w : Word) (i : Instr),
    s.inputs = .hostWrite (cmdOffset p) .b32 w :: rest → decode p w = .ok i →
    i.wf = true ∧ step s = exec i { s with inputs := rest }

/-- The word of a well-formed command, placed as the next event, runs as that command. The placing is the
model's own (log 4). -/
def Obligations.PlacedWordRunsNext : Prop :=
  ∀ (i : Instr) (s : State), i.wf = true →
    decodeTableWord 32 (encode i).toNat = some i ∧ step (s.withFetchWord 32 (encode i).toNat) = exec i s

/-! ### Reset and parameters -/

/-- R124: what every register reads and every output drives after reset, for all parameters R6 allows. The bytes of
STAGE and RXOUT, which R124 calls unspecified, are the free values of the draw (U1, U2): that is the model's choice
(log 3). -/
def Obligations.ResetRegisterValues : Prop :=
  ∀ (cfg : Params) (draw : Nat), cfg.wf = true →
    (∀ off ∈ [0x000#14, 0x004, 0x008, 0x00C, 0x010, 0x014, 0x018, 0x040, 0x04C, 0x050, 0x054, 0x058, 0x060, 0x064],
      readRegister (State.resetWith cfg draw) off = 0) ∧
    (readRegister (State.resetWith cfg draw) 0x01C).toNat = cfg.stageCap * 2 ^ 16 + cfg.txCap ∧
    (readRegister (State.resetWith cfg draw) 0x05C).toNat = cfg.rxoutCap * 2 ^ 16 + cfg.rxCap ∧
    (∀ a, (State.resetWith cfg draw).byteAt .stage a = Config.unspecifiedByte draw .stage a) ∧
    (∀ a, (State.resetWith cfg draw).byteAt .rxOut a = Config.unspecifiedByte draw .rxOut a) ∧
    txIrq (State.resetWith cfg draw).blk = false ∧ rxIrq (State.resetWith cfg draw).blk = false ∧
    errInd (State.resetWith cfg draw).blk = false

/-- The system reset sets every component of R13 to its reset value in one step, from any state, and drops
what was in progress (R123, R125). That it is an event, keeps the coming events and takes the next draw of
unspecified bytes is the model's choice (log 9). -/
def Obligations.SystemResetSetsEveryComponent : Prop :=
  ∀ (s : State) (rest : List Event), s.inputs = .sysReset :: rest →
    ∃ t, step s = .next t ∧ t.cfg = s.cfg ∧ t.inputs = rest ∧ t.rdata = s.rdata ∧ t.draw = s.draw + 1 ∧
      t.blk.tx_arg0 = 0 ∧ t.blk.tx_arg1 = 0 ∧ t.blk.tx_result = .ok ∧ t.blk.tx_rvalue = 0 ∧
      t.blk.rx_result = .ok ∧ t.blk.rx_rvalue = 0 ∧ t.blk.tx_state = .idle ∧
      (∀ a, t.byteAt .txBuf a = 0) ∧ t.blk.tx_len = 0 ∧ t.blk.tx_sent = 0 ∧ t.blk.tx_done = false ∧
      t.blk.tx_xerr = false ∧ t.blk.tx_stalled = false ∧ t.blk.err = false ∧ t.blk.sess_open = false ∧
      t.blk.sess_be = false ∧ t.blk.sess_err = .ok ∧ t.blk.rx_run = false ∧ t.blk.rx_wr = 0 ∧
      t.blk.rx_rd = 0 ∧ t.blk.rx_to = false ∧ t.blk.rx_armed = false ∧ t.blk.rx_ht = false ∧
      t.blk.rx_tc = false ∧ t.blk.line_out = [] ∧
      (∀ r, r ≠ .txBuf → ∀ a, t.byteAt r a = Config.unspecifiedByte (s.draw + 1) r a)

/-- TX_CAPS reads TX_CAP in bits [15:0] and STAGE_CAP in bits [31:16], a Host read returns that, a write to it is
ignored, and no step changes what it reads (R27); the same holds of RX_CAPS (R36). That no step changes any parameter
is the model's choice (log 1). -/
def Obligations.CapacityRegistersConstant : Prop :=
  (∀ s : State, s.cfg.wf = true →
    bitField (readRegister s 0x01C) 15 0 = s.cfg.txCap ∧ bitField (readRegister s 0x01C) 31 16 = s.cfg.stageCap ∧
    bitField (readRegister s 0x05C) 15 0 = s.cfg.rxCap ∧ bitField (readRegister s 0x05C) 31 16 = s.cfg.rxoutCap) ∧
  (∀ (s : State) (v : Word), ∀ off ∈ [0x01C#14, 0x05C],
    hostRead off .b32 s = .next { s with rdata := readRegister s off } ∧ hostWrite off .b32 v s = .next s) ∧
  (∀ s t : State, step s = .next t → t.cfg = s.cfg ∧
    readRegister t 0x01C = readRegister s 0x01C ∧ readRegister t 0x05C = readRegister s 0x05C)

/-! ### Host accesses -/

/-- R50: no read has a side effect, so a read can be repeated; a write to any offset but TX_CMD and RX_CMD
changes only TX_ARG0, TX_ARG1 or the STAGE bytes it covers; a command written twice executes twice. -/
def Obligations.AccessSideEffects : Prop :=
  (∀ (off : Offset) (w : AccessWidth) (s t : State), hostRead off w s = .next t →
    t = { s with rdata := t.rdata } ∧ hostRead off w t = .next t) ∧
  (∀ (off : Offset) (w : AccessWidth) (v : Word) (s t : State), hostWrite off w v s = .next t →
    off ≠ cmdOffset .tx → off ≠ cmdOffset .rx →
    t = { s with blk := { s.blk with
      tx_arg0 := t.blk.tx_arg0, tx_arg1 := t.blk.tx_arg1, stage := t.blk.stage } } ∧
    t.blk.tx_arg0 = (if off = 0x004 then v else s.blk.tx_arg0) ∧
    t.blk.tx_arg1 = (if off = 0x008 then v else s.blk.tx_arg1) ∧
    (∀ r a, (r = .stage → 0x1000 + a < off.toNat ∨ off.toNat + accessBytes w ≤ 0x1000 + a) →
      t.byteAt r a = s.byteAt r a)) ∧
  (∀ (s t : State) (rest : List Event) (p : Port) (w : Word) (i : Instr),
    s.inputs = commandEvent p w :: commandEvent p w :: rest → decode p w = .ok i → step s = .next t →
    step t = exec i { t with inputs := rest })

/-- R44: an aligned 32-bit access to an offset of register space that R43 does not list, and an aligned access
to window offsets beyond the window's capacity, read 0 and ignore a write, with no side effect. -/
def Obligations.UnmappedOffsetsReadZero : Prop :=
  (∀ (off : Offset) (v : Word) (s : State),
    ((0x020 ≤ off.toNat ∧ off.toNat ≤ 0x03C) ∨ off.toNat = 0x044 ∨ off.toNat = 0x048 ∨
      (0x068 ≤ off.toNat ∧ off.toNat ≤ 0xFFF)) → off.toNat % 4 = 0 →
    hostRead off .b32 s = .next { s with rdata := 0 } ∧ hostWrite off .b32 v s = .next s) ∧
  (∀ (off : Offset) (w : AccessWidth) (v : Word) (s : State), off.toNat % accessBytes w = 0 →
    ((0x1000 + s.cfg.stageCap ≤ off.toNat ∧ off.toNat < 0x2000) ∨
      (0x2000 + s.cfg.rxoutCap ≤ off.toNat ∧ off.toNat < 0x3000)) →
    hostRead off w s = .next { s with rdata := 0 } ∧ hostWrite off w v s = .next s)

/-- R45: register space takes only 32-bit accesses at multiples of 4; any other access is refused, and these
are answered. -/
def Obligations.RegisterAccessWidth : Prop :=
  ∀ (off : Offset) (w : AccessWidth) (v : Word) (s : State), off.toNat < 0x1000 →
    (if w = .b32 ∧ off.toNat % 4 = 0 then
      (∃ t, hostRead off w s = .next t) ∧ (∃ t, hostWrite off w v s = .next t)
    else hostRead off w s = .refused .registerAccess ∧ hostWrite off w v s = .refused .registerAccess)

/-- R46: a window access is refused if misaligned and answered otherwise, byte by byte: a byte inside the
window is read or written, a byte outside reads 0 and is not written; RXOUT is never written. -/
def Obligations.WindowAccessBytewise : Prop :=
  ∀ (off : Offset) (w : AccessWidth) (v : Word) (s : State), s.cfg.wf = true →
    0x1000 ≤ off.toNat → off.toNat < 0x3000 →
    (if off.toNat % accessBytes w ≠ 0 then
      hostRead off w s = .refused .misalignedWindowAccess ∧ hostWrite off w v s = .refused .misalignedWindowAccess
    else
      (∃ t, hostRead off w s = .next t ∧ t = { s with rdata := t.rdata } ∧
        (∀ k, k < accessBytes w → bitField t.rdata (8 * k + 7) (8 * k) =
          (if off.toNat < 0x2000 then
            (if off.toNat + k < 0x1000 + s.cfg.stageCap then (s.byteAt .stage (off.toNat + k - 0x1000)).toNat else 0)
          else
            (if off.toNat + k < 0x2000 + s.cfg.rxoutCap then (s.byteAt .rxOut (off.toNat + k - 0x2000)).toNat
             else 0)))) ∧
      (∃ t, hostWrite off w v s = .next t ∧ t = { s with blk := { s.blk with stage := t.blk.stage } } ∧
        (∀ r a, (r = .stage → 0x1000 + a < off.toNat ∨ off.toNat + accessBytes w ≤ 0x1000 + a ∨ s.cfg.stageCap ≤ a) →
          t.byteAt r a = s.byteAt r a) ∧
        (∀ k, k < accessBytes w → off.toNat + k < 0x1000 + s.cfg.stageCap →
          (t.byteAt .stage (off.toNat + k - 0x1000)).toNat = bitField v (8 * k + 7) (8 * k))))

/-- R47: a 32-bit write to STAGE stores the value's bytes in order of rising significance, a 32-bit read puts
them together the same way, and byte reads return them one by one. That a narrow read's upper bits are 0 is the
model's choice (log 17). -/
def Obligations.WindowsLittleEndian : Prop :=
  ∀ (o : Nat) (v : Word) (s : State), s.cfg.wf = true → o % 4 = 0 → o + 4 ≤ s.cfg.stageCap →
    ∃ t, hostWrite (BitVec.ofNat 14 (0x1000 + o)) .b32 v s = .next t ∧
      (t.byteAt .stage o).toNat = bitField v 7 0 ∧ (t.byteAt .stage (o + 1)).toNat = bitField v 15 8 ∧
      (t.byteAt .stage (o + 2)).toNat = bitField v 23 16 ∧ (t.byteAt .stage (o + 3)).toNat = bitField v 31 24 ∧
      hostRead (BitVec.ofNat 14 (0x1000 + o)) .b32 t = .next { t with rdata := v } ∧
      hostRead (BitVec.ofNat 14 (0x1000 + o)) .b16 t = .next { t with rdata := BitVec.ofNat 32 (bitField v 15 0) } ∧
      (∀ k, k < 4 → hostRead (BitVec.ofNat 14 (0x1000 + o + k)) .b8 t =
        .next { t with rdata := BitVec.ofNat 32 (bitField v (8 * k + 7) (8 * k)) })

/-- An access at 0x3000 to 0x3FFF, outside the block's 0x3000 offsets (R42), stops with a fault. That it is a
fault is the model's choice (log 6). -/
def Obligations.OffsetOutsideBlockFaults : Prop :=
  ∀ (off : Offset) (w : AccessWidth) (v : Word) (s : State), 0x3000 ≤ off.toNat →
    hostRead off w s = .fault .offsetOutsideBlock ∧ hostWrite off w v s = .fault .offsetOutsideBlock

/-- R25: the fields of TX_STATUS; a read changes nothing but the Host's value, and a write is ignored. -/
def Obligations.TxStatusFields : Prop :=
  ∀ (s : State) (v : Word),
    hostRead 0x014 .b32 s = .next { s with rdata := readRegister s 0x014 } ∧
    hostWrite 0x014 .b32 v s = .next s ∧
    ((readRegister s 0x014).getLsbD 0 = true ↔ s.blk.tx_state = .inFlight) ∧
    (readRegister s 0x014).getLsbD 1 = s.blk.err ∧
    (readRegister s 0x014).getLsbD 2 = s.blk.sess_open ∧
    ((readRegister s 0x014).getLsbD 3 = true ↔ s.blk.sess_open = true ∧ s.blk.sess_err ≠ .ok) ∧
    (readRegister s 0x014).getLsbD 4 = s.blk.tx_done ∧
    (readRegister s 0x014).getLsbD 5 = s.blk.tx_xerr ∧
    (readRegister s 0x014).getLsbD 6 = s.blk.sess_be ∧
    (∀ k, 7 ≤ k → (readRegister s 0x014).getLsbD k = false) ∧
    readRegister State.reset 0x014 = 0

/-- R34: the fields of RX_STATUS; a read changes nothing but the Host's value, and a write is ignored. -/
def Obligations.RxStatusFields : Prop :=
  ∀ (s : State) (v : Word),
    hostRead 0x054 .b32 s = .next { s with rdata := readRegister s 0x054 } ∧
    hostWrite 0x054 .b32 v s = .next s ∧
    (readRegister s 0x054).getLsbD 0 = s.blk.rx_run ∧
    (readRegister s 0x054).getLsbD 1 = s.blk.rx_to ∧
    (readRegister s 0x054).getLsbD 2 = s.blk.rx_ht ∧
    (readRegister s 0x054).getLsbD 3 = s.blk.rx_tc ∧
    (∀ k, 4 ≤ k → (readRegister s 0x054).getLsbD k = false) ∧
    readRegister State.reset 0x054 = 0

/-- A Host read of TX_LEN, RX_AVAIL, RX_WR or RX_RD returns the register's value and a write is ignored; they read the
lengths and indices in bits [15:0] and 0 above, wherever these lie in R13's ranges; RX_AVAIL is the number of places from `rx_rd` up to `rx_wr` around the ring (R26, R36). -/
def Obligations.LengthAndIndexRegisters : Prop :=
  (∀ (s : State) (v : Word), ∀ off ∈ [0x018#14, 0x058, 0x060, 0x064],
    hostRead off .b32 s = .next { s with rdata := readRegister s off } ∧ hostWrite off .b32 v s = .next s) ∧
  ∀ s : State, StorageInvariant s →
    (readRegister s 0x018).toNat = s.blk.tx_len ∧ (readRegister s 0x060).toNat = s.blk.rx_wr ∧
    (readRegister s 0x064).toNat = s.blk.rx_rd ∧ (readRegister s 0x058).toNat < s.cfg.rxCap ∧
    (s.blk.rx_rd + (readRegister s 0x058).toNat) % s.cfg.rxCap = s.blk.rx_wr

/-- TX_ARG0 and TX_ARG1: a Host read returns the last value written, a write of one leaves the rest alone, and no
other step than that write changes them, the system reset aside (R15, R16). -/
def Obligations.ArgumentRegisters : Prop :=
  (∀ (s : State) (v : Word),
    hostWrite 0x004 .b32 v s = .next { s with blk := { s.blk with tx_arg0 := v } } ∧
    hostWrite 0x008 .b32 v s = .next { s with blk := { s.blk with tx_arg1 := v } } ∧
    hostRead 0x004 .b32 s = .next { s with rdata := s.blk.tx_arg0 } ∧
    hostRead 0x008 .b32 s = .next { s with rdata := s.blk.tx_arg1 }) ∧
  (∀ (s t : State) (e : Event) (rest : List Event), s.inputs = e :: rest → step s = .next t → e ≠ .sysReset →
    ((∀ v, e ≠ .hostWrite 0x004 .b32 v) → t.blk.tx_arg0 = s.blk.tx_arg0) ∧
    ((∀ v, e ≠ .hostWrite 0x008 .b32 v) → t.blk.tx_arg1 = s.blk.tx_arg1))

/-- The result registers: what TX_RESULT, TX_RVALUE, RX_RESULT and RX_RVALUE read, the number of each result code in
bits [7:0] and 0 above, at most 8; a write of them is ignored; a read of TX_CMD or RX_CMD gives 0 (R17, R19, R28,
R35, R108). -/
def Obligations.ResultRegisters : Prop :=
  ∀ (s : State) (v : Word),
    hostRead 0x00C .b32 s = .next { s with rdata := s.blk.tx_result.code.setWidth 32 } ∧
    hostRead 0x010 .b32 s = .next { s with rdata := s.blk.tx_rvalue } ∧
    hostRead 0x04C .b32 s = .next { s with rdata := s.blk.rx_result.code.setWidth 32 } ∧
    hostRead 0x050 .b32 s = .next { s with rdata := s.blk.rx_rvalue } ∧
    (readRegister s 0x00C).toNat ≤ 8 ∧ (readRegister s 0x04C).toNat ≤ 8 ∧
    (∀ off ∈ [0x00C#14, 0x010, 0x04C, 0x050], hostWrite off .b32 v s = .next s) ∧
    (∀ off ∈ [cmdOffset .tx, cmdOffset .rx], hostRead off .b32 s = .next { s with rdata := 0 }) ∧
    ([ResultCode.ok, .bufferOverflow, .busy, .notStarted, .serializationFault, .integrityFault, .producerError,
      .sequenceError, .illegalCommand].map ResultCode.code = [0, 1, 2, 3, 4, 5, 6, 7, 8])

/-! ### The frame codec -/

/-- R72: for every LEN n and every state CRC_CALC answers a next state that differs only in TX_RESULT and TX_RVALUE:
ILLEGAL_COMMAND and 0 if n > STAGE_CAP, else OK and the CRC of STAGE's first n bytes (0 for n = 0 under the default
CRC parameters). Its word on TX_CMD is 0x01000000 + n. Under the default parameters the CRC of every byte sequence is
R68's pseudocode, and that of "123456789" is the check value 0xE3069283. The default's numbers are presumed (log 2): R68
takes them "from the published CRC-32/ISCSI (CRC-32C, Castagnoli) catalogue entry". -/
def Obligations.CrcCalcResult : Prop :=
  (∀ bs : List Byte, crc32 .iscsi bs = crc32c bs) ∧
  crc32 .iscsi [0x31, 0x32, 0x33, 0x34, 0x35, 0x36, 0x37, 0x38, 0x39] = 0xE3069283 ∧
  ∀ (n : Nat) (s : State), (n < 2 ^ 16 → hasWord (.crcCalc n) .tx (0x01000000 + n)) ∧
    ∃ t, exec (.crcCalc n) s = .next t ∧
    (if s.cfg.stageCap < n then txReports s t .illegalCommand 0
     else txReports s t .ok (crc32 s.cfg.crc (s.bytesAt .stage 0 n))) ∧
    (n = 0 → s.cfg.crc = .iscsi → t.blk.tx_rvalue = 0)

/-- R73: for every LEN n and every state ENCODE answers a next state, by R73's checks in order: n > STAGE_CAP, no
session and a failed session change only the result and value; a frame that does not fit sets the session's first
error to SERIALIZATION_FAULT and appends nothing; else STAGE's first n bytes and the big-endian CRC of them are
appended, tx_len grows by n + 4, and nothing else changes. Its word on TX_CMD is 0x02000000 + n. -/
def Obligations.EncodeAppendsFrame : Prop :=
  ∀ (n : Nat) (s : State), (n < 2 ^ 16 → hasWord (.encodeFrame n) .tx (0x02000000 + n)) ∧
    ∃ t, exec (.encodeFrame n) s = .next t ∧
    (if s.cfg.stageCap < n then txReports s t .illegalCommand 0
     else if s.blk.sess_open = false then txReports s t .sequenceError 0
     else if s.blk.sess_err ≠ .ok then txReports s t s.blk.sess_err (BitVec.ofNat 32 s.blk.tx_len)
     else if s.cfg.txCap < s.blk.tx_len + n + 4 then
       t = { s with blk := { s.blk with
         sess_err := .serializationFault, tx_result := .serializationFault,
         tx_rvalue := BitVec.ofNat 32 s.blk.tx_len } } ∧ sameBytes s t
     else
       t = { s with blk := { s.blk with
         tx_buf := t.blk.tx_buf, tx_len := s.blk.tx_len + n + 4,
         tx_result := .ok, tx_rvalue := BitVec.ofNat 32 (s.blk.tx_len + n + 4) } } ∧
       (∀ k, k < n → t.byteAt .txBuf (s.blk.tx_len + k) = s.byteAt .stage k) ∧
       t.bytesAt .txBuf (s.blk.tx_len + n) 4 = beBytes 4 (crc32 s.cfg.crc (s.bytesAt .stage 0 n)).toNat ∧
       sameBytesBut .txBuf s.blk.tx_len (n + 4) s t)

/-- R74: for every LEN n and every state DECODE answers a next state that differs only in RX_RESULT and RX_RVALUE:
ILLEGAL_COMMAND and 0 if n > RXOUT_CAP, INTEGRITY_FAULT and 0 if n < 4, else the CRC of RXOUT's first n - 4 bytes,
with OK if it equals the next four bytes read big-endian and INTEGRITY_FAULT if not. It answers OK exactly when n is
at most RXOUT_CAP and RXOUT's first n bytes are a valid frame (R71). Its word on RX_CMD is 0x03000000 + n. -/
def Obligations.DecodeVerdict : Prop :=
  ∀ (n : Nat) (s : State), (n < 2 ^ 16 → hasWord (.decodeFrame n) .rx (0x03000000 + n)) ∧
    ∃ t, exec (.decodeFrame n) s = .next t ∧
    (if s.cfg.rxoutCap < n then rxReports s t .illegalCommand 0
     else if n < 4 then rxReports s t .integrityFault 0
     else if (crc32 s.cfg.crc (s.bytesAt .rxOut 0 (n - 4))).toNat = unBe (s.bytesAt .rxOut (n - 4) 4) then
       rxReports s t .ok (crc32 s.cfg.crc (s.bytesAt .rxOut 0 (n - 4)))
     else rxReports s t .integrityFault (crc32 s.cfg.crc (s.bytesAt .rxOut 0 (n - 4)))) ∧
    (t.blk.rx_result = .ok ↔ n ≤ s.cfg.rxoutCap ∧ validFrame s.cfg.crc (s.bytesAt .rxOut 0 n) = true)

/-- Changing the trailer of a frame that DECODE accepts, and nothing before it, makes DECODE answer
INTEGRITY_FAULT with the same computed CRC, whatever the CRC parameters (R74, R77). -/
def Obligations.DecodeRejectsChangedTrailer : Prop :=
  ∀ (n : Nat) (s s' t : State), n ≤ s.cfg.rxoutCap → exec (.decodeFrame n) s = .next t → t.blk.rx_result = .ok →
    s'.cfg = s.cfg → (∀ a, a < n - 4 → s'.byteAt .rxOut a = s.byteAt .rxOut a) →
    (∃ j, j < 4 ∧ s'.byteAt .rxOut (n - 4 + j) ≠ s.byteAt .rxOut (n - 4 + j)) →
    ∃ t', exec (.decodeFrame n) s' = .next t' ∧ t'.blk.rx_result = .integrityFault ∧
      t'.blk.rx_rvalue = t.blk.rx_rvalue

/-- Changing any one byte of a frame that DECODE accepts, in the payload or the trailer, makes DECODE answer
INTEGRITY_FAULT under the default CRC parameters; so any one flipped bit is detected (R77). The default is presumed
(log 2), and R77 marks the detection of payload changes as general knowledge: "because a CRC whose generator has more
than one term detects every single-bit error". -/
def Obligations.DecodeDetectsOneByteChange : Prop :=
  ∀ (n j : Nat) (s s' t : State), s.cfg.crc = .iscsi → exec (.decodeFrame n) s = .next t → t.blk.rx_result = .ok →
    s'.cfg = s.cfg → j < n → s'.byteAt .rxOut j ≠ s.byteAt .rxOut j →
    (∀ a, a < n → a ≠ j → s'.byteAt .rxOut a = s.byteAt .rxOut a) →
    ∃ t', exec (.decodeFrame n) s' = .next t' ∧ t'.blk.rx_result = .integrityFault

/-- R76 over one order of steps, in one machine: ENCODE of p in a good empty session, TX_COMMIT, all the sends, then
the sent bytes received in order as one drain, RX_READ and DECODE (other interleavings that R76 allows are left out): the line has carried frame(p), DECODE answers OK and RXOUT begins
with p. -/
def Obligations.FrameRoundTrip : Prop :=
  ∀ (n : Nat) (s : State), s.cfg.wf = true → goodSession s.blk = true → s.blk.tx_len = 0 →
    n ≤ s.cfg.stageCap → n + 4 ≤ s.cfg.txCap → n + 4 ≤ s.cfg.rxoutCap → n + 4 < s.cfg.rxCap →
    s.blk.rx_run = true → s.blk.rx_rd = s.blk.rx_wr → s.blk.rx_wr < s.cfg.rxCap →
    s.inputs =
      txCommands [.encodeFrame n, .txCommit] ++ List.replicate (n + 4) .txSend ++
      (frame s.cfg.crc (s.bytesAt .stage 0 n)).map .rxByte ++
      [commandEvent .rx (encode (.rxRead (n + 4))), commandEvent .rx (encode (.decodeFrame (n + 4)))] →
    ∃ t, run (2 * n + 12) s = .next t ∧
      t.blk.line_out = s.blk.line_out ++ frame s.cfg.crc (s.bytesAt .stage 0 n) ∧
      t.blk.rx_result = .ok ∧ t.blk.rx_rvalue = crc32 s.cfg.crc (s.bytesAt .stage 0 n) ∧
      t.bytesAt .rxOut 0 n = s.bytesAt .stage 0 n

/-! ### The transmit transfer manager -/

/-- R81: in every state TX_OPEN answers a next state: inside a session SEQUENCE_ERROR and 0 and no other change;
while InFlight an open normal session with first error BUSY, the buffer untouched, BUSY and tx_len; otherwise a good
normal session, every byte of tx_buf 0, tx_len 0, OK and 0. Nothing else changes. Its word on TX_CMD is 0x10000000.
-/
def Obligations.TxOpenResult : Prop :=
  ∀ s : State, hasWord .txOpen .tx 0x10000000 ∧ ∃ t, exec .txOpen s = .next t ∧ openOutcome s t false

/-- R82: in every state TX_OPEN_BE answers a next state as TX_OPEN does, but the session it opens is best-effort.
Its word on TX_CMD is 0x11000000. -/
def Obligations.TxOpenBeResult : Prop :=
  ∀ s : State, hasWord .txOpenBe .tx 0x11000000 ∧ ∃ t, exec .txOpenBe s = .next t ∧ openOutcome s t true

/-- R83: for every LEN n and every state TX_APPEND_BYTES answers a next state: ILLEGAL_COMMAND and 0 and no other
change if n > STAGE_CAP; else STAGE's first n bytes are appended to the session as session_append does it, with
fault BUFFER_OVERFLOW: SEQUENCE_ERROR with no session, the first error in a failed session, BUFFER_OVERFLOW recorded
and nothing appended if they do not fit, else appended whole with OK and the new tx_len; nothing else changes. Its
word on TX_CMD is 0x12000000 + n. -/
def Obligations.TxAppendBytesResult : Prop :=
  ∀ (n : Nat) (s : State), (n < 2 ^ 16 → hasWord (.txAppendBytes n) .tx (0x12000000 + n)) ∧
    ∃ t, exec (.txAppendBytes n) s = .next t ∧
    (if s.cfg.stageCap < n then txReports s t .illegalCommand 0
     else appendOutcome s t (s.bytesAt .stage 0 n) .bufferOverflow)

/-- R84: for every E, W and state TX_APPEND_INT answers a next state that appends 2^W bytes, as session_append does
it with fault BUFFER_OVERFLOW; byte k is the byte of TX_ARG1:TX_ARG0 of weight k (little-endian) or 2^W - 1 - k
(big-endian). Its word on TX_CMD is 0x13000000 + 4 E + W. -/
def Obligations.TxAppendIntResult : Prop :=
  ∀ (e : Endian) (w : IntWidth) (s : State),
    hasWord (.txAppendInt e w) .tx (0x13000000 + 4 * e.field + w.field) ∧
    ∃ t bytes, exec (.txAppendInt e w) s = .next t ∧
    appendOutcome s t bytes .bufferOverflow ∧ bytes.length = 2 ^ w.field ∧
    (∀ k (h : k < bytes.length), bytes[k].toNat =
      (s.blk.tx_arg1.toNat * 2 ^ 32 + s.blk.tx_arg0.toNat) /
        2 ^ (8 * (match e with | .be => bytes.length - 1 - k | .le => k)) % 256)

/-- R85: in every state TX_COMMIT answers a next state: with no session SEQUENCE_ERROR and 0 and no other change; a
good session ends and the transfer starts (InFlight, nothing sent, TXERR 0, not stalled, DONE exactly if tx_len = 0)
with OK and tx_len; a failed session ends with ERROR set and its first error (OK if best-effort) and tx_len. No byte
of any memory and nothing else changes. Its word on TX_CMD is 0x14000000. -/
def Obligations.TxCommitResult : Prop :=
  ∀ s : State, hasWord .txCommit .tx 0x14000000 ∧ ∃ t, exec .txCommit s = .next t ∧
    (if s.blk.sess_open = false then txReports s t .sequenceError 0
     else if s.blk.sess_err = .ok then
       t = { s with blk := { s.blk with
         sess_open := false, sess_be := false, sess_err := .ok, tx_state := .inFlight, tx_sent := 0,
         tx_xerr := false, tx_stalled := false, tx_done := decide (s.blk.tx_len = 0),
         tx_result := .ok, tx_rvalue := BitVec.ofNat 32 s.blk.tx_len } } ∧ sameBytes s t
     else failOutcome s t s.blk.sess_err)

/-- R86: in every state TX_ABORT answers a next state: with no session SEQUENCE_ERROR and 0 and no other change;
else the session ends with ERROR set and, as result, its first error or PRODUCER_ERROR if it has none (OK if best-
effort), and tx_len as value. Nothing else changes. Its word on TX_CMD is 0x15000000. -/
def Obligations.TxAbortResult : Prop :=
  ∀ s : State, hasWord .txAbort .tx 0x15000000 ∧ ∃ t, exec .txAbort s = .next t ∧
    (if s.blk.sess_open = false then txReports s t .sequenceError 0
     else failOutcome s t (if s.blk.sess_err = .ok then .producerError else s.blk.sess_err))

/-- R87: in every state TX_COMPLETE answers a next state: Idle gives NOT_STARTED and tx_len, InFlight without DONE
BUSY and tx_len, both with no other change; with DONE the buffer is cleared, tx_len, tx_sent, DONE, TXERR and the
stall are 0, the TXM is Idle, and the result is OK and 0. Nothing else changes. Its word on TX_CMD is 0x16000000. -/
def Obligations.TxCompleteResult : Prop :=
  ∀ s : State, hasWord .txComplete .tx 0x16000000 ∧ ∃ t, exec .txComplete s = .next t ∧
    (if s.blk.tx_state = .idle then txReports s t .notStarted (BitVec.ofNat 32 s.blk.tx_len)
     else if s.blk.tx_done = false then txReports s t .busy (BitVec.ofNat 32 s.blk.tx_len)
     else
       t = { s with blk := { s.blk with
         tx_state := .idle, tx_buf := t.blk.tx_buf, tx_len := 0, tx_sent := 0, tx_done := false,
         tx_xerr := false, tx_stalled := false, tx_result := .ok, tx_rvalue := 0 } } ∧
       (∀ a, t.byteAt .txBuf a = 0) ∧ (∀ r a, r ≠ .txBuf → t.byteAt r a = s.byteAt r a))

/-- R94: TX_COMPLETE when not InFlight, when InFlight but not done, and when done; a completion that reclaims
happens exactly once: whatever steps come in between, the next TX_COMPLETE answers NOT_STARTED, as long as no
TX_COMMIT is among them. -/
def Obligations.CompletionHappensOnce : Prop :=
  (∀ s : State, s.blk.tx_state = .idle →
    ∃ t, exec .txComplete s = .next t ∧ txReports s t .notStarted (BitVec.ofNat 32 s.blk.tx_len)) ∧
  (∀ s : State, s.blk.tx_state = .inFlight → s.blk.tx_done = false →
    ∃ t, exec .txComplete s = .next t ∧ txReports s t .busy (BitVec.ofNat 32 s.blk.tx_len)) ∧
  (∀ s : State, s.blk.tx_state = .inFlight → s.blk.tx_done = true →
    ∃ t, exec .txComplete s = .next t ∧ t.blk.tx_result = .ok ∧ t.blk.tx_state = .idle ∧ t.blk.tx_len = 0 ∧
      (∀ a, t.byteAt .txBuf a = 0) ∧
      ∀ (k : Nat) (u : State), run k t = .next u → (∀ e ∈ t.inputs.take k, ¬ isCommand e .txCommit) →
        ∃ v, exec .txComplete u = .next v ∧ v.blk.tx_result = .notStarted)

/-- R88: in every state TX_CLRERR answers a next state with ERROR 0, OK and tx_len, and nothing else changed. Its
word on TX_CMD is 0x17000000. -/
def Obligations.TxClrerrResult : Prop :=
  ∀ s : State, hasWord .txClrerr .tx 0x17000000 ∧ ∃ t, exec .txClrerr s = .next t ∧
    t = { s with blk := { s.blk with
      err := false, tx_result := .ok, tx_rvalue := BitVec.ofNat 32 s.blk.tx_len } } ∧ sameBytes s t

/-- The TXDMA send step: where its guard holds it sends the next byte of the buffer, in index order, and after
the last byte DONE is set (R89). A turn without the guard changes nothing, which is the model's choice
(log 5). -/
def Obligations.TxSendStepResult : Prop :=
  ∀ (s : State) (rest : List Event), s.inputs = .txSend :: rest → ∃ t, step s = .next t ∧ sameBytes s t ∧
    (if s.blk.tx_state = .inFlight ∧ s.blk.tx_done = false ∧ s.blk.tx_stalled = false ∧
        s.blk.tx_sent < s.blk.tx_len then
      t = { s with inputs := rest, blk := { s.blk with
        line_out := s.blk.line_out ++ [s.byteAt .txBuf s.blk.tx_sent], tx_sent := s.blk.tx_sent + 1,
        tx_done := decide (s.blk.tx_sent + 1 = s.blk.tx_len) } }
     else t = { s with inputs := rest })

/-- The TXDMA transfer-error step, under both values of TX_ERR_POLICY (R90). A turn without the guard changes
nothing, which is the model's choice (log 5). -/
def Obligations.TxErrorStepResult : Prop :=
  ∀ (s : State) (rest : List Event), s.inputs = .txError :: rest → ∃ t, step s = .next t ∧ sameBytes s t ∧
    (if s.blk.tx_state = .inFlight ∧ s.blk.tx_done = false ∧ s.blk.tx_stalled = false then
      t = { s with inputs := rest, blk := { s.blk with
        tx_xerr := true, err := true,
        tx_stalled := (if s.cfg.txErrPolicy = .stall then true else s.blk.tx_stalled),
        tx_done := (if s.cfg.txErrPolicy = .stall then s.blk.tx_done else true) } }
     else t = { s with inputs := rest })

/-- R93: a whole write issued while InFlight, of any appends: TX_OPEN reports BUSY, TX_COMMIT reports BUSY (OK if
best-effort) and latches ERROR, and after each of its commands `tx_buf`, `tx_len`, `tx_sent` and `tx_done` of the
transfer in flight are as they were. -/
def Obligations.InFlightWriteIsHarmless : Prop :=
  ∀ (s : State) (be : Bool) (appends : List Instr) (rest : List Event),
    s.blk.tx_state = .inFlight → s.blk.sess_open = false →
    (∀ i ∈ appends, i.wf = true ∧ appendClass i = true) →
    s.inputs = txCommands ((if be then .txOpenBe else .txOpen) :: appends ++ [.txCommit]) ++ rest →
    (∀ k, k ≤ appends.length + 2 → ∃ u, run k s = .next u ∧ u.blk.tx_state = .inFlight ∧
      u.blk.tx_len = s.blk.tx_len ∧ u.blk.tx_sent = s.blk.tx_sent ∧ u.blk.tx_done = s.blk.tx_done ∧
      sameBytes s u ∧ (k = 1 → u.blk.tx_result = .busy)) ∧
    ∃ t, run (appends.length + 2) s = .next t ∧ t.inputs = rest ∧ t.blk.err = true ∧ t.blk.sess_open = false ∧
      t.blk.tx_result = (if be then .ok else .busy)

/-- Only the first error of a session is kept: in a failed session any appends change nothing, and the session's
end by TX_COMMIT or TX_ABORT reports that first error (OK if best-effort), latches ERROR and starts no
transfer (R80, R85, R86). -/
def Obligations.FailedSessionKeepsFirstError : Prop :=
  ∀ (s : State) (appends : List Instr) (last : Instr) (rest : List Event), failedSession s.blk = true →
    (∀ i ∈ appends, i.wf = true ∧ appendClass i = true) → (last = .txCommit ∨ last = .txAbort) →
    s.inputs = txCommands (appends ++ [last]) ++ rest →
    ∃ t, run (appends.length + 1) s = .next t ∧
      t = { s with inputs := rest, blk := { s.blk with
        sess_open := false, sess_be := false, sess_err := .ok, err := true,
        tx_result := if s.blk.sess_be then .ok else s.blk.sess_err,
        tx_rvalue := BitVec.ofNat 32 s.blk.tx_len } }

/-- Only TX_COMMIT of a good session takes the TXM from Idle to InFlight; only TX_COMPLETE with DONE set, or the
system reset, takes it back; and while it stays InFlight no step changes `tx_buf` or `tx_len` (R21, R55, R79,
R92). -/
def Obligations.TransferStateTransitions : Prop :=
  ∀ (s t : State) (e : Event) (rest : List Event), TransferInvariant s.blk → s.inputs = e :: rest →
    step s = .next t →
    (s.blk.tx_state = .idle → t.blk.tx_state = .inFlight → isCommand e .txCommit ∧ goodSession s.blk = true) ∧
    (s.blk.tx_state = .inFlight → t.blk.tx_state = .idle →
      (isCommand e .txComplete ∧ s.blk.tx_done = true) ∨ e = .sysReset) ∧
    (s.blk.tx_state = .inFlight → t.blk.tx_state = .inFlight →
      t.blk.tx_len = s.blk.tx_len ∧ ∀ a, t.byteAt .txBuf a = s.byteAt .txBuf a)

/-- R24: `err` is set by the end of a session that failed or was aborted and by a DMA transfer error, and by
nothing else; it is cleared by TX_CLRERR and the system reset, and by nothing else; it drives ERR_IND, and is 0
after reset. -/
def Obligations.ErrorLatchedUntilCleared : Prop :=
  (∀ (s t : State) (e : Event) (rest : List Event), s.inputs = e :: rest → step s = .next t →
    ((isCommand e .txCommit ∧ failedSession s.blk = true) ∨ (isCommand e .txAbort ∧ s.blk.sess_open = true) ∨
      (e = .txError ∧ s.blk.tx_state = .inFlight ∧ s.blk.tx_done = false ∧ s.blk.tx_stalled = false) →
      t.blk.err = true) ∧
    (isCommand e .txClrerr ∨ e = .sysReset → t.blk.err = false) ∧
    (s.blk.err = false → t.blk.err = true →
      (isCommand e .txCommit ∧ failedSession s.blk = true) ∨ (isCommand e .txAbort ∧ s.blk.sess_open = true) ∨
      (e = .txError ∧ s.blk.tx_state = .inFlight ∧ s.blk.tx_done = false ∧ s.blk.tx_stalled = false)) ∧
    (s.blk.err = true → t.blk.err = false → isCommand e .txClrerr ∨ e = .sysReset)) ∧
  (∀ s : State, errInd s.blk = s.blk.err) ∧ State.reset.blk.err = false

/-- A stalled transfer stays InFlight, never completes and sends nothing more, over any run without a system
reset, and TX_COMPLETE answers BUSY all along (R136; U9). -/
def Obligations.StalledTransferStaysStuck : Prop :=
  ∀ (k : Nat) (s t : State), TransferInvariant s.blk → s.blk.tx_state = .inFlight → s.blk.tx_stalled = true →
    Event.sysReset ∉ s.inputs.take k → run k s = .next t →
    t.blk.tx_state = .inFlight ∧ t.blk.tx_stalled = true ∧ t.blk.tx_done = false ∧
    t.blk.line_out = s.blk.line_out ∧
    ∃ u, exec .txComplete t = .next u ∧ u.blk.tx_result = .busy

/-- A transfer in flight that gets as many send turns as it has bytes left, in any order with any other steps
but a transfer error and a system reset, has put exactly those bytes on the line, in index order; whatever
follows on the line follows after them; and if it had bytes left, DONE has been 1 after one of those steps (R89). The
count of turns stands as a premise in place of R91's fairness, which a finite run cannot show: the model's choice
(log 8). Under fairness no count is needed: FairScheduleProgress. -/
def Obligations.TransferDeliveredUnderAnySchedule : Prop :=
  ∀ (k : Nat) (s t : State), TransferInvariant s.blk → s.blk.tx_state = .inFlight → s.blk.tx_done = false →
    s.blk.tx_stalled = false → Event.txError ∉ s.inputs.take k → Event.sysReset ∉ s.inputs.take k →
    s.blk.tx_len - s.blk.tx_sent ≤ (s.inputs.take k).count .txSend → run k s = .next t →
    (∃ later, t.blk.line_out =
      s.blk.line_out ++ s.bytesAt .txBuf s.blk.tx_sent (s.blk.tx_len - s.blk.tx_sent) ++ later) ∧
    (s.blk.tx_sent < s.blk.tx_len → ∃ j u, j ≤ k ∧ run j s = .next u ∧ u.blk.tx_done = true)

/-! ### The receive transfer reader -/

/-- R97: in every state RX_START answers a next state: when running SEQUENCE_ERROR and 0 and no other change, else
RUN 1, OK and 0 and nothing else changed. Its word on RX_CMD is 0x20000000. -/
def Obligations.RxStartResult : Prop :=
  ∀ s : State, hasWord .rxStart .rx 0x20000000 ∧ ∃ t, exec .rxStart s = .next t ∧
    (if s.blk.rx_run = true then rxReports s t .sequenceError 0
     else t = { s with blk := { s.blk with rx_run := true, rx_result := .ok, rx_rvalue := 0 } } ∧ sameBytes s t)

/-- R98: for every LEN n and every state RX_READ answers a next state: ILLEGAL_COMMAND and 0 and no other change if
n > RXOUT_CAP; else k = min(avail, n) bytes of the ring from rx_rd on, around its end, stand in RXOUT from offset 0,
rx_rd has moved by k around the ring, the result is OK and k, and nothing else changes, no other byte of RXOUT among
it. Its word on RX_CMD is 0x21000000 + n. -/
def Obligations.RxReadResult : Prop :=
  ∀ (n : Nat) (s : State), (n < 2 ^ 16 → hasWord (.rxRead n) .rx (0x21000000 + n)) ∧
    ∃ t, exec (.rxRead n) s = .next t ∧
    (if s.cfg.rxoutCap < n then rxReports s t .illegalCommand 0
     else ∃ k : Nat, k = min (((s.blk.rx_wr : Int) - s.blk.rx_rd) % s.cfg.rxCap).toNat n ∧
       t = { s with blk := { s.blk with
         rxout := t.blk.rxout, rx_rd := (s.blk.rx_rd + k) % s.cfg.rxCap,
         rx_result := .ok, rx_rvalue := BitVec.ofNat 32 k } } ∧
       (∀ i, i < k → t.byteAt .rxOut i = s.byteAt .rxRing ((s.blk.rx_rd + i) % s.cfg.rxCap)) ∧
       sameBytesBut .rxOut 0 k s t)

/-- R99: in every state RX_CLRTO answers a next state with TO 0, OK and 0, and nothing else changed. Its word on
RX_CMD is 0x22000000. -/
def Obligations.RxClrtoResult : Prop :=
  ∀ s : State, hasWord .rxClrto .rx 0x22000000 ∧ ∃ t, exec .rxClrto s = .next t ∧
    t = { s with blk := { s.blk with rx_to := false, rx_result := .ok, rx_rvalue := 0 } } ∧ sameBytes s t

/-- R100: in every state RX_CLRIRQ answers a next state with HT 0, TC 0, OK and 0, and nothing else changed; RX_IRQ
is deasserted. Its word on RX_CMD is 0x23000000. -/
def Obligations.RxClrirqResult : Prop :=
  ∀ s : State, hasWord .rxClrirq .rx 0x23000000 ∧ ∃ t, exec .rxClrirq s = .next t ∧
    t = { s with blk := { s.blk with rx_ht := false, rx_tc := false, rx_result := .ok, rx_rvalue := 0 } } ∧
    sameBytes s t ∧ rxIrq t.blk = false

/-- R101: at every byte b the Line offers the step answers a next state: not running, nothing changes but the event
taken; running, b stands in the ring at rx_wr and no other byte of any memory changes, rx_wr moves by one around the
ring, the timeout is armed, HT is set when rx_wr comes to half of RX_CAP and TC when it comes to 0, and nothing else
changes. -/
def Obligations.RxByteStepResult : Prop :=
  ∀ (b : Byte) (s : State) (rest : List Event), s.inputs = .rxByte b :: rest → ∃ t, step s = .next t ∧
    (if s.blk.rx_run = false then t = { s with inputs := rest }
     else
       t = { s with inputs := rest, blk := { s.blk with
         rx_ring := t.blk.rx_ring, rx_wr := (s.blk.rx_wr + 1) % s.cfg.rxCap, rx_armed := true,
         rx_ht := if (s.blk.rx_wr + 1) % s.cfg.rxCap = s.cfg.rxCap / 2 then true else s.blk.rx_ht,
         rx_tc := if (s.blk.rx_wr + 1) % s.cfg.rxCap = 0 then true else s.blk.rx_tc } } ∧
       t.byteAt .rxRing s.blk.rx_wr = b ∧ sameBytesBut .rxRing s.blk.rx_wr 1 s t)

/-- The RXTO timeout step: it sets TO and disarms where it was armed, and only a received byte arms it (R102). A
turn without the guard changes nothing, which is the model's choice (log 5). -/
def Obligations.RxTimeoutStepResult : Prop :=
  (∀ (s : State) (rest : List Event), s.inputs = .rxTimeout :: rest → ∃ t, step s = .next t ∧ sameBytes s t ∧
    (if s.blk.rx_armed = true then
      t = { s with inputs := rest, blk := { s.blk with rx_to := true, rx_armed := false } }
     else t = { s with inputs := rest })) ∧
  (∀ (s t : State) (e : Event) (rest : List Event), s.inputs = e :: rest → step s = .next t →
    s.blk.rx_armed = false → t.blk.rx_armed = true → s.blk.rx_run = true ∧ ∃ b, e = .rxByte b)

/-- R105: after a drain that emptied the ring, m bytes arrive, with any steps between them but RX_READ and the system
reset. The next drain sees m mod RX_CAP bytes, and they are the last m mod RX_CAP of the m received, in arrival
order. -/
def Obligations.DrainAfterArrivals : Prop :=
  ∀ (es : List Event) (n : Nat) (s t : State) (rest : List Event), s.cfg.wf = true → s.blk.rx_run = true →
    s.blk.rx_rd = s.blk.rx_wr → s.blk.rx_wr < s.cfg.rxCap → s.inputs = es ++ rest →
    Event.sysReset ∉ es → (∀ e ∈ es, ∀ m, ¬ isCommand e (.rxRead m)) → run es.length s = .next t →
    (offeredBytes es).length % s.cfg.rxCap ≤ n → n ≤ s.cfg.rxoutCap →
    t.avail = (offeredBytes es).length % s.cfg.rxCap ∧
    ∃ u, exec (.rxRead n) t = .next u ∧
      u.blk.rx_rvalue = BitVec.ofNat 32 ((offeredBytes es).length % s.cfg.rxCap) ∧
      u.bytesAt .rxOut 0 ((offeredBytes es).length % s.cfg.rxCap) =
        (offeredBytes es).drop ((offeredBytes es).length - (offeredBytes es).length % s.cfg.rxCap)

/-! ### Whole-machine rules -/

/-- R39: only what its table lists sets a status flag, and only what it lists, or the system reset, clears it, over
every step; after reset every flag is 0. -/
def Obligations.FlagTable : Prop :=
  (∀ (s t : State) (e : Event) (rest : List Event), TransferInvariant s.blk → s.inputs = e :: rest →
    step s = .next t →
    setOnlyBy busyFlag s.blk t.blk (isCommand e .txCommit ∧ goodSession s.blk = true) ∧
    clearedOnlyBy busyFlag s.blk t.blk ((isCommand e .txComplete ∧ s.blk.tx_done = true) ∨ e = .sysReset) ∧
    setOnlyBy Block.err s.blk t.blk ((isCommand e .txCommit ∧ failedSession s.blk = true) ∨
      (isCommand e .txAbort ∧ s.blk.sess_open = true) ∨ (e = .txError ∧ transferActive s.blk = true)) ∧
    clearedOnlyBy Block.err s.blk t.blk (isCommand e .txClrerr ∨ e = .sysReset) ∧
    setOnlyBy Block.sess_open s.blk t.blk (isCommand e .txOpen ∨ isCommand e .txOpenBe) ∧
    clearedOnlyBy Block.sess_open s.blk t.blk (isCommand e .txCommit ∨ isCommand e .txAbort ∨ e = .sysReset) ∧
    setOnlyBy sfailFlag s.blk t.blk
      (((isCommand e .txOpen ∨ isCommand e .txOpenBe) ∧ s.blk.tx_state = .inFlight) ∨
        ∃ i, appendClass i = true ∧ isCommand e i ∧ goodSession s.blk = true ∧
          s.cfg.txCap < s.blk.tx_len + appendSize i) ∧
    clearedOnlyBy sfailFlag s.blk t.blk (isCommand e .txCommit ∨ isCommand e .txAbort ∨ e = .sysReset) ∧
    setOnlyBy Block.sess_be s.blk t.blk (isCommand e .txOpenBe) ∧
    clearedOnlyBy Block.sess_be s.blk t.blk (isCommand e .txCommit ∨ isCommand e .txAbort ∨ e = .sysReset) ∧
    setOnlyBy Block.tx_done s.blk t.blk ((e = .txSend ∧ sendEnabled s.blk = true ∧ s.blk.tx_sent + 1 = s.blk.tx_len) ∨
      (isCommand e .txCommit ∧ goodSession s.blk = true ∧ s.blk.tx_len = 0) ∨
      (e = .txError ∧ transferActive s.blk = true ∧ s.cfg.txErrPolicy = .endAsComplete)) ∧
    clearedOnlyBy Block.tx_done s.blk t.blk
      ((isCommand e .txComplete ∧ s.blk.tx_state = .inFlight) ∨ e = .sysReset) ∧
    setOnlyBy Block.tx_xerr s.blk t.blk (e = .txError ∧ transferActive s.blk = true) ∧
    clearedOnlyBy Block.tx_xerr s.blk t.blk
      ((isCommand e .txComplete ∧ s.blk.tx_done = true) ∨ isCommand e .txCommit ∨ e = .sysReset) ∧
    setOnlyBy Block.rx_run s.blk t.blk (isCommand e .rxStart) ∧
    clearedOnlyBy Block.rx_run s.blk t.blk (e = .sysReset) ∧
    setOnlyBy Block.rx_to s.blk t.blk (e = .rxTimeout ∧ s.blk.rx_armed = true) ∧
    clearedOnlyBy Block.rx_to s.blk t.blk (isCommand e .rxClrto ∨ e = .sysReset) ∧
    setOnlyBy Block.rx_ht s.blk t.blk
      ((∃ b, e = .rxByte b) ∧ s.blk.rx_run = true ∧ (s.blk.rx_wr + 1) % s.cfg.rxCap = s.cfg.rxCap / 2) ∧
    clearedOnlyBy Block.rx_ht s.blk t.blk (isCommand e .rxClrirq ∨ e = .sysReset) ∧
    setOnlyBy Block.rx_tc s.blk t.blk
      ((∃ b, e = .rxByte b) ∧ s.blk.rx_run = true ∧ (s.blk.rx_wr + 1) % s.cfg.rxCap = 0) ∧
    clearedOnlyBy Block.rx_tc s.blk t.blk (isCommand e .rxClrirq ∨ e = .sysReset)) ∧
  (∀ f ∈ [busyFlag, Block.err, Block.sess_open, sfailFlag, Block.sess_be, Block.tx_done, Block.tx_xerr,
    Block.rx_run, Block.rx_to, Block.rx_ht, Block.rx_tc], f State.reset.blk = false)

/-- The interrupt outputs are levels that only their clearing command takes down (or the system reset): TX_IRQ a
TX_COMPLETE that reclaims, RX_IRQ a RX_CLRIRQ; and after that command they are down (R110, R33). -/
def Obligations.InterruptsClearedOnlyByTheirCommand : Prop :=
  (∀ (s t : State) (e : Event) (rest : List Event), TransferInvariant s.blk → s.inputs = e :: rest →
    step s = .next t →
    (txIrq s.blk = true → txIrq t.blk = false →
      (isCommand e .txComplete ∧ t.blk.tx_result = .ok ∧ t.blk.tx_state = .idle) ∨ e = .sysReset) ∧
    (rxIrq s.blk = true → rxIrq t.blk = false → isCommand e .rxClrirq ∨ e = .sysReset) ∧
    (isCommand e .rxClrirq → rxIrq t.blk = false) ∧
    (isCommand e .txComplete → t.blk.tx_result = .ok → txIrq t.blk = false))

/-- A step on one port's side leaves the other side as it was: the TX port's commands and TXDMA leave the
receive side, its result registers among it, and the RX port's commands, RXDMA and RXTO the transmit side
(R14, R128; D49). -/
def Obligations.PortsDoNotInterfere : Prop :=
  ∀ (s t : State),
    (∀ i : Instr, exec i s = .next t → onlyBlock s t ∧
      match i.port with
      | .tx => sameReceiveSide s.blk t.blk
      | .rx => sameTransmitSide s.blk t.blk) ∧
    (∀ e rest, (e = .txSend ∨ e = .txError) → s.inputs = e :: rest → step s = .next t →
      sameReceiveSide s.blk t.blk) ∧
    (∀ e rest, ((∃ b, e = .rxByte b) ∨ e = .rxTimeout) → s.inputs = e :: rest → step s = .next t →
      sameTransmitSide s.blk t.blk)

/-- What a port's command does to its own side depends on that side alone: two states that agree on it, on the
parameters and on the draw of unspecified bytes agree on it afterwards (R3, R78, R128; D49). -/
def Obligations.PortDependsOnItsOwnSide : Prop :=
  ∀ (i : Instr) (s s' t t' : State), s'.cfg = s.cfg → s'.draw = s.draw →
    exec i s = .next t → exec i s' = .next t' →
    match i.port with
    | .tx => sameTransmitSide s.blk s'.blk → sameTransmitSide t.blk t'.blk
    | .rx => sameReceiveSide s.blk s'.blk → sameReceiveSide t.blk t'.blk

/-- Which step can change which byte of which memory, the system reset aside: of `tx_buf` an append-class command those
it appends, from `tx_len` on and below TX_CAP, and TX_OPEN, TX_OPEN_BE and TX_COMPLETE any, for they clear it; of
`stage` a Host write those it covers below STAGE_CAP; of `rx_ring` a received byte the one at `rx_wr`; of `rxout`
RX_READ of n bytes those below n and RXOUT_CAP; so no command writes STAGE and
no Host write reaches `tx_buf`, `rx_ring` or RXOUT (R29, R37, R38, R42). -/
def Obligations.MemoriesWrittenOnlyBy : Prop :=
  ∀ (s t : State) (e : Event) (rest : List Event) (r : Region) (a : Nat), s.inputs = e :: rest →
    step s = .next t → t.byteAt r a ≠ s.byteAt r a →
    e = .sysReset ∨
    match r with
    | .txBuf => (∃ i, isCommand e i ∧ (i = .txOpen ∨ i = .txOpenBe ∨ i = .txComplete ∨
        (appendClass i = true ∧ s.blk.tx_len ≤ a ∧ a < s.blk.tx_len + appendSize i ∧ a < s.cfg.txCap)))
    | .stage => (∃ off w v, e = .hostWrite off w v ∧ off.toNat ≤ 0x1000 + a ∧ 0x1000 + a < off.toNat + accessBytes w ∧
        a < s.cfg.stageCap)
    | .rxRing => (∃ b, e = .rxByte b) ∧ a = s.blk.rx_wr ∧ s.blk.rx_run = true
    | .rxOut => (∃ n, isCommand e (.rxRead n) ∧ a < n ∧ a < s.cfg.rxoutCap)

/-- Every step keeps the invariants of R41 (items 1 to 5; item 6 holds by construction: State has one buffer),
from every state that has them; and with them it keeps that an unfinished transfer has bytes left to send. -/
def Obligations.TransferInvariantKept : Prop :=
  ∀ s t : State, TransferInvariant s.blk → step s = .next t →
    TransferInvariant t.blk ∧ (unfinishedHasBytes s.blk → unfinishedHasBytes t.blk)

/-- The invariants of R41 hold after reset, and no transfer is unfinished. -/
def Obligations.TransferInvariantAtReset : Prop :=
  TransferInvariant State.reset.blk ∧ unfinishedHasBytes State.reset.blk

/-- Every step keeps R13's ranges of lengths and indices, and the canonical form and size of the four memories,
from every state that has them. The form is the model's choice (log 12). -/
def Obligations.StorageInvariantKept : Prop :=
  ∀ s t : State, StorageInvariant s → step s = .next t → StorageInvariant t

/-- The ranges and forms hold after reset, and the reset machine's parameters satisfy R6's constraints, with R111's
order of the two interrupt priorities (RX_IRQ at or below TX_IRQ) in place of the table's "TX_IRQ above RX_IRQ":
DEDUCED (log 11). The parameters' values are open (log 1); the memories' form (log 12) and the larger number as the
higher priority (log 18) are the model's choices. -/
def Obligations.StorageInvariantAtReset : Prop := StorageInvariant State.reset

/-! ### Fairness -/

/-- Progress under fairness. R91: a transfer in flight, neither done nor stalled, eventually has DONE = 1, and then all
the bytes it had left are on the line, if TXDMA is fair and no transfer error and no reset comes. R103: an armed timeout
eventually sets TO, if RXTO is fair, the Line offers no more bytes from some point on and no reset comes. And fairness
forbids no finite run: every run that answers is the beginning of a fair order of steps. That fairness speaks of infinite
orders of steps beside `step` is the model's choice (log 8). -/
def Obligations.FairScheduleProgress : Prop :=
  (∀ (σ : Nat → State) (e : Schedule) (n : Nat), follows σ e → sendFair σ e → TransferInvariant (σ n).blk →
    unfinishedHasBytes (σ n).blk → (σ n).blk.tx_state = .inFlight → (σ n).blk.tx_done = false →
    (σ n).blk.tx_stalled = false → (∀ k, n ≤ k → e k ≠ .txError ∧ e k ≠ .sysReset) →
    ∃ k, n ≤ k ∧ (σ k).blk.tx_state = .inFlight ∧ (σ k).blk.tx_done = true ∧
      (σ k).blk.line_out = (σ n).blk.line_out ++
        (σ n).bytesAt .txBuf (σ n).blk.tx_sent ((σ n).blk.tx_len - (σ n).blk.tx_sent)) ∧
  (∀ (σ : Nat → State) (e : Schedule) (n : Nat), follows σ e → timeoutFair σ e → (σ n).blk.rx_armed = true →
    (∃ m, ∀ k, m ≤ k → ∀ b, e k ≠ .rxByte b) → (∀ k, n ≤ k → e k ≠ .sysReset) →
    ∃ k, n ≤ k ∧ (σ k).blk.rx_to = true) ∧
  (∀ (s t : State) (es : List Event), run es.length { s with inputs := es } = .next t →
    ∃ (σ : Nat → State) (e : Schedule), σ 0 = s ∧ follows σ e ∧ fair σ e ∧
      ∀ (k : Nat) (h : k < es.length), e k = es[k])
end

