-- ==== Sys2Proof/Laws/Operands.lean ====
section
/-! SUPPORT. The byte orders of 00_scope.md R9: lengths, the k-th byte, and a number from its bytes. -/

namespace Sys2Proof.Machine

@[simp] theorem length_beBytes (n v : Nat) : (beBytes n v).length = n := by simp [beBytes]

@[simp] theorem length_leBytes (n v : Nat) : (leBytes n v).length = n := by simp [leBytes]

/-- The k-th byte of `BE_n(v)`. -/
theorem getElem_beBytes (n v k : Nat) (h : k < (beBytes n v).length) :
    (beBytes n v)[k] = BitVec.ofNat 8 (v / 2 ^ (8 * (n - 1 - k))) := by simp [beBytes]

/-- The k-th byte of `LE_n(v)`. -/
theorem getElem_leBytes (n v k : Nat) (h : k < (leBytes n v).length) :
    (leBytes n v)[k] = BitVec.ofNat 8 (v / 2 ^ (8 * k)) := by
  have hk : k < n := by simpa using h
  simp [leBytes, beBytes, show n - 1 - (n - 1 - k) = k by omega]

theorem unBe_append (xs : List Byte) (b : Byte) : unBe (xs ++ [b]) = unBe xs * 256 + b.toNat := by
  simp [unBe]

/-- A big-endian number is below 2^(8n). -/
theorem unBe_lt (bs : List Byte) : unBe bs < 256 ^ bs.length := by
  induction bs using List.reverseRecOn with
  | nil => simp [unBe]
  | append_singleton xs b ih =>
    rw [unBe_append, List.length_append, List.length_singleton, Nat.pow_succ]
    have := b.isLt
    omega

/-- Sequences of one length with the same number are the same sequence. -/
theorem unBe_inj (xs ys : List Byte) (hl : xs.length = ys.length) (h : unBe xs = unBe ys) : xs = ys := by
  induction xs using List.reverseRecOn generalizing ys with
  | nil => exact (List.length_eq_zero_iff.mp hl.symm).symm
  | append_singleton xs b ih =>
    rcases List.eq_nil_or_concat ys with rfl | ⟨ys', b', rfl⟩
    · simp at hl
    · rw [unBe_append, List.concat_eq_append, unBe_append] at h
      have hb := b.isLt
      have hb' := b'.isLt
      have hq : unBe xs = unBe ys' := by omega
      have hr : b = b' := BitVec.eq_of_toNat_eq (by omega)
      rw [ih ys' (by simpa using hl) hq, hr, List.concat_eq_append]

/-- `unBE_n(BE_n(v)) = v mod 2^(8n)` (R9). -/
theorem unBe_beBytes (n v : Nat) : unBe (beBytes n v) = v % 2 ^ (8 * n) := by
  induction n generalizing v with
  | zero => simp [beBytes, unBe, Nat.mod_one]
  | succ n ih =>
    have hsplit : beBytes (n + 1) v = beBytes n (v / 256) ++ [BitVec.ofNat 8 v] := by
      apply List.ext_getElem
      · simp
      · intro k h1 h2
        have hk : k < n + 1 := by simpa using h1
        rw [getElem_beBytes]
        by_cases hkn : k < n
        · rw [List.getElem_append_left (by simpa using hkn), getElem_beBytes, Nat.div_div_eq_div_mul]
          congr 2
          rw [show n + 1 - 1 - k = (n - 1 - k) + 1 by omega, Nat.mul_add, Nat.pow_add, Nat.mul_comm]
        · have : k = n := by omega
          subst this
          simp
    rw [hsplit, unBe_append, ih, BitVec.toNat_ofNat]
    rw [show 8 * (n + 1) = 8 + 8 * n by omega, Nat.pow_add, Nat.mod_mul, show 2 ^ 8 = 256 from rfl]
    omega

end Sys2Proof.Machine
end

