-- ==== Sys2Proof/Laws/Memory.lean ====
section
/-! SUPPORT. The laws of the byte memories: a read after a write, a write leaves every other address alone, and
every operation keeps the canonical form and the size. -/

namespace Sys2Proof.Machine

/-! ### Reading after one write -/

theorem Memory.lookup_insert_self (m : Memory) (a : Nat) (b : Byte) :
    Memory.lookup (Memory.insert m a b) a = some b := by
  induction m with
  | nil => simp [Memory.insert, Memory.lookup]
  | cons c m ih =>
    unfold Memory.insert
    split
    · simp [Memory.lookup]
    · split
      · simp [Memory.lookup]
      · rename_i _ hne
        simp [Memory.lookup, ih, Ne.symm hne]

theorem Memory.lookup_insert_ne (m : Memory) {a a' : Nat} (b : Byte) (h : a' ≠ a) :
    Memory.lookup (Memory.insert m a b) a' = Memory.lookup m a' := by
  induction m with
  | nil => simp [Memory.insert, Memory.lookup, Ne.symm h]
  | cons c m ih =>
    unfold Memory.insert
    split
    · simp [Memory.lookup, Ne.symm h]
    · split
      · rename_i _ heq
        simp [Memory.lookup, ← heq, Ne.symm h]
      · simp [Memory.lookup, ih]

theorem Memory.lookup_erase_self (m : Memory) (a : Nat) : Memory.lookup (Memory.erase m a) a = none := by
  induction m with
  | nil => rfl
  | cons c m ih =>
    unfold Memory.erase
    split
    · exact ih
    · rename_i hne
      simp [Memory.lookup, ih, hne]

theorem Memory.lookup_erase_ne (m : Memory) {a a' : Nat} (h : a' ≠ a) :
    Memory.lookup (Memory.erase m a) a' = Memory.lookup m a' := by
  induction m with
  | nil => rfl
  | cons c m ih =>
    unfold Memory.erase
    split
    · rename_i heq
      simp [Memory.lookup, heq, Ne.symm h, ih]
    · simp [Memory.lookup, ih]

/-- Reading the address just written gives the byte written. -/
theorem Memory.read_write_self (r : Region) (m : Memory) (a : Nat) (b : Byte) :
    Memory.read r (Memory.write r m a b) a = some b := by
  unfold Memory.write
  split
  · rename_i h
    simp [Memory.read, Memory.lookup_erase_self, h]
  · simp [Memory.read, Memory.lookup_insert_self]

/-- A write leaves every other address alone. -/
theorem Memory.read_write_ne (r : Region) (m : Memory) {a a' : Nat} (b : Byte) (h : a' ≠ a) :
    Memory.read r (Memory.write r m a b) a' = Memory.read r m a' := by
  unfold Memory.write
  split
  · simp [Memory.read, Memory.lookup_erase_ne m h]
  · simp [Memory.read, Memory.lookup_insert_ne m b h]

/-! ### Reading after several writes -/

/-- Bytes written at rising addresses leave every address outside them alone. -/
theorem Memory.read_writeBytes_outside (r : Region) (bs : List Byte) (m : Memory) {lo a : Nat}
    (h : a < lo ∨ lo + bs.length ≤ a) : Memory.read r (Memory.writeBytes r m lo bs) a = Memory.read r m a := by
  induction bs generalizing m lo with
  | nil => rfl
  | cons b bs ih =>
    simp only [List.length_cons] at h
    rw [Memory.writeBytes, ih (Memory.write r m lo b) (by omega), Memory.read_write_ne r m b (by omega)]

/-- Bytes written at rising addresses are read back in order. -/
theorem Memory.read_writeBytes_inside (r : Region) (bs : List Byte) (m : Memory) (lo k : Nat)
    (h : k < bs.length) : Memory.read r (Memory.writeBytes r m lo bs) (lo + k) = some bs[k] := by
  induction bs generalizing m lo k with
  | nil => simp at h
  | cons b bs ih =>
    rw [Memory.writeBytes]
    cases k with
    | zero =>
      rw [Memory.read_writeBytes_outside r bs _ (by omega)]
      simpa using Memory.read_write_self r m lo b
    | succ k =>
      have := ih (Memory.write r m lo b) (lo + 1) k (by simpa using h)
      rw [show lo + (k + 1) = lo + 1 + k by omega, this]
      simp

/-! ### The canonical form and the size are kept -/

theorem Memory.risingFrom_mono {lo lo' : Nat} (m : Memory) (h : lo' ≤ lo) :
    Memory.risingFrom lo m = true → Memory.risingFrom lo' m = true := by
  cases m with
  | nil => simp [Memory.risingFrom]
  | cons c m =>
    simp only [Memory.risingFrom, Bool.and_eq_true, decide_eq_true_eq]
    exact fun hm => ⟨by omega, hm.2⟩

theorem Memory.risingFrom_insert {lo : Nat} (m : Memory) {a : Nat} (b : Byte) (ha : lo ≤ a) :
    Memory.risingFrom lo m = true → Memory.risingFrom lo (Memory.insert m a b) = true := by
  induction m generalizing lo with
  | nil => simpa [Memory.insert, Memory.risingFrom] using ha
  | cons c m ih =>
    simp only [Memory.risingFrom, Bool.and_eq_true, decide_eq_true_eq]
    intro hm
    unfold Memory.insert
    split
    · rename_i hlt
      simp [Memory.risingFrom, ha, hm.2, Nat.succ_le_of_lt hlt]
    · split
      · rename_i _ heq
        subst heq
        simpa [Memory.risingFrom, ha] using hm.2
      · rename_i hnlt hne
        simp only [Memory.risingFrom, Bool.and_eq_true, decide_eq_true_eq]
        exact ⟨hm.1, ih (by omega) hm.2⟩

theorem Memory.risingFrom_erase {lo : Nat} (m : Memory) (a : Nat) :
    Memory.risingFrom lo m = true → Memory.risingFrom lo (Memory.erase m a) = true := by
  induction m generalizing lo with
  | nil => exact id
  | cons c m ih =>
    simp only [Memory.risingFrom, Bool.and_eq_true, decide_eq_true_eq]
    intro hm
    unfold Memory.erase
    split
    · exact ih (Memory.risingFrom_mono m (by omega) hm.2)
    · simp only [Memory.risingFrom, Bool.and_eq_true, decide_eq_true_eq]
      exact ⟨hm.1, ih hm.2⟩

theorem Memory.all_insert (q : Host.Cell → Bool) (m : Memory) {a : Nat} {b : Byte} (hq : q (a, b) = true) :
    m.all q = true → (Memory.insert m a b).all q = true := by
  induction m with
  | nil => simpa [Memory.insert] using hq
  | cons c m ih =>
    simp only [List.all_cons, Bool.and_eq_true]
    intro hm
    unfold Memory.insert
    split
    · simp [hq, hm.1, hm.2]
    · split
      · simp [hq, hm.2]
      · simp [hm.1, ih hm.2]

theorem Memory.all_erase (q : Host.Cell → Bool) (m : Memory) (a : Nat) :
    m.all q = true → (Memory.erase m a).all q = true := by
  induction m with
  | nil => exact id
  | cons c m ih =>
    simp only [List.all_cons, Bool.and_eq_true]
    intro hm
    unfold Memory.erase
    split
    · exact ih hm.2
    · simp [hm.1, ih hm.2]

/-- A write keeps the canonical form. -/
theorem Memory.wf_write (r : Region) (m : Memory) (a : Nat) (b : Byte) :
    Memory.wf r m = true → Memory.wf r (Memory.write r m a b) = true := by
  simp only [Memory.wf, Bool.and_eq_true]
  intro hm
  unfold Memory.write
  split
  · exact ⟨Memory.risingFrom_erase m a hm.1, Memory.all_erase _ m a hm.2⟩
  · rename_i hne
    exact ⟨Memory.risingFrom_insert m b (Nat.zero_le a) hm.1,
      Memory.all_insert _ m (by simpa using hne) hm.2⟩

/-- A write below the capacity keeps the size. -/
theorem Memory.within_write (r : Region) {cap : Nat} (m : Memory) {a : Nat} (b : Byte) (ha : a < cap) :
    Memory.within cap m = true → Memory.within cap (Memory.write r m a b) = true := by
  unfold Memory.within Memory.write
  intro hm
  split
  · exact Memory.all_erase _ m a hm
  · exact Memory.all_insert _ m (by simpa using ha) hm

/-- Writing several bytes keeps the canonical form. -/
theorem Memory.wf_writeBytes (r : Region) (bs : List Byte) (m : Memory) (lo : Nat) :
    Memory.wf r m = true → Memory.wf r (Memory.writeBytes r m lo bs) = true := by
  induction bs generalizing m lo with
  | nil => exact id
  | cons b bs ih => exact fun hm => ih _ _ (Memory.wf_write r m lo b hm)

/-- Writing several bytes below the capacity keeps the size. -/
theorem Memory.within_writeBytes (r : Region) {cap : Nat} (bs : List Byte) (m : Memory) {lo : Nat}
    (h : lo + bs.length ≤ cap) :
    Memory.within cap m = true → Memory.within cap (Memory.writeBytes r m lo bs) = true := by
  induction bs generalizing m lo with
  | nil => exact id
  | cons b bs ih =>
    simp only [List.length_cons] at h
    exact fun hm => ih _ (by omega) (Memory.within_write r m b (by omega) hm)

end Sys2Proof.Machine
end

