-- ==== Sys2Proof/Laws/State.lean ====
section
/-! SUPPORT. One lemma per field of State for each named update, true by rfl: the block after the update is given
once, as a record, and simp reads its components off it. Then the bytes of the four memories after an update. -/

namespace Sys2Proof.Machine

@[simp] theorem State.finishTx_blk (s : State) (c : ResultCode) (v : Word) : (s.finishTx c v).blk =
    { s.blk with tx_result := c, tx_rvalue := v } := rfl
@[simp] theorem State.finishTx_cfg (s : State) (c : ResultCode) (v : Word) : (s.finishTx c v).cfg = s.cfg := rfl
@[simp] theorem State.finishTx_inputs (s : State) (c : ResultCode) (v : Word) : (s.finishTx c v).inputs = s.inputs := rfl
@[simp] theorem State.finishTx_rdata (s : State) (c : ResultCode) (v : Word) : (s.finishTx c v).rdata = s.rdata := rfl
@[simp] theorem State.finishTx_draw (s : State) (c : ResultCode) (v : Word) : (s.finishTx c v).draw = s.draw := rfl

@[simp] theorem State.finishRx_blk (s : State) (c : ResultCode) (v : Word) : (s.finishRx c v).blk =
    { s.blk with rx_result := c, rx_rvalue := v } := rfl
@[simp] theorem State.finishRx_cfg (s : State) (c : ResultCode) (v : Word) : (s.finishRx c v).cfg = s.cfg := rfl
@[simp] theorem State.finishRx_inputs (s : State) (c : ResultCode) (v : Word) : (s.finishRx c v).inputs = s.inputs := rfl
@[simp] theorem State.finishRx_rdata (s : State) (c : ResultCode) (v : Word) : (s.finishRx c v).rdata = s.rdata := rfl
@[simp] theorem State.finishRx_draw (s : State) (c : ResultCode) (v : Word) : (s.finishRx c v).draw = s.draw := rfl

@[simp] theorem State.finishTxLen_blk (s : State) (c : ResultCode) : (s.finishTxLen c).blk =
    { s.blk with tx_result := c, tx_rvalue := BitVec.ofNat 32 s.blk.tx_len } := rfl
@[simp] theorem State.finishTxLen_cfg (s : State) (c : ResultCode) : (s.finishTxLen c).cfg = s.cfg := rfl
@[simp] theorem State.finishTxLen_inputs (s : State) (c : ResultCode) : (s.finishTxLen c).inputs = s.inputs := rfl
@[simp] theorem State.finishTxLen_rdata (s : State) (c : ResultCode) : (s.finishTxLen c).rdata = s.rdata := rfl
@[simp] theorem State.finishTxLen_draw (s : State) (c : ResultCode) : (s.finishTxLen c).draw = s.draw := rfl

@[simp] theorem State.clearTxBuf_blk (s : State) : (s.clearTxBuf).blk =
    { s.blk with tx_buf := [], tx_len := 0 } := rfl
@[simp] theorem State.clearTxBuf_cfg (s : State) : (s.clearTxBuf).cfg = s.cfg := rfl
@[simp] theorem State.clearTxBuf_inputs (s : State) : (s.clearTxBuf).inputs = s.inputs := rfl
@[simp] theorem State.clearTxBuf_rdata (s : State) : (s.clearTxBuf).rdata = s.rdata := rfl
@[simp] theorem State.clearTxBuf_draw (s : State) : (s.clearTxBuf).draw = s.draw := rfl

@[simp] theorem State.endSession_blk (s : State) : (s.endSession).blk =
    { s.blk with sess_open := false, sess_be := false, sess_err := .ok } := rfl
@[simp] theorem State.endSession_cfg (s : State) : (s.endSession).cfg = s.cfg := rfl
@[simp] theorem State.endSession_inputs (s : State) : (s.endSession).inputs = s.inputs := rfl
@[simp] theorem State.endSession_rdata (s : State) : (s.endSession).rdata = s.rdata := rfl
@[simp] theorem State.endSession_draw (s : State) : (s.endSession).draw = s.draw := rfl

@[simp] theorem State.startTransfer_blk (s : State) : (s.startTransfer).blk =
    { s.blk with
      tx_state := .inFlight, tx_sent := 0, tx_xerr := false, tx_stalled := false,
      tx_done := decide (s.blk.tx_len = 0) } := rfl
@[simp] theorem State.startTransfer_cfg (s : State) : (s.startTransfer).cfg = s.cfg := rfl
@[simp] theorem State.startTransfer_inputs (s : State) : (s.startTransfer).inputs = s.inputs := rfl
@[simp] theorem State.startTransfer_rdata (s : State) : (s.startTransfer).rdata = s.rdata := rfl
@[simp] theorem State.startTransfer_draw (s : State) : (s.startTransfer).draw = s.draw := rfl

@[simp] theorem State.reclaim_blk (s : State) : (s.reclaim).blk =
    { s.blk with
      tx_buf := [], tx_len := 0, tx_sent := 0, tx_done := false, tx_xerr := false, tx_stalled := false,
      tx_state := .idle } := rfl
@[simp] theorem State.reclaim_cfg (s : State) : (s.reclaim).cfg = s.cfg := rfl
@[simp] theorem State.reclaim_inputs (s : State) : (s.reclaim).inputs = s.inputs := rfl
@[simp] theorem State.reclaim_rdata (s : State) : (s.reclaim).rdata = s.rdata := rfl
@[simp] theorem State.reclaim_draw (s : State) : (s.reclaim).draw = s.draw := rfl

@[simp] theorem State.systemReset_blk (s : State) : (s.systemReset).blk =
    Block.reset := rfl
@[simp] theorem State.systemReset_cfg (s : State) : (s.systemReset).cfg = s.cfg := rfl
@[simp] theorem State.systemReset_inputs (s : State) : (s.systemReset).inputs = s.inputs := rfl
@[simp] theorem State.systemReset_rdata (s : State) : (s.systemReset).rdata = s.rdata := rfl
@[simp] theorem State.systemReset_draw (s : State) : (s.systemReset).draw = s.draw + 1 := rfl

/-! ### Writing bytes of a region -/

@[simp] theorem State.putBytes_txBuf_blk (s : State) (a : Nat) (bs : List Byte) :
    (s.putBytes .txBuf a bs).blk = { s.blk with tx_buf := Memory.writeBytes .txBuf s.blk.tx_buf a bs } := rfl
@[simp] theorem State.putBytes_stage_blk (s : State) (a : Nat) (bs : List Byte) :
    (s.putBytes .stage a bs).blk = { s.blk with stage := Memory.writeBytes .stage s.blk.stage a bs } := rfl
@[simp] theorem State.putBytes_rxRing_blk (s : State) (a : Nat) (bs : List Byte) :
    (s.putBytes .rxRing a bs).blk = { s.blk with rx_ring := Memory.writeBytes .rxRing s.blk.rx_ring a bs } := rfl
@[simp] theorem State.putBytes_rxOut_blk (s : State) (a : Nat) (bs : List Byte) :
    (s.putBytes .rxOut a bs).blk = { s.blk with rxout := Memory.writeBytes .rxOut s.blk.rxout a bs } := rfl

@[simp] theorem State.putBytes_cfg (s : State) (r : Region) (a : Nat) (bs : List Byte) :
    (s.putBytes r a bs).cfg = s.cfg := by cases r <;> rfl
@[simp] theorem State.putBytes_inputs (s : State) (r : Region) (a : Nat) (bs : List Byte) :
    (s.putBytes r a bs).inputs = s.inputs := by cases r <;> rfl
@[simp] theorem State.putBytes_rdata (s : State) (r : Region) (a : Nat) (bs : List Byte) :
    (s.putBytes r a bs).rdata = s.rdata := by cases r <;> rfl
@[simp] theorem State.putBytes_draw (s : State) (r : Region) (a : Nat) (bs : List Byte) :
    (s.putBytes r a bs).draw = s.draw := by cases r <;> rfl

/-- The memory written holds the bytes. -/
theorem State.putBytes_mem_self (s : State) (r : Region) (a : Nat) (bs : List Byte) :
    (s.putBytes r a bs).mem r = Memory.writeBytes r (s.mem r) a bs := by cases r <;> rfl

/-- The other memories are untouched. -/
theorem State.putBytes_mem_ne (s : State) {r r' : Region} (a : Nat) (bs : List Byte) (h : r' ≠ r) :
    (s.putBytes r a bs).mem r' = s.mem r' := by
  cases r <;> cases r' <;> first | rfl | exact absurd rfl h

/-! ### Reading bytes -/

/-- A byte depends on its memory and the draw alone. -/
theorem State.byteAt_congr {s t : State} {r : Region} (hm : t.mem r = s.mem r) (hd : t.draw = s.draw) (a : Nat) :
    t.byteAt r a = s.byteAt r a := by simp [State.byteAt, hm, hd]

/-- Bytes outside the ones written read as before. -/
theorem State.byteAt_putBytes_outside (s : State) (r r' : Region) (lo : Nat) (bs : List Byte) {a : Nat}
    (h : r' = r → a < lo ∨ lo + bs.length ≤ a) : (s.putBytes r lo bs).byteAt r' a = s.byteAt r' a := by
  by_cases hr : r' = r
  · subst hr
    simp [State.byteAt, State.putBytes_mem_self, Memory.read_writeBytes_outside r' bs _ (h rfl)]
  · exact State.byteAt_congr (State.putBytes_mem_ne s lo bs hr) (by simp) a

/-- The bytes written read back in order. -/
theorem State.byteAt_putBytes_inside (s : State) (r : Region) (lo : Nat) (bs : List Byte) (k : Nat)
    (h : k < bs.length) : (s.putBytes r lo bs).byteAt r (lo + k) = bs[k] := by
  simp [State.byteAt, State.putBytes_mem_self, Memory.read_writeBytes_inside r bs _ lo k h]

/-- The bytes written read back as a sequence. -/
theorem State.bytesAt_putBytes (s : State) (r : Region) (lo : Nat) (bs : List Byte) :
    (s.putBytes r lo bs).bytesAt r lo bs.length = bs := by
  apply List.ext_getElem
  · simp [State.bytesAt]
  · intro k h1 h2
    simpa [State.bytesAt] using State.byteAt_putBytes_inside s r lo bs k h2

@[simp] theorem State.length_bytesAt (s : State) (r : Region) (a n : Nat) : (s.bytesAt r a n).length = n := by
  simp [State.bytesAt]

@[simp] theorem State.getElem_bytesAt (s : State) (r : Region) (a n k : Nat) (h : k < (s.bytesAt r a n).length) :
    (s.bytesAt r a n)[k] = s.byteAt r (a + k) := by simp [State.bytesAt]

/-- Two states that agree on the bytes agree on the sequence. -/
theorem State.bytesAt_congr {s t : State} {r : Region} {a n : Nat}
    (h : ∀ k, k < n → t.byteAt r (a + k) = s.byteAt r (a + k)) : t.bytesAt r a n = s.bytesAt r a n := by
  apply List.ext_getElem
  · simp
  · intro k h1 h2
    simpa using h k (by simpa using h2)

/-- A cleared transmit buffer reads 0 everywhere (R22). -/
@[simp] theorem State.byteAt_txBuf_nil {s : State} (h : s.blk.tx_buf = []) (a : Nat) : s.byteAt .txBuf a = 0 := by
  simp [State.byteAt, State.mem, h, Memory.read, Memory.lookup, atReset]

@[simp] theorem State.length_waiting (s : State) (k : Nat) : (s.waiting k).length = k := by
  simp [State.waiting]

end Sys2Proof.Machine
end

