-- ==== Sys2Proof/Laws/Ops.lean ====
section
/-! SUPPORT. For each shared operation, one lemma that says once everything it can do: the cases of the rule, each
with its guard and the state it leaves. -/

namespace Sys2Proof.Machine

/-- `finish` on a port (R10). -/
theorem State.finish_cases (s : State) (p : Port) (c : ResultCode) (v : Word) :
    (p = .tx ∧ s.finish p c v = s.finishTx c v) ∨ (p = .rx ∧ s.finish p c v = s.finishRx c v) := by
  cases p
  · exact .inl ⟨rfl, rfl⟩
  · exact .inr ⟨rfl, rfl⟩

/-- Opening a session (R81, R82). -/
theorem State.openSession_cases (s : State) (be : Bool) :
    (s.blk.sess_open = true ∧ s.openSession be = s.finishTx .sequenceError 0) ∨
    (s.blk.sess_open = false ∧ s.blk.tx_state = .inFlight ∧
      s.openSession be = { s with blk := { s.blk with
        sess_open := true, sess_be := be, sess_err := .busy,
        tx_result := .busy, tx_rvalue := BitVec.ofNat 32 s.blk.tx_len } }) ∨
    (s.blk.sess_open = false ∧ s.blk.tx_state = .idle ∧
      s.openSession be = { s with blk := { s.blk with
        sess_open := true, sess_be := be, sess_err := .ok, tx_buf := [], tx_len := 0,
        tx_result := .ok, tx_rvalue := 0 } }) := by
  cases ho : s.blk.sess_open with
  | true => exact .inl ⟨rfl, by simp [State.openSession, ho]⟩
  | false =>
    cases hs : s.blk.tx_state with
    | inFlight => exact .inr (.inl ⟨rfl, rfl, by simp [State.openSession, ho, hs, State.finishTxLen, State.finishTx]⟩)
    | idle => exact .inr (.inr ⟨rfl, rfl, by simp [State.openSession, ho, hs, State.finishTx, State.clearTxBuf]⟩)

/-- One append (R80): no session, a failed session, no room, or appended whole. -/
theorem State.sessionAppend_cases (s : State) (bytes : List Byte) (fault : ResultCode) :
    (s.blk.sess_open = false ∧ s.sessionAppend bytes fault = s.finishTx .sequenceError 0) ∨
    (s.blk.sess_open = true ∧ s.blk.sess_err ≠ .ok ∧ s.sessionAppend bytes fault = s.finishTxLen s.blk.sess_err) ∨
    (s.blk.sess_open = true ∧ s.blk.sess_err = .ok ∧ s.cfg.txCap < s.blk.tx_len + bytes.length ∧
      s.sessionAppend bytes fault = { s with blk := { s.blk with
        sess_err := fault, tx_result := fault, tx_rvalue := BitVec.ofNat 32 s.blk.tx_len } }) ∨
    (s.blk.sess_open = true ∧ s.blk.sess_err = .ok ∧ s.blk.tx_len + bytes.length ≤ s.cfg.txCap ∧
      s.sessionAppend bytes fault = { s with blk := { s.blk with
        tx_buf := Memory.writeBytes .txBuf s.blk.tx_buf s.blk.tx_len bytes,
        tx_len := s.blk.tx_len + bytes.length,
        tx_result := .ok, tx_rvalue := BitVec.ofNat 32 (s.blk.tx_len + bytes.length) } }) := by
  cases ho : s.blk.sess_open with
  | false => exact .inl ⟨rfl, by simp [State.sessionAppend, ho]⟩
  | true =>
    by_cases he : s.blk.sess_err = .ok
    · by_cases hc : s.cfg.txCap < s.blk.tx_len + bytes.length
      · exact .inr (.inr (.inl ⟨rfl, he, hc, by
          simp [State.sessionAppend, ho, he, hc, State.finishTxLen, State.finishTx]⟩))
      · exact .inr (.inr (.inr ⟨rfl, he, by omega, by
          simp [State.sessionAppend, ho, he, hc, State.finishTxLen, State.finishTx, State.putBytes]⟩))
    · exact .inr (.inl ⟨rfl, he, by simp [State.sessionAppend, ho, he]⟩)

/-- The end of a session without a transfer (R85, R86). -/
theorem State.failSession_eq (s : State) (e : ResultCode) :
    s.failSession e = { s with blk := { s.blk with
      sess_open := false, sess_be := false, sess_err := .ok, err := true,
      tx_result := if s.blk.sess_be then .ok else e, tx_rvalue := BitVec.ofNat 32 s.blk.tx_len } } := rfl

/-- The send step (R89). -/
theorem State.txSendStep_cases (s : State) :
    (s.blk.tx_state = .inFlight ∧ s.blk.tx_done = false ∧ s.blk.tx_stalled = false ∧ s.blk.tx_sent < s.blk.tx_len ∧
      s.txSendStep = { s with blk := { s.blk with
        line_out := s.blk.line_out ++ [s.byteAt .txBuf s.blk.tx_sent], tx_sent := s.blk.tx_sent + 1,
        tx_done := decide (s.blk.tx_sent + 1 = s.blk.tx_len) } }) ∨
    (¬ (s.blk.tx_state = .inFlight ∧ s.blk.tx_done = false ∧ s.blk.tx_stalled = false ∧
      s.blk.tx_sent < s.blk.tx_len) ∧ s.txSendStep = s) := by
  by_cases h : s.blk.tx_state = .inFlight ∧ s.blk.tx_done = false ∧ s.blk.tx_stalled = false ∧
      s.blk.tx_sent < s.blk.tx_len
  · exact .inl ⟨h.1, h.2.1, h.2.2.1, h.2.2.2, by
      simp [State.txSendStep, sendEnabled, transferActive, busyFlag, h.1, h.2.1, h.2.2.1, h.2.2.2]⟩
  · refine .inr ⟨h, ?_⟩
    unfold State.txSendStep
    split
    · rename_i hs
      simp [sendEnabled, transferActive, busyFlag] at hs
      exact absurd ⟨hs.1.1.1, hs.1.1.2, hs.1.2, hs.2⟩ h
    · rfl

/-- The transfer-error step (R90), under each `TX_ERR_POLICY`. -/
theorem State.txErrorStep_cases (s : State) :
    (s.blk.tx_state = .inFlight ∧ s.blk.tx_done = false ∧ s.blk.tx_stalled = false ∧ s.cfg.txErrPolicy = .stall ∧
      s.txErrorStep = { s with blk := { s.blk with tx_xerr := true, err := true, tx_stalled := true } }) ∨
    (s.blk.tx_state = .inFlight ∧ s.blk.tx_done = false ∧ s.blk.tx_stalled = false ∧
      s.cfg.txErrPolicy = .endAsComplete ∧
      s.txErrorStep = { s with blk := { s.blk with tx_xerr := true, err := true, tx_done := true } }) ∨
    (¬ (s.blk.tx_state = .inFlight ∧ s.blk.tx_done = false ∧ s.blk.tx_stalled = false) ∧ s.txErrorStep = s) := by
  by_cases h : s.blk.tx_state = .inFlight ∧ s.blk.tx_done = false ∧ s.blk.tx_stalled = false
  · cases hp : s.cfg.txErrPolicy with
    | stall => exact .inl ⟨h.1, h.2.1, h.2.2, rfl, by
        simp [State.txErrorStep, transferActive, busyFlag, h.1, h.2.1, h.2.2, hp]⟩
    | endAsComplete => exact .inr (.inl ⟨h.1, h.2.1, h.2.2, rfl, by
        simp [State.txErrorStep, transferActive, busyFlag, h.1, h.2.1, h.2.2, hp]⟩)
  · refine .inr (.inr ⟨h, ?_⟩)
    unfold State.txErrorStep
    split
    · rename_i hs
      simp [transferActive, busyFlag] at hs
      exact absurd ⟨hs.1.1, hs.1.2, hs.2⟩ h
    · rfl

/-- The byte step (R101). -/
theorem State.rxByteStep_cases (s : State) (b : Byte) :
    (s.blk.rx_run = false ∧ s.rxByteStep b = s) ∨
    (s.blk.rx_run = true ∧
      s.rxByteStep b = { s with blk := { s.blk with
        rx_ring := Memory.write .rxRing s.blk.rx_ring s.blk.rx_wr b,
        rx_wr := (s.blk.rx_wr + 1) % s.cfg.rxCap, rx_armed := true,
        rx_ht := s.blk.rx_ht || decide ((s.blk.rx_wr + 1) % s.cfg.rxCap = s.cfg.rxCap / 2),
        rx_tc := s.blk.rx_tc || decide ((s.blk.rx_wr + 1) % s.cfg.rxCap = 0) } }) := by
  cases hr : s.blk.rx_run with
  | false => exact .inl ⟨rfl, by simp [State.rxByteStep, hr]⟩
  | true => exact .inr ⟨rfl, by simp [State.rxByteStep, hr, State.putBytes, Memory.writeBytes]⟩

/-- The timeout step (R102). -/
theorem State.rxTimeoutStep_cases (s : State) :
    (s.blk.rx_armed = true ∧
      s.rxTimeoutStep = { s with blk := { s.blk with rx_to := true, rx_armed := false } }) ∨
    (s.blk.rx_armed = false ∧ s.rxTimeoutStep = s) := by
  cases ha : s.blk.rx_armed with
  | true => exact .inl ⟨rfl, by simp [State.rxTimeoutStep, ha]⟩
  | false => exact .inr ⟨rfl, by simp [State.rxTimeoutStep, ha]⟩

/-- The waiting bytes are fewer than the ring's places (R96). -/
theorem ringAvail_lt {cap wr rd : Nat} (h : 0 < cap) : ringAvail cap wr rd < cap := by
  unfold ringAvail
  have h0 := Int.emod_nonneg ((wr : Int) - rd) (b := (cap : Int)) (by omega)
  have h1 := Int.emod_lt_of_pos ((wr : Int) - rd) (b := (cap : Int)) (by omega)
  omega

/-- The number of waiting bytes, for indices in range, without the remainder (R31, R96). -/
theorem ringAvail_eq {cap wr rd : Nat} (hw : wr < cap) (hr : rd < cap) :
    ringAvail cap wr rd = if rd ≤ wr then wr - rd else wr + cap - rd := by
  unfold ringAvail
  split
  · rw [Int.emod_eq_of_lt (by omega) (by omega)]
    omega
  · rw [← Int.add_emod_right, Int.emod_eq_of_lt (by omega) (by omega)]
    omega

end Sys2Proof.Machine
end

