-- ==== Sys2Proof/Laws/Codec.lean ====
section
/-! SUPPORT. The CRC byte by byte and the length of a frame (40_codec.md R68, R70). -/

namespace Sys2Proof.Machine

@[simp] theorem length_frame (p : CrcParams) (s : List Byte) : (frame p s).length = s.length + 4 := by
  simp [frame]

/-- The register after two sequences: the second goes on from the first. -/
theorem crcRegister_append (p : CrcParams) (xs ys : List Byte) :
    crcRegister p (xs ++ ys) = ys.foldl (crcByte p) (crcRegister p xs) := by
  simp [crcRegister, List.foldl_append]

/-- `CRC32C([]) = 0` under the default parameters (R68). -/
theorem crc32_nil : crc32 .iscsi [] = 0 := by decide

/-- The frame of a payload is valid, whatever the CRC parameters (R70, R71). -/
theorem validFrame_frame (p : CrcParams) (s : List Byte) : validFrame p (frame p s) = true := by
  have hlt := (crc32 p s).isLt
  simp [validFrame, frame, unBe_beBytes, Nat.mod_eq_of_lt hlt]

end Sys2Proof.Machine
end

