-- ==== Sys2Proof/Laws/Decode.lean ====
section
/-! SUPPORT. Bit fields of words, and decoding row by row of the command map. -/

namespace Sys2Proof

/-- A field is below its width. -/
theorem bitField_lt (w : Word) (hi lo : Nat) : bitField w hi lo < 2 ^ (hi + 1 - lo) :=
  Nat.mod_lt _ (Nat.pow_pos (by decide))

/-- Fields of a word given as opcode and body: the opcode (R60). -/
theorem bitField_opc (opc body : Nat) (ho : opc < 2 ^ 8) (hb : body < 2 ^ 24) :
    bitField (BitVec.ofNat 32 (opc * 2 ^ 24 + body)) 31 24 = opc := by
  simp only [bitField, BitVec.toNat_ofNat]
  omega

/-- Fields of a word given as opcode and body: a field of the body. -/
theorem bitField_body (opc body hi lo : Nat) (ho : opc < 2 ^ 8) (hb : body < 2 ^ 24) (hh : hi < 24) (hl : lo ≤ hi) :
    bitField (BitVec.ofNat 32 (opc * 2 ^ 24 + body)) hi lo = body / 2 ^ lo % 2 ^ (hi + 1 - lo) := by
  simp only [bitField, BitVec.toNat_ofNat]
  have hlt : opc * 2 ^ 24 + body < 2 ^ 32 := by omega
  have hsplit : (2 : Nat) ^ 24 = 2 ^ lo * (2 ^ (hi + 1 - lo) * 2 ^ (23 - hi)) := by
    rw [← Nat.pow_add, ← Nat.pow_add]
    congr 1
    omega
  rw [Nat.mod_eq_of_lt hlt]
  rw [hsplit]
  rw [Nat.add_comm, ← Nat.mul_assoc, Nat.mul_comm opc, Nat.mul_assoc, Nat.add_mul_div_left _ _ (Nat.pow_pos (by decide)),
    Nat.mul_left_comm, Nat.add_mul_mod_self_left]

/-- A word is its opcode and its body. -/
theorem word_eq_opc_body (w : Word) : w = BitVec.ofNat 32 (bitField w 31 24 * 2 ^ 24 + bitField w 23 0) := by
  apply BitVec.eq_of_toNat_eq
  simp only [bitField, BitVec.toNat_ofNat]
  have := w.isLt
  omega

/-- What decoding can answer: the row of the word's opcode, on that row's port, with its reserved bits clear
(R64). -/
theorem decode_ok_cases {p : Port} {w : Word} {i : Instr} (h : decode p w = .ok i) :
    ∃ r ∈ commandMap, r.opc = bitField w 31 24 ∧ r.port = p ∧ reservedClear r.format w = true ∧
      i = operandsOf r.format w := by
  unfold decode at h
  split at h
  · simp at h
  · rename_i r hr
    split at h
    · simp at h
    · rename_i hp
      split at h
      · rename_i hc
        refine ⟨r, List.mem_of_find?_eq_some hr, by simpa using List.find?_some hr, by simpa using hp, hc, ?_⟩
        simpa using h.symm
      · simp at h

/-- The opcodes of the command map are all different, so the opcode alone selects the row (R60). -/
theorem commandMap_opcodes_differ : (commandMap.map (·.opc)).Nodup := by decide

/-- A row of the map is what decoding finds for its opcode. -/
theorem commandMap_find {r : CommandRow} (hr : r ∈ commandMap) {opc : Nat} (ho : r.opc = opc) :
    commandMap.find? (fun x => decide (x.opc = opc)) = some r := by
  subst ho
  simp only [commandMap, List.mem_cons, List.not_mem_nil, or_false] at hr
  rcases hr with rfl | rfl | rfl | rfl | rfl | rfl | rfl | rfl | rfl | rfl | rfl | rfl | rfl | rfl | rfl <;> rfl

/-- Decoding a word whose opcode is a row's, on that row's port, with the reserved bits clear (R64). -/
theorem decode_row {r : CommandRow} (hr : r ∈ commandMap) {w : Word} (ho : r.opc = bitField w 31 24)
    (hc : reservedClear r.format w = true) : decode r.port w = .ok (operandsOf r.format w) := by
  simp [decode, commandMap_find hr ho, hc]

/-- The table word of a 32-bit word is the word. -/
theorem tableWord_toNat (w : Word) : tableWord 32 w.toNat = w := by
  apply BitVec.eq_of_toNat_eq
  simp [tableWord, Nat.mod_eq_of_lt w.isLt]

end Sys2Proof
end

