-- ==== Sys2Proof/Laws/Frames.lean ====
section
/-! SUPPORT. When two states read the same bytes, what `finish` alone leaves, and runs of several steps. -/

namespace Sys2Proof.Safety

open Sys2Proof.Machine

/-- States with the same memories and the same draw read the same bytes. -/
theorem sameBytes_of_memories {s t : State} (hd : t.draw = s.draw) (h1 : t.blk.tx_buf = s.blk.tx_buf)
    (h2 : t.blk.stage = s.blk.stage) (h3 : t.blk.rx_ring = s.blk.rx_ring) (h4 : t.blk.rxout = s.blk.rxout) :
    sameBytes s t := by
  intro r a
  refine State.byteAt_congr ?_ hd a
  cases r
  · exact h1
  · exact h2
  · exact h3
  · exact h4

/-- `finish` on the TX port changes the result and the value only. -/
theorem txReports_finishTx (s : State) (c : ResultCode) (v : Word) : txReports s (s.finishTx c v) c v :=
  ⟨rfl, sameBytes_of_memories rfl rfl rfl rfl rfl⟩

/-- `finish` on the RX port changes the result and the value only. -/
theorem rxReports_finishRx (s : State) (c : ResultCode) (v : Word) : rxReports s (s.finishRx c v) c v :=
  ⟨rfl, sameBytes_of_memories rfl rfl rfl rfl rfl⟩

theorem run_zero (s : State) : run 0 s = .next s := rfl

theorem core_run_next {M : Host.Core} {s t : M.State} (k : Nat) (h : M.step s = .next t) :
    M.run (k + 1) s = M.run k t := by
  rw [Host.Core.run, h]

theorem core_run_fault {M : Host.Core} {s : M.State} {r : M.Fault} (k : Nat) (h : M.step s = .fault r) :
    M.run (k + 1) s = .fault r := by
  rw [Host.Core.run, h]

theorem core_run_refused {M : Host.Core} {s : M.State} {r : M.Refusal} (k : Nat) (h : M.step s = .refused r) :
    M.run (k + 1) s = .refused r := by
  rw [Host.Core.run, h]

/-- A run of one step more, when the first step answers. -/
theorem run_succ {k : Nat} {s t : State} (h : step s = .next t) : run (k + 1) s = run k t :=
  core_run_next (M := Sys2Proof.core) k h

/-- A run that answers took a step that answers, if it is not empty. -/
theorem run_succ_cases {k : Nat} {s u : State} (h : run (k + 1) s = .next u) :
    ∃ t, step s = .next t ∧ run k t = .next u := by
  cases hs : step s with
  | next t => exact ⟨t, rfl, (run_succ hs).symm.trans h⟩
  | fault r => exact absurd ((core_run_fault (M := Sys2Proof.core) k hs).symm.trans h) (fun h => by cases h)
  | refused r => exact absurd ((core_run_refused (M := Sys2Proof.core) k hs).symm.trans h) (fun h => by cases h)

/-- Two runs one after the other. -/
theorem run_add {j k : Nat} {s t : State} (h : run j s = .next t) : run (j + k) s = run k t := by
  induction j generalizing s with
  | zero =>
    cases h
    rw [Nat.zero_add]
  | succ j ih =>
    obtain ⟨m, hm, hr⟩ := run_succ_cases h
    rw [Nat.succ_add, run_succ hm]
    exact ih hr

end Sys2Proof.Safety
end

