-- ==== Sys2Proof/Laws/PerInstr.lean ====
section
/-! SUPPORT. Statements about every command as syntax, one lemma per constructor of Instr. -/

namespace Sys2Proof.Laws.EncodingFits

/-- The opcode of a command is 8 bits wide, and the body of a well-formed one 24 bits (R60). -/
def Statement (i : Instr) : Prop := i.wf = true → i.opc < 2 ^ 8 ∧ i.body < 2 ^ 24

theorem crcCalc (len : Nat) : Statement (.crcCalc len) := by
  intro h; simp [Instr.wf, lenFits] at h; simp [Instr.opc, Instr.body]; omega
theorem encodeFrame (len : Nat) : Statement (.encodeFrame len) := by
  intro h; simp [Instr.wf, lenFits] at h; simp [Instr.opc, Instr.body]; omega
theorem decodeFrame (len : Nat) : Statement (.decodeFrame len) := by
  intro h; simp [Instr.wf, lenFits] at h; simp [Instr.opc, Instr.body]; omega
theorem txOpen : Statement .txOpen := by intro _; decide
theorem txOpenBe : Statement .txOpenBe := by intro _; decide
theorem txAppendBytes (len : Nat) : Statement (.txAppendBytes len) := by
  intro h; simp [Instr.wf, lenFits] at h; simp [Instr.opc, Instr.body]; omega
theorem txAppendInt (e : Endian) (w : IntWidth) : Statement (.txAppendInt e w) := by
  intro _; cases e <;> cases w <;> decide
theorem txCommit : Statement .txCommit := by intro _; decide
theorem txAbort : Statement .txAbort := by intro _; decide
theorem txComplete : Statement .txComplete := by intro _; decide
theorem txClrerr : Statement .txClrerr := by intro _; decide
theorem rxStart : Statement .rxStart := by intro _; decide
theorem rxRead (len : Nat) : Statement (.rxRead len) := by
  intro h; simp [Instr.wf, lenFits] at h; simp [Instr.opc, Instr.body]; omega
theorem rxClrto : Statement .rxClrto := by intro _; decide
theorem rxClrirq : Statement .rxClrirq := by intro _; decide

end Sys2Proof.Laws.EncodingFits
end

