-- ==== Sys2Proof/Laws/Step.lean ====
section
/-! SUPPORT. What a step can be: no event, a Host read, a Host write (a command, an argument, window bytes, or
ignored), or a turn of an agent. -/

namespace Sys2Proof.Machine

/-- Every command answers a next state (60_exceptions.md R107): none faults, none is refused. -/
theorem exec_isNext (i : Instr) (s : State) : ∃ t, exec i s = .next t := by
  cases i <;> exact ⟨_, rfl⟩

/-- With no event placed, nothing happens (log 4). -/
theorem step_of_nil {s : State} (h : s.inputs = []) : step s = .next s := by
  simp [step, nextStep, h]

/-- With an event placed, the step is that event. -/
theorem step_of_cons {s : State} {e : Event} {rest : List Event} (h : s.inputs = e :: rest) :
    step s = perform e { s with inputs := rest } := by
  simp [step, nextStep, h]

/-- A 32-bit write to a command register runs the command word. -/
theorem hostWrite_command (p : Port) (w : Word) (s : State) :
    hostWrite (cmdOffset p) .b32 w s = runCommand p w s := by
  cases p <;> rfl

/-- A command word that decodes runs its command (R64). -/
theorem runCommand_ok {p : Port} {w : Word} {i : Instr} (h : decode p w = .ok i) (s : State) :
    runCommand p w s = exec i s := by simp [runCommand, h]

/-- A command word that does not decode reports ILLEGAL_COMMAND (R65). -/
theorem runCommand_error {p : Port} {w : Word} {e : DecodeError} (h : decode p w = .error e) (s : State) :
    runCommand p w s = .next (s.finish p .illegalCommand 0) := by simp [runCommand, h]

/-- What a command word can do. -/
theorem runCommand_cases (p : Port) (w : Word) (s : State) :
    (∃ i, decode p w = .ok i ∧ runCommand p w s = exec i s) ∨
    (∃ e, decode p w = .error e ∧ runCommand p w s = .next (s.finish p .illegalCommand 0)) := by
  cases h : decode p w with
  | ok i => exact .inl ⟨i, rfl, runCommand_ok h s⟩
  | error e => exact .inr ⟨e, rfl, runCommand_error h s⟩

/-- The command of a row is of the row's port (R63). -/
theorem port_of_row {r : CommandRow} (hr : r ∈ commandMap) (w : Word) : (operandsOf r.format w).port = r.port := by
  simp only [commandMap, List.mem_cons, List.not_mem_nil, or_false] at hr
  rcases hr with rfl | rfl | rfl | rfl | rfl | rfl | rfl | rfl | rfl | rfl | rfl | rfl | rfl | rfl | rfl <;> rfl

/-- A Host read that answers changes only the value the Host holds (R50). -/
theorem hostRead_next {off : Offset} {w : AccessWidth} {s t : State} (h : hostRead off w s = .next t) :
    t = { s with rdata := t.rdata } := by
  unfold hostRead at h
  split at h
  · split at h
    · cases h; rfl
    · cases h
  · split at h
    · split at h
      · cases h; rfl
      · cases h
    · cases h

/-- Window bytes written change only `stage`. -/
theorem writeWindowBytes_eq (bs : List Byte) (s : State) (o : Nat) :
    writeWindowBytes s o bs = { s with blk := { s.blk with stage := (writeWindowBytes s o bs).blk.stage } } := by
  induction bs generalizing s o with
  | nil => rfl
  | cons b bs ih =>
    rw [writeWindowBytes, ih]
    split <;> rfl

/-- What a Host write that answers can do (R50): a command, an argument register, nothing, or window bytes. -/
theorem hostWrite_cases {off : Offset} {w : AccessWidth} {v : Word} {s t : State}
    (h : hostWrite off w v s = .next t) :
    (∃ p, off = cmdOffset p ∧ w = .b32 ∧ runCommand p v s = .next t) ∨
    (off = 0x004 ∧ w = .b32 ∧ t = { s with blk := { s.blk with tx_arg0 := v } }) ∨
    (off = 0x008 ∧ w = .b32 ∧ t = { s with blk := { s.blk with tx_arg1 := v } }) ∨
    (off.toNat < 0x1000 ∧ off ≠ cmdOffset .tx ∧ off ≠ cmdOffset .rx ∧ off ≠ 0x004 ∧ off ≠ 0x008 ∧ t = s) ∨
    (0x1000 ≤ off.toNat ∧ off.toNat < 0x3000 ∧ off.toNat % accessBytes w = 0 ∧
      t = writeWindowBytes s off.toNat (leBytes (accessBytes w) v.toNat)) := by
  unfold hostWrite at h
  split at h
  · rename_i hlt
    split at h
    · rename_i hw
      unfold writeRegister at h
      split at h
      · rename_i ho
        exact .inl ⟨.tx, BitVec.eq_of_toNat_eq ho, hw.1, h⟩
      · rename_i ho
        cases h
        exact .inr (.inl ⟨BitVec.eq_of_toNat_eq ho, hw.1, rfl⟩)
      · rename_i ho
        cases h
        exact .inr (.inr (.inl ⟨BitVec.eq_of_toNat_eq ho, hw.1, rfl⟩))
      · rename_i ho
        exact .inl ⟨.rx, BitVec.eq_of_toNat_eq ho, hw.1, h⟩
      · rename_i h0 h4 h8 h40
        cases h
        refine .inr (.inr (.inr (.inl ⟨hlt, ?_, ?_, ?_, ?_, rfl⟩)))
        · rintro rfl; exact h0 rfl
        · rintro rfl; exact h40 rfl
        · rintro rfl; exact h4 rfl
        · rintro rfl; exact h8 rfl
    · cases h
  · rename_i hge
    split at h
    · rename_i hlt
      split at h
      · rename_i ha
        cases h
        exact .inr (.inr (.inr (.inr ⟨by omega, hlt, ha, rfl⟩)))
      · cases h
    · cases h

/-- What a step that takes event `e` and answers `t` can be: a Host read; a command; an illegal word; a write of
an argument register or of window bytes, or an ignored one; or a turn of an agent or the reset. -/
theorem step_event_cases {s t : State} {e : Event} {rest : List Event} (hs : s.inputs = e :: rest)
    (h : step s = .next t) :
    (∃ off w v, e = .hostRead off w ∧ t = { s with inputs := rest, rdata := v }) ∨
    (∃ i, Safety.isCommand e i ∧ exec i { s with inputs := rest } = .next t) ∨
    (∃ p, t = State.finish { s with inputs := rest } p .illegalCommand 0 ∧ ∃ w, e = commandEvent p w) ∨
    (∃ off w v a0 a1 m, e = .hostWrite off w v ∧ off ≠ cmdOffset .tx ∧ off ≠ cmdOffset .rx ∧
      t = { s with inputs := rest, blk := { s.blk with tx_arg0 := a0, tx_arg1 := a1, stage := m } }) ∨
    (e = .txSend ∧ t = State.txSendStep { s with inputs := rest }) ∨
    (e = .txError ∧ t = State.txErrorStep { s with inputs := rest }) ∨
    (∃ b, e = .rxByte b ∧ t = State.rxByteStep { s with inputs := rest } b) ∨
    (e = .rxTimeout ∧ t = State.rxTimeoutStep { s with inputs := rest }) ∨
    (e = .sysReset ∧ t = State.systemReset { s with inputs := rest }) := by
  rw [step_of_cons hs] at h
  cases e with
  | hostRead off w => exact .inl ⟨off, w, t.rdata, rfl, hostRead_next h⟩
  | hostWrite off w v =>
    rcases hostWrite_cases h with ⟨p, rfl, rfl, hc⟩ | ⟨rfl, rfl, ht⟩ | ⟨rfl, rfl, ht⟩ | ⟨-, h0, h1, -, -, ht⟩ | ⟨hlo, -, -, ht⟩
    · rcases runCommand_cases p v { s with inputs := rest } with ⟨i, hd, hr⟩ | ⟨_, hd, hr⟩
      · have hp : i.port = p := by
          obtain ⟨r, hmem, -, hp, -, rfl⟩ := decode_ok_cases hd
          rw [← hp]
          exact port_of_row hmem v
        exact .inr (.inl ⟨i, ⟨v, by rw [hp], by rw [hp]; exact hd⟩, by rw [← hr]; exact hc⟩)
      · rw [hr] at hc
        cases hc
        exact .inr (.inr (.inl ⟨p, rfl, v, rfl⟩))
    · subst ht
      exact .inr (.inr (.inr (.inl ⟨_, _, _, _, _, _, rfl, by decide, by decide, rfl⟩)))
    · subst ht
      exact .inr (.inr (.inr (.inl ⟨_, _, _, _, _, _, rfl, by decide, by decide, rfl⟩)))
    · subst ht
      exact .inr (.inr (.inr (.inl ⟨_, _, _, _, _, _, rfl, h0, h1, rfl⟩)))
    · have hne : ∀ p, off ≠ cmdOffset p := by
        rintro p rfl
        revert hlo
        cases p <;> decide
      exact .inr (.inr (.inr (.inl ⟨off, w, v, _, _, _, rfl, hne .tx, hne .rx, by rw [ht, writeWindowBytes_eq]⟩)))
  | txSend => cases h; exact .inr (.inr (.inr (.inr (.inl ⟨rfl, rfl⟩))))
  | txError => cases h; exact .inr (.inr (.inr (.inr (.inr (.inl ⟨rfl, rfl⟩)))))
  | rxByte b => cases h; exact .inr (.inr (.inr (.inr (.inr (.inr (.inl ⟨b, rfl, rfl⟩))))))
  | rxTimeout => cases h; exact .inr (.inr (.inr (.inr (.inr (.inr (.inr (.inl ⟨rfl, rfl⟩)))))))
  | sysReset => cases h; exact .inr (.inr (.inr (.inr (.inr (.inr (.inr (.inr ⟨rfl, rfl⟩)))))))

end Sys2Proof.Machine
end

