-- ==== Sys2Proof/Laws/Schedule.lean ====
section
/-! SUPPORT. A step does not look at the events behind the one it takes, so a run over a list of events and an infinite
order of steps pass through the same states (20_memory.md R52). -/

namespace Sys2Proof.Machine

/-- The state with other events to come. -/
def State.withInputs (s : State) (es : List Event) : State := { s with inputs := es }

@[simp] theorem State.withInputs_blk (s : State) (es : List Event) : (s.withInputs es).blk = s.blk := rfl
@[simp] theorem State.withInputs_cfg (s : State) (es : List Event) : (s.withInputs es).cfg = s.cfg := rfl
@[simp] theorem State.withInputs_inputs (s : State) (es : List Event) : (s.withInputs es).inputs = es := rfl
@[simp] theorem State.withInputs_rdata (s : State) (es : List Event) : (s.withInputs es).rdata = s.rdata := rfl
@[simp] theorem State.withInputs_draw (s : State) (es : List Event) : (s.withInputs es).draw = s.draw := rfl
@[simp] theorem State.withInputs_withInputs (s : State) (es fs : List Event) :
    (s.withInputs es).withInputs fs = s.withInputs fs := rfl
@[simp] theorem State.withInputs_byteAt (s : State) (es : List Event) (r : Region) (a : Nat) :
    (s.withInputs es).byteAt r a = s.byteAt r a := State.byteAt_congr (by cases r <;> rfl) rfl a
@[simp] theorem State.withInputs_bytesAt (s : State) (es : List Event) (r : Region) (a n : Nat) :
    (s.withInputs es).bytesAt r a n = s.bytesAt r a n := by simp [State.bytesAt]
@[simp] theorem State.withInputs_waiting (s : State) (es : List Event) (k : Nat) :
    (s.withInputs es).waiting k = s.waiting k := by simp [State.waiting]
@[simp] theorem State.withInputs_avail (s : State) (es : List Event) : (s.withInputs es).avail = s.avail := rfl

theorem State.withInputs_putBytes (s : State) (es : List Event) (r : Region) (a : Nat) (bs : List Byte) :
    (s.withInputs es).putBytes r a bs = (s.putBytes r a bs).withInputs es := by cases r <;> rfl

/-- A conditional state with other events to come. -/
theorem State.withInputs_ite (p : Prop) [Decidable p] (s t : State) (es : List Event) :
    (if p then s else t).withInputs es = if p then s.withInputs es else t.withInputs es := by
  split <;> rfl

theorem State.withInputs_openSession (s : State) (es : List Event) (be : Bool) :
    (s.withInputs es).openSession be = (s.openSession be).withInputs es := by
  unfold State.openSession
  cases h : s.blk.tx_state <;> simp only [State.withInputs_blk, h, State.withInputs_ite] <;> rfl

theorem State.withInputs_sessionAppend (s : State) (es : List Event) (bytes : List Byte) (f : ResultCode) :
    (s.withInputs es).sessionAppend bytes f = (s.sessionAppend bytes f).withInputs es := by
  unfold State.sessionAppend
  simp only [State.withInputs_blk, State.withInputs_cfg, State.withInputs_ite]
  rfl

/-- A command's effect does not depend on the events to come. -/
theorem exec_withInputs {i : Instr} {s t : State} (es : List Event) (h : exec i s = .next t) :
    exec i (s.withInputs es) = .next (t.withInputs es) := by
  cases i <;> cases h
  case crcCalc n => simp only [exec, execCrcCalc, State.withInputs_cfg, State.withInputs_bytesAt, State.withInputs_ite]; rfl
  case encodeFrame n =>
    simp only [exec, execEncodeFrame, State.withInputs_cfg, State.withInputs_bytesAt, State.withInputs_ite,
      State.withInputs_sessionAppend]; rfl
  case decodeFrame n =>
    simp only [exec, execDecodeFrame, State.withInputs_cfg, State.withInputs_bytesAt, State.withInputs_ite]; rfl
  case txOpen => exact congrArg _ (State.withInputs_openSession s es false)
  case txOpenBe => exact congrArg _ (State.withInputs_openSession s es true)
  case txAppendBytes n =>
    simp only [exec, execTxAppendBytes, State.withInputs_cfg, State.withInputs_bytesAt, State.withInputs_ite,
      State.withInputs_sessionAppend]; rfl
  case txAppendInt e w => exact congrArg _ (State.withInputs_sessionAppend s es _ _)
  case txCommit => simp only [exec, execTxCommit, State.withInputs_blk, State.withInputs_ite]; rfl
  case txAbort => simp only [exec, execTxAbort, State.withInputs_blk, State.withInputs_ite]; rfl
  case txComplete =>
    simp only [exec, execTxComplete, State.withInputs_blk]
    cases s.blk.tx_state <;> simp only [State.withInputs_ite] <;> rfl
  case txClrerr => rfl
  case rxStart => simp only [exec, execRxStart, State.withInputs_blk, State.withInputs_ite]; rfl
  case rxRead n =>
    simp only [exec, execRxRead, State.withInputs_cfg, State.withInputs_avail, State.withInputs_ite, State.drain,
      State.withInputs_waiting]; rfl
  case rxClrto => rfl
  case rxClrirq => rfl

theorem writeWindowBytes_withInputs (es : List Event) (bs : List Byte) (s : State) (o : Nat) :
    writeWindowBytes (s.withInputs es) o bs = (writeWindowBytes s o bs).withInputs es := by
  induction bs generalizing s o with
  | nil => rfl
  | cons b bs ih =>
    simp only [writeWindowBytes, State.withInputs_cfg, State.withInputs_putBytes]
    rw [← State.withInputs_ite, ih]

theorem windowByte_withInputs (s : State) (es : List Event) (o : Nat) :
    windowByte (s.withInputs es) o = windowByte s o := by
  simp only [windowByte, State.withInputs_cfg, State.withInputs_byteAt]

/-- A Host read does not depend on the events to come. -/
theorem hostRead_withInputs {off : Offset} {w : AccessWidth} {s t : State} (es : List Event)
    (h : hostRead off w s = .next t) : hostRead off w (s.withInputs es) = .next (t.withInputs es) := by
  unfold hostRead at h ⊢
  split at h
  · split at h
    · cases h
      simp only [*, if_true]
      rfl
    · cases h
  · split at h
    · split at h
      · cases h
        simp only [*, if_true, if_false, readWindow, windowByte_withInputs]
        rfl
      · cases h
    · cases h

/-- A Host write does not depend on the events to come. -/
theorem hostWrite_withInputs {off : Offset} {w : AccessWidth} {v : Word} {s t : State} (es : List Event)
    (h : hostWrite off w v s = .next t) : hostWrite off w v (s.withInputs es) = .next (t.withInputs es) := by
  rcases hostWrite_cases h with ⟨p, rfl, rfl, hc⟩ | ⟨rfl, rfl, rfl⟩ | ⟨rfl, rfl, rfl⟩ | ⟨hlo, h0, h1, h2, h3, rfl⟩ |
    ⟨hlo, hhi, ha, rfl⟩
  · rw [hostWrite_command]
    rcases runCommand_cases p v s with ⟨i, hd, hr⟩ | ⟨e, hd, hr⟩
    · rw [runCommand_ok hd]
      exact exec_withInputs es (hr.symm.trans hc)
    · rw [runCommand_error hd]
      rw [hr] at hc
      cases hc
      cases p <;> rfl
  · rfl
  · rfl
  · unfold hostWrite at h ⊢
    rw [if_pos hlo] at h ⊢
    split at h
    · rw [if_pos (by assumption)]
      unfold writeRegister
      split
      · rename_i hz
        exact absurd (BitVec.eq_of_toNat_eq hz) h0
      · rename_i hz
        exact absurd (BitVec.eq_of_toNat_eq hz) h2
      · rename_i hz
        exact absurd (BitVec.eq_of_toNat_eq hz) h3
      · rename_i hz
        exact absurd (BitVec.eq_of_toNat_eq hz) h1
      · rfl
    · cases h
  · unfold hostWrite
    rw [if_neg (by omega), if_pos hhi, if_pos ha, writeWindowBytes_withInputs]

/-- A turn of an agent does not depend on the events to come. -/
theorem State.withInputs_turns (s : State) (es : List Event) (b : Byte) :
    (s.withInputs es).txSendStep = s.txSendStep.withInputs es ∧
    (s.withInputs es).txErrorStep = s.txErrorStep.withInputs es ∧
    (s.withInputs es).rxByteStep b = (s.rxByteStep b).withInputs es ∧
    (s.withInputs es).rxTimeoutStep = s.rxTimeoutStep.withInputs es := by
  refine ⟨?_, ?_, ?_, ?_⟩
  · simp only [State.txSendStep, State.withInputs_blk, State.withInputs_byteAt, State.withInputs_ite]
    rfl
  · unfold State.txErrorStep
    simp only [State.withInputs_blk, State.withInputs_cfg, State.withInputs_ite]
    cases s.cfg.txErrPolicy <;> rfl
  · simp only [State.rxByteStep, State.withInputs_blk, State.withInputs_ite]
    rfl
  · simp only [State.rxTimeoutStep, State.withInputs_blk, State.withInputs_ite]
    rfl

/-- One event's effect does not depend on the events to come. -/
theorem perform_withInputs {e : Event} {s t : State} (es : List Event) (h : perform e s = .next t) :
    perform e (s.withInputs es) = .next (t.withInputs es) := by
  cases e with
  | hostRead off w => exact hostRead_withInputs es h
  | hostWrite off w v => exact hostWrite_withInputs es h
  | txSend => cases h; exact congrArg _ (State.withInputs_turns s es 0).1
  | txError => cases h; exact congrArg _ (State.withInputs_turns s es 0).2.1
  | rxByte b => cases h; exact congrArg _ (State.withInputs_turns s es b).2.2.1
  | rxTimeout => cases h; exact congrArg _ (State.withInputs_turns s es 0).2.2.2
  | sysReset => cases h; rfl

/-- A step that takes an event takes it alike with any events behind it. -/
theorem step_withInputs {e : Event} {s t : State} (es fs : List Event)
    (h : step (s.withInputs (e :: es)) = .next t) : step (s.withInputs (e :: fs)) = .next (t.withInputs fs) := by
  rw [step_of_cons rfl] at h ⊢
  exact perform_withInputs (s := s.withInputs es) fs h

/-- A step that takes an event leaves the events behind it. -/
theorem step_inputs {e : Event} {s t : State} (es : List Event) (h : step (s.withInputs (e :: es)) = .next t) :
    t.inputs = es := by
  have h' := step_withInputs es es h
  rw [h] at h'
  injection h' with h'
  rw [h']
  rfl

/-- A run over the first k events of an infinite order of steps passes through its states. -/
theorem run_of_follows {σ : Nat → State} {e : Schedule} (hf : follows σ e) (k j : Nat) (rest : List Event) :
    Safety.run k ((σ j).withInputs ((List.range' j k).map e ++ rest)) = .next ((σ (j + k)).withInputs rest) := by
  induction k generalizing j with
  | zero => rfl
  | succ k ih =>
    have hs : step ((σ j).withInputs ([e j])) = .next (σ (j + 1)) := hf j
    rw [List.range'_succ, List.map_cons, List.cons_append,
      Safety.run_succ (step_withInputs [] _ hs), ih (j + 1), Nat.add_right_comm, Nat.add_assoc]

end Sys2Proof.Machine
end

