-- ==== Sys2Proof/Machine/Script.lean ====
section
/-! DEFINITION. The Host-script statements (30_encoding.md R66) and the pseudo-instructions (R67), each as the
list of events it stands for. They add no meaning: every event runs through `step`. What a script does with
a value it read is Host code, outside the block; the `...Of` functions give the expressions R67 writes. -/

namespace Sys2Proof.Machine

/-! ### Statements of R66 -/

/-- `cmd`: the word of a command, written to its port's CMD register. -/
def cmdStmt (i : Instr) : List Event := [commandEvent i.port (encode i)]

/-- `wr REG, v`. -/
def wrStmt (off : Offset) (v : Nat) : List Event := [.hostWrite off .b32 (BitVec.ofNat 32 v)]

/-- `rd REG -> r`. -/
def rdStmt (off : Offset) : List Event := [.hostRead off .b32]

/-- `stb off, b0, b1, ...`: 8-bit writes to STAGE offsets off, off + 1, ... -/
def stbStmt : Nat → List Byte → List Event
  | _, [] => []
  | off, b :: bs => .hostWrite (BitVec.ofNat 14 (0x1000 + off)) .b8 (b.setWidth 32) :: stbStmt (off + 1) bs

/-- `ldb RXOUT+off -> r`. -/
def ldbRxout (off : Nat) : List Event := [.hostRead (BitVec.ofNat 14 (0x2000 + off)) .b8]

/-- `env rxbyte b`. -/
def envRxbyte (b : Byte) : List Event := [.rxByte b]

/-- `env rxto`. -/
def envRxto : List Event := [.rxTimeout]

/-- `env txemit`. -/
def envTxemit : List Event := [.txSend]

/-- `env txerr`. -/
def envTxerr : List Event := [.txError]

/-! ### Pseudo-instructions of R67 -/

/-- The TX_ARG writes of an append of width w: TX_ARG1 for 8 bytes only. -/
def argWrites (w : IntWidth) (v : Nat) : List Event :=
  match w with
  | .w1 => wrStmt 0x004 (v % 2 ^ 8)
  | .w2 => wrStmt 0x004 (v % 2 ^ 16)
  | .w4 => wrStmt 0x004 (v % 2 ^ 32)
  | .w8 => wrStmt 0x004 (v % 2 ^ 32) ++ wrStmt 0x008 (v / 2 ^ 32 % 2 ^ 32)

/-- `TX_APPEND_U8` to `TX_APPEND_U64LE`, and the float appends with the float's bit pattern as `v`. The signed
forms have the same expansions: `v` is the value modulo 2 to the width, as an integer. -/
def appendUint (e : Endian) (w : IntWidth) (v : Nat) : List Event := argWrites w v ++ cmdStmt (.txAppendInt e w)

/-- `TX_APPEND_I8` to `TX_APPEND_I64LE`. -/
def appendSint (e : Endian) (w : IntWidth) (v : Int) : List Event := appendUint e w (v % 2 ^ 64).toNat

/-- `TX_APPEND_F32BE` and `F32LE`, of the binary32 bit pattern (R67). -/
def appendF32 (e : Endian) (bits : BitVec 32) : List Event := appendUint e .w4 bits.toNat

/-- `TX_APPEND_F64BE` and `F64LE`, of the binary64 bit pattern (R67). -/
def appendF64 (e : Endian) (bits : BitVec 64) : List Event := appendUint e .w8 bits.toNat

/-- The chunks of a raw append, each of at most n bytes; `fuel` bounds their number. -/
def chunks (n : Nat) : Nat → List Byte → List (List Byte)
  | 0, _ => []
  | _ + 1, [] => []
  | fuel + 1, b :: bs => ((b :: bs).take n) :: chunks n fuel ((b :: bs).drop n)

/-- `TX_APPEND_RAW`: for each chunk of at most STAGE_CAP bytes, `stb 0, chunk` and the append. -/
def appendRaw (stageCap : Nat) (bs : List Byte) : List Event :=
  (chunks stageCap bs.length bs).flatMap fun c => stbStmt 0 c ++ cmdStmt (.txAppendBytes c.length)

/-- `utf8(s)` (R67). -/
def utf8 (s : String) : List Byte :=
  s.toList.flatMap fun c => (String.utf8EncodeChar c).map fun b => BitVec.ofNat 8 b.toNat

/-- `TX_APPEND_STR s`. -/
def appendStr (stageCap : Nat) (s : String) : List Event := appendRaw stageCap (utf8 s)

/-- `TX_ENCODE_FRAME`. -/
def encodeFrameStmt (p : List Byte) : List Event := stbStmt 0 p ++ cmdStmt (.encodeFrame p.length)

/-- `CRC32`. -/
def crc32Stmt (p : List Byte) : List Event := stbStmt 0 p ++ cmdStmt (.crcCalc p.length) ++ rdStmt 0x010

/-- `TX_START`. -/
def txStartStmt : List Event := cmdStmt .txCommit

/-- How a session ends: TX_COMMIT if the body's producer logic succeeded, else TX_ABORT. -/
def sessionEnd (succeeded : Bool) : List Event := cmdStmt (if succeeded then .txCommit else .txAbort)

/-- `WRITE`. -/
def writeStmt (body : List Event) (succeeded : Bool) : List Event := cmdStmt .txOpen ++ body ++ sessionEnd succeeded

/-- `WRITE_BEST_EFFORT`. -/
def writeBestEffort (body : List Event) (succeeded : Bool) : List Event :=
  cmdStmt .txOpenBe ++ body ++ sessionEnd succeeded

/-- `ON_TRANSFER_COMPLETE`. -/
def onTransferComplete : List Event := cmdStmt .txComplete

/-- The read of `IS_BUSY` and `IS_ERROR`. -/
def readTxStatus : List Event := rdStmt 0x014

/-- `IS_BUSY`: r = s[0] of the word read. -/
def isBusyOf (s : Word) : Bool := s.getLsbD 0

/-- `IS_ERROR`: r = s[1] of the word read. -/
def isErrorOf (s : Word) : Bool := s.getLsbD 1

/-- `CLEAR_ERROR`. -/
def clearError : List Event := cmdStmt .txClrerr

/-- The read of `TIMEOUT_LAPSED`. -/
def readRxStatus : List Event := rdStmt 0x054

/-- `TIMEOUT_LAPSED`: r = s[1] of the word read. -/
def timeoutLapsedOf (s : Word) : Bool := s.getLsbD 1

/-- `CLEAR_TIMEOUT`. -/
def clearTimeout : List Event := cmdStmt .rxClrto

/-- `READ_AVAILABLE n`. -/
def readAvailable (n : Nat) : List Event := cmdStmt (.rxRead n) ++ rdStmt 0x050

/-- `DECODE_FRAME n`. -/
def decodeFrameStmt (n : Nat) : List Event := cmdStmt (.decodeFrame n) ++ rdStmt 0x04C

/-- `DECODE_FRAME`: ok = (c[7:0] = OK) of the word read. -/
def decodeOkOf (c : Word) : Bool := decide (c.setWidth 8 = ResultCode.ok.code)

end Sys2Proof.Machine
end

