-- ==== Sys2Proof/Tests/Slice0.lean ====
section
/-! SUPPORT. The model's own tests. Expected values are from spec/95_test_vectors.md (the vector is named) or worked
out by hand from the rule named. Then, for every statement with hypotheses, a concrete state that meets them. -/

namespace Sys2Proof.Tests

open Sys2Proof.Machine Sys2Proof.Safety

/-! ### Helpers -/

/-- The reset machine in the example configuration of 95_test_vectors.md. -/
def base : State := State.resetWith Params.specExample 0

/-- `base` with some components of the block changed. -/
def baseWith (f : Block → Block) : State := { base with blk := f base.blk }

/-- The state with an event placed as its only one. -/
def State.facing (s : State) (es : List Event) : State := { s with inputs := es }

/-- The write of a command's word to its own port. -/
def cmd (i : Instr) : Event := commandEvent i.port (encode i)

/-- A command answers a next state of which `p` holds. -/
def runs (i : Instr) (s : State) (p : State → Bool) : Bool :=
  match exec i s with
  | .next t => p t
  | _ => false

/-- The event answers a next state of which `p` holds. -/
def stepsTo (e : Event) (s : State) (p : State → Bool) : Bool :=
  match step (State.facing s [e]) with
  | .next t => p t
  | _ => false

/-- `k` steps answer a next state. -/
def answers (k : Nat) (s : State) : Bool :=
  match run k s with
  | .next _ => true
  | _ => false

theorem exists_next_of_answers {k : Nat} {s : State} (h : answers k s = true) : ∃ t, run k s = .next t := by
  unfold answers at h
  split at h
  · exact ⟨_, by assumption⟩
  · cases h

/-- The TX port's result, value and status. -/
def tx (t : State) (c : ResultCode) (v : Nat) (st : Nat) : Bool :=
  decide (t.blk.tx_result = c ∧ t.blk.tx_rvalue.toNat = v ∧ (txStatus t.blk).toNat = st)

/-- The RX port's result, value and status. -/
def rx (t : State) (c : ResultCode) (v : Nat) (st : Nat) : Bool :=
  decide (t.blk.rx_result = c ∧ t.blk.rx_rvalue.toNat = v ∧ (rxStatus t.blk).toNat = st)

/-- STAGE begins with these bytes. -/
def staged (bs : List Byte) (f : Block → Block) : State := State.putBytes (baseWith f) .stage 0 bs

/-- RXOUT begins with these bytes. -/
def drained (bs : List Byte) : State := State.putBytes base .rxOut 0 bs

/-- A good session. -/
def openBlock (b : Block) : Block := { b with sess_open := true }

/-- A session failed by an overflow at length 12 (V-TX-28). -/
def overflowedBlock (b : Block) : Block := { b with sess_open := true, sess_err := .bufferOverflow, tx_len := 12 }

/-- A transfer of two bytes in flight, none sent. -/
def flightBlock (b : Block) : Block := { b with tx_state := .inFlight, tx_buf := [(0, 0xAA), (1, 0x55)], tx_len := 2 }

/-- The same transfer, all sent. -/
def doneBlock (b : Block) : Block := { flightBlock b with tx_sent := 2, tx_done := true }

/-- The same transfer, stalled by an error after one byte. -/
def stalledBlock (b : Block) : Block :=
  { flightBlock b with tx_sent := 1, tx_xerr := true, tx_stalled := true, err := true }

/-- A session opened while that transfer was in flight: failed with BUSY. -/
def busyBlock (b : Block) : Block := { flightBlock b with sess_open := true, sess_err := .busy }

/-- The frame of 01 02 03 (V-ENC-1). -/
def frame123 : List Byte := [0x01, 0x02, 0x03, 0xF1, 0x30, 0xF2, 0x1E]

/-! ### Ill-formed commands are refused by WellFormed -/

theorem test_wf_crcCalc : (Instr.crcCalc 65536).wf = false ∧ (Instr.crcCalc 65535).wf = true := by decide
theorem test_wf_encode : (Instr.encodeFrame 65536).wf = false ∧ (Instr.encodeFrame 65535).wf = true := by decide
theorem test_wf_decode : (Instr.decodeFrame 65536).wf = false ∧ (Instr.decodeFrame 65535).wf = true := by decide
theorem test_wf_appendBytes : (Instr.txAppendBytes 65536).wf = false ∧ (Instr.txAppendBytes 65535).wf = true := by
  decide
theorem test_wf_rxRead : (Instr.rxRead 65536).wf = false ∧ (Instr.rxRead 65535).wf = true := by decide

/-! ### Words written out from R61 to R63 decode to their commands -/

theorem test_decode_crcCalc : decode .tx 0b00000001000000000000000000001001#32 = .ok (.crcCalc 9) := by decide
theorem test_decode_encode : decode .tx 0b00000010000000001000000000000001#32 = .ok (.encodeFrame 32769) := by decide
theorem test_decode_decode : decode .rx 0b00000011000000000000000000000111#32 = .ok (.decodeFrame 7) := by decide
theorem test_decode_txOpen : decode .tx 0b00010000000000000000000000000000#32 = .ok .txOpen := by decide
theorem test_decode_txOpenBe : decode .tx 0b00010001000000000000000000000000#32 = .ok .txOpenBe := by decide
theorem test_decode_appendBytes : decode .tx 0b00010010000000000000000000001100#32 = .ok (.txAppendBytes 12) := by decide
theorem test_decode_appendInt_be : decode .tx 0b00010011000000000000000000000010#32 = .ok (.txAppendInt .be .w4) := by
  decide
theorem test_decode_appendInt_le : decode .tx 0b00010011000000000000000000000111#32 = .ok (.txAppendInt .le .w8) := by
  decide
theorem test_decode_txCommit : decode .tx 0b00010100000000000000000000000000#32 = .ok .txCommit := by decide
theorem test_decode_txAbort : decode .tx 0b00010101000000000000000000000000#32 = .ok .txAbort := by decide
theorem test_decode_txComplete : decode .tx 0b00010110000000000000000000000000#32 = .ok .txComplete := by decide
theorem test_decode_txClrerr : decode .tx 0b00010111000000000000000000000000#32 = .ok .txClrerr := by decide
theorem test_decode_rxStart : decode .rx 0b00100000000000000000000000000000#32 = .ok .rxStart := by decide
theorem test_decode_rxRead : decode .rx 0b00100001000000000000000000010000#32 = .ok (.rxRead 16) := by decide
theorem test_decode_rxClrto : decode .rx 0b00100010000000000000000000000000#32 = .ok .rxClrto := by decide
theorem test_decode_rxClrirq : decode .rx 0b00100011000000000000000000000000#32 = .ok .rxClrirq := by decide

/-- V-ILL-1 to V-ILL-7. -/
theorem test_illegal_tx :
    decode .tx 0x00000000 = .error .unassignedOpcode ∧ decode .tx 0xFF000000 = .error .unassignedOpcode ∧
    decode .tx 0x21000000 = .error .otherPort ∧ decode .tx 0x03000003 = .error .otherPort ∧
    decode .tx 0x10000001 = .error .reservedBits ∧ decode .tx 0x12010000 = .error .reservedBits ∧
    decode .tx 0x13000008 = .error .reservedBits := by decide
/-- V-ILL-9 to V-ILL-11. -/
theorem test_illegal_rx :
    decode .rx 0x14000000 = .error .otherPort ∧ decode .rx 0x10000000 = .error .otherPort ∧
    decode .rx 0x20000001 = .error .reservedBits := by decide
/-- V-ILL-6 and the sentence after the table: an illegal word leaves a good session good. -/
theorem test_illegal_keeps_session :
    stepsTo (commandEvent .tx 0x12010000) (baseWith openBlock) (tx · .illegalCommand 0 0x04) = true := by decide

/-! ### The frame codec -/

/-- V-CRC-7. -/
theorem test_crcCalc_123 : runs (.crcCalc 3) (staged [1, 2, 3] id) (tx · .ok 0xF130F21E 0) = true := by
  decide +kernel
/-- V-CRC-28, V-ILL-8. -/
theorem test_crcCalc_too_long : runs (.crcCalc 17) base (tx · .illegalCommand 0 0) = true := by decide
/-- V-ENC-1. -/
theorem test_encode_123 : runs (.encodeFrame 3) (staged [1, 2, 3] openBlock) (fun t =>
    tx t .ok 7 0x04 && decide (t.bytesAt .txBuf 0 7 = frame123)) = true := by decide +kernel
/-- V-ENC-3. -/
theorem test_encode_no_room : runs (.encodeFrame 13) (staged (List.replicate 13 0) openBlock)
    (tx · .serializationFault 0 0x0C) = true := by decide +kernel
/-- P3: DECODE 7 of P1's frame. -/
theorem test_decodeFrame_ok : runs (.decodeFrame 7) (drained frame123) (rx · .ok 0xF130F21E 0) = true := by
  decide +kernel
/-- R77: one flipped bit of the trailer (F1 to F0). -/
theorem test_decodeFrame_flipped : runs (.decodeFrame 7) (drained [1, 2, 3, 0xF0, 0x30, 0xF2, 0x1E])
    (rx · .integrityFault 0xF130F21E 0) = true := by decide +kernel

/-! ### The transmit transfer manager -/

/-- R81: Idle, no session. -/
theorem test_txOpen : runs .txOpen base (tx · .ok 0 0x04) = true := by decide
/-- P2: TX_OPEN while InFlight. -/
theorem test_txOpen_inFlight : runs .txOpen (baseWith flightBlock) (tx · .busy 2 0x0D) = true := by decide
/-- R82: Idle, no session. -/
theorem test_txOpenBe : runs .txOpenBe base (tx · .ok 0 0x44) = true := by decide
/-- P2: TX_OPEN_BE while InFlight, ERROR latched. -/
theorem test_txOpenBe_inFlight :
    runs .txOpenBe (baseWith fun b => { flightBlock b with err := true }) (tx · .busy 2 0x4F) = true := by decide
/-- P2: TX_APPEND_BYTES 2 of AA 55. -/
theorem test_appendBytes : runs (.txAppendBytes 2) (staged [0xAA, 0x55] openBlock) (fun t =>
    tx t .ok 2 0x04 && decide (t.bytesAt .txBuf 0 2 = [0xAA, 0x55])) = true := by decide
/-- R83: no session. -/
theorem test_appendBytes_no_session : runs (.txAppendBytes 2) base (tx · .sequenceError 0 0) = true := by decide
/-- R84: w = 4, big-endian. -/
theorem test_appendInt_be : runs (.txAppendInt .be .w4) (baseWith fun b => { openBlock b with tx_arg0 := 0x12345678 })
    (fun t => tx t .ok 4 0x04 && decide (t.bytesAt .txBuf 0 4 = [0x12, 0x34, 0x56, 0x78])) = true := by decide
/-- R84: w = 8, little-endian. -/
theorem test_appendInt_le8 : runs (.txAppendInt .le .w8)
    (baseWith fun b => { openBlock b with tx_arg0 := 0xDEADBEEF, tx_arg1 := 0x01020304 })
    (fun t => decide (t.bytesAt .txBuf 0 8 = [0xEF, 0xBE, 0xAD, 0xDE, 0x04, 0x03, 0x02, 0x01])) = true := by decide
/-- V-TX-25. -/
theorem test_txCommit_empty : runs .txCommit (baseWith openBlock) (fun t =>
    tx t .ok 0 0x11 && txIrq t.blk) = true := by decide
/-- V-TX-28. -/
theorem test_txCommit_failed : runs .txCommit (baseWith overflowedBlock) (tx · .bufferOverflow 12 0x02) = true := by
  decide
/-- V-TX-29. -/
theorem test_txAbort_failed : runs .txAbort (baseWith overflowedBlock) (tx · .bufferOverflow 12 0x02) = true := by
  decide
/-- V-TX-30. -/
theorem test_txAbort_good :
    runs .txAbort (baseWith fun b => { openBlock b with tx_len := 3 }) (tx · .producerError 3 0x02) = true := by decide
/-- P2: TX_COMPLETE before and after the last byte. -/
theorem test_txComplete_busy : runs .txComplete (baseWith flightBlock) (tx · .busy 2 0x01) = true := by decide
theorem test_txComplete_reclaims : runs .txComplete (baseWith doneBlock) (fun t =>
    tx t .ok 0 0x00 && decide (t.byteAt .txBuf 0 = 0)) = true := by decide
/-- V-TX-34. -/
theorem test_txClrerr : runs .txClrerr (baseWith fun b => { b with err := true }) (fun t =>
    tx t .ok 0 0x00 && !errInd t.blk) = true := by decide
/-- V-DMA-1. -/
theorem test_txSend : stepsTo .txSend (baseWith flightBlock) (fun t =>
    decide (t.blk.line_out = [0xAA] ∧ t.blk.tx_sent = 1 ∧ t.blk.tx_done = false)) = true := by decide
/-- V-DMA-3 and V-DMA-6, on a transfer of two bytes. -/
theorem test_txError :
    stepsTo .txError (baseWith flightBlock) (fun t => decide ((txStatus t.blk).toNat = 0x23)) = true ∧
    stepsTo .txError { baseWith flightBlock with cfg := { Params.specExample with txErrPolicy := .endAsComplete } }
      (fun t => decide ((txStatus t.blk).toNat = 0x33)) = true := by decide

/-! ### The receive transfer reader -/

/-- V-RX-2. -/
theorem test_rxStart : runs .rxStart base (rx · .ok 0 0x01) = true := by decide
/-- V-RX-3. -/
theorem test_rxStart_twice : runs .rxStart (baseWith fun b => { b with rx_run := true }) (rx · .sequenceError 0 0x01)
    = true := by decide
/-- R96, R98: a drain across the wrap, from place 6 to place 1 of a ring of 8. -/
theorem test_rxRead_wraps : runs (.rxRead 16)
    (baseWith fun b => { b with rx_rd := 6, rx_wr := 1, rx_ring := [(0, 0x22), (6, 0x20), (7, 0x21)] })
    (fun t => rx t .ok 3 0 && decide (t.bytesAt .rxOut 0 3 = [0x20, 0x21, 0x22] ∧ t.blk.rx_rd = 1)) = true := by decide
/-- V-RX-17. -/
theorem test_rxRead_too_long : runs (.rxRead 17) base (rx · .illegalCommand 0 0) = true := by decide
/-- V-RX-15. -/
theorem test_rxClrto : runs .rxClrto (baseWith fun b => { b with rx_to := true, rx_armed := true }) (fun t =>
    rx t .ok 0 0 && t.blk.rx_armed) = true := by decide
/-- V-RX-14. -/
theorem test_rxClrirq : runs .rxClrirq (baseWith fun b => { b with rx_to := true, rx_ht := true }) (fun t =>
    rx t .ok 0 0x02 && !rxIrq t.blk) = true := by decide
/-- V-RX-1, and V-RX-5's last byte: HT at half. -/
theorem test_rxByte :
    stepsTo (.rxByte 9) base (fun t => decide (t = base)) = true ∧
    stepsTo (.rxByte 9) (baseWith fun b => { b with rx_run := true, rx_wr := 3 }) (fun t =>
      decide ((rxStatus t.blk).toNat = 0x05 ∧ t.blk.rx_wr = 4 ∧ t.byteAt .rxRing 3 = 9)) = true := by decide
/-- V-RX-13. -/
theorem test_rxTimeout : stepsTo .rxTimeout (baseWith fun b => { b with rx_armed := true }) (fun t =>
    t.blk.rx_to && !t.blk.rx_armed) = true := by decide

/-! ### The Host interface -/

/-- Section 2.8: a 32-bit write of 04030201 to STAGE offset 0 stores 01 02 03 04. -/
theorem test_window_write : stepsTo (.hostWrite 0x1000 .b32 0x04030201) base (fun t =>
    decide (t.bytesAt .stage 0 4 = [1, 2, 3, 4])) = true := by decide
/-- Section 2.8: 01 02 03 F1 in RXOUT reads F1030201, and F103 at 0x2002. -/
theorem test_window_read :
    stepsTo (.hostRead 0x2000 .b32) (drained [1, 2, 3, 0xF1]) (fun t => decide (t.rdata = 0xF1030201)) = true ∧
    stepsTo (.hostRead 0x2002 .b16) (drained [1, 2, 3, 0xF1]) (fun t => decide (t.rdata = 0xF103)) = true := by decide
/-- Section 2.8: TX_CAPS and RX_CAPS. -/
theorem test_caps : readRegister base 0x01C = 0x00100010 ∧ readRegister base 0x05C = 0x00100008 := by decide
/-- R67: a best-effort write is the list of events its expansion names. -/
theorem test_pseudo_write : writeBestEffort (appendUint .be .w2 0x1234) true =
    [.hostWrite 0x000 .b32 0x11000000, .hostWrite 0x004 .b32 0x1234, .hostWrite 0x000 .b32 0x13000001,
      .hostWrite 0x000 .b32 0x14000000] := by decide

/-! ### Witnesses: states that meet the hypotheses of the statements -/

/-- The invariant of transfers, as a test. -/
def transferOk (b : Block) : Bool :=
  decide ((b.tx_state = .idle → b.tx_sent = 0 ∧ b.tx_done = false ∧ b.tx_xerr = false ∧ b.tx_stalled = false) ∧
    (b.sess_open = true → b.sess_err = .ok → b.tx_state = .idle) ∧ b.tx_sent ≤ b.tx_len ∧
    (b.tx_done = true → b.tx_stalled = false → b.tx_sent = b.tx_len ∨ b.tx_xerr = true) ∧
    (b.tx_stalled = true → b.tx_xerr = true ∧ b.tx_done = false) ∧
    (b.sess_open = false → b.sess_be = false ∧ b.sess_err = .ok) ∧
    (b.sess_err = .ok ∨ b.sess_err = .busy ∨ b.sess_err = .bufferOverflow ∨ b.sess_err = .serializationFault))

theorem transferInvariant_of_transferOk {b : Block} (h : transferOk b = true) : TransferInvariant b := by
  obtain ⟨h1, h2, h3, h4, h5, h6, h7⟩ := of_decide_eq_true h
  exact ⟨h1, h2, h3, h4, h5, h6, h7⟩

/-- DecodeEncodeRoundTrip, PlacedWordRunsNext, and the words of the commands with a length: the greatest LEN. -/
theorem witness_wellFormed : (Instr.crcCalc 65535).wf = true ∧ Port.rx ≠ (Instr.crcCalc 65535).port ∧
    65535 < 2 ^ 16 := by decide

/-- LegalWordIsItsEncoding: the greatest LEN of an RX word. -/
theorem witness_legalWord : decode .rx 0x2100FFFF = .ok (.rxRead 65535) := by decide

/-- IllegalWordHasNoOtherEffect, first clause, on each port and for each reason. -/
theorem witness_illegalWord :
    (illegalWord .tx 0x03000003 ∧ (State.facing base [commandEvent .tx 0x03000003]).inputs =
      commandEvent .tx 0x03000003 :: []) ∧
    (illegalWord .rx 0x20000001 ∧ (State.facing base [commandEvent .rx 0x20000001]).inputs =
      commandEvent .rx 0x20000001 :: []) ∧
    illegalWord .tx 0x13000008 ∧ illegalWord .tx 0x12010000 := by
  refine ⟨⟨.inl (by decide), rfl⟩, ⟨.inr ?_, rfl⟩, .inr ?_, .inr ?_⟩ <;> unfold reservedBitSet <;> decide

/-- IllegalWordHasNoOtherEffect, second clause, at the ends of the unassigned ranges. -/
theorem witness_unassignedOpcode :
    unassignedOpcode (bitField 0x00000000 31 24) ∧ unassignedOpcode (bitField 0x04000000 31 24) ∧
    unassignedOpcode (bitField 0x0F000000 31 24) ∧ unassignedOpcode (bitField 0x18000000 31 24) ∧
    unassignedOpcode (bitField 0x1F000000 31 24) ∧ unassignedOpcode (bitField 0x24000000 31 24) ∧
    unassignedOpcode (bitField 0xFF000000 31 24) := by
  simp [unassignedOpcode, bitField]

/-- IllegalWordHasNoOtherEffect, third and fourth clause; the operands of the results that exceed a window. -/
theorem witness_beyond_windows : base.cfg.stageCap < 17 ∧ base.cfg.rxoutCap < 17 := by decide

/-- StepRunsDecodedCommand. -/
theorem witness_StepRunsDecodedCommand :
    (State.facing base [.hostWrite (cmdOffset .rx) .b32 0x21000010]).inputs =
      .hostWrite (cmdOffset .rx) .b32 0x21000010 :: [] ∧ decode .rx 0x21000010 = .ok (.rxRead 16) := by decide

/-- ResetRegisterValues, CapacityRegistersConstant: the example's parameters and the greatest ones. -/
theorem witness_params : Params.specExample.wf = true ∧
    ({ Params.specExample with txCap := 65535, stageCap := 4096, rxCap := 65535, rxoutCap := 4096 } : Params).wf =
      true := by decide

/-- SystemResetSetsEveryComponent, from a state with a transfer in flight. -/
theorem witness_SystemReset : (State.facing (baseWith flightBlock) [.sysReset]).inputs = .sysReset :: [] := rfl

/-- CapacityRegistersConstant and the statements over every step: a step that answers. -/
theorem witness_step : ∃ t, step (State.facing base [cmd .txOpen]) = .next t := ⟨_, rfl⟩

/-- AccessSideEffects: a read that answers, a write of STAGE, of TX_ARG0 and of an ignored offset, and a command
written twice. -/
theorem witness_AccessSideEffects :
    (∃ t, hostRead 0x054 .b32 base = .next t) ∧
    (∃ t, hostWrite 0x1001 .b8 0xFF base = .next t ∧ (0x1001 : Offset) ≠ cmdOffset .tx ∧ (0x1001 : Offset) ≠ cmdOffset .rx) ∧
    (∃ t, hostWrite 0x004 .b32 0xFF base = .next t ∧ (0x004 : Offset) ≠ cmdOffset .tx ∧ (0x004 : Offset) ≠ cmdOffset .rx) ∧
    (∃ t, hostWrite 0x018 .b32 0xFF base = .next t ∧ (0x018 : Offset) ≠ cmdOffset .tx ∧ (0x018 : Offset) ≠ cmdOffset .rx) ∧
    (∃ t, (State.facing base [commandEvent .rx 0x20000000, commandEvent .rx 0x20000000]).inputs =
        commandEvent .rx 0x20000000 :: commandEvent .rx 0x20000000 :: [] ∧ decode .rx 0x20000000 = .ok .rxStart ∧
      step (State.facing base [commandEvent .rx 0x20000000, commandEvent .rx 0x20000000]) = .next t) := by
  refine ⟨⟨_, rfl⟩, ⟨_, rfl, by decide, by decide⟩, ⟨_, rfl, by decide, by decide⟩, ⟨_, rfl, by decide, by decide⟩,
    ⟨_, rfl, by decide, rfl⟩⟩

/-- UnmappedOffsetsReadZero: the ends of each range, in both clauses. -/
theorem witness_UnmappedOffsets :
    (∀ off ∈ [0x020#14, 0x03C, 0x044, 0x048, 0x068, 0xFFC], ((0x020 ≤ off.toNat ∧ off.toNat ≤ 0x03C) ∨
      off.toNat = 0x044 ∨ off.toNat = 0x048 ∨ (0x068 ≤ off.toNat ∧ off.toNat ≤ 0xFFF)) ∧ off.toNat % 4 = 0) ∧
    (∀ off ∈ [0x1010#14, 0x1FFC, 0x2010, 0x2FFC], off.toNat % accessBytes .b32 = 0 ∧
      ((0x1000 + base.cfg.stageCap ≤ off.toNat ∧ off.toNat < 0x2000) ∨
        (0x2000 + base.cfg.rxoutCap ≤ off.toNat ∧ off.toNat < 0x3000))) := by
  simp [base, State.resetWith, Params.specExample, accessBytes]

/-- RegisterAccessWidth: both cases at the end of register space. -/
theorem witness_RegisterAccessWidth : (0xFFC#14).toNat < 0x1000 ∧ (0xFFC#14).toNat % 4 = 0 ∧
    (0xFFF#14).toNat < 0x1000 ∧ (0xFFF#14).toNat % 4 ≠ 0 := by decide

/-- WindowAccessBytewise: the ends of the windows, aligned and not. -/
theorem witness_WindowAccess : base.cfg.wf = true ∧
    (∀ off ∈ [0x1000#14, 0x1FFC, 0x2000, 0x2FFC], 0x1000 ≤ off.toNat ∧ off.toNat < 0x3000 ∧
      off.toNat % accessBytes .b32 = 0) ∧
    (0x1000 ≤ (0x2FFF#14).toNat ∧ (0x2FFF#14).toNat < 0x3000 ∧ (0x2FFF#14).toNat % accessBytes .b16 ≠ 0) :=
  ⟨by decide, by simp [accessBytes], by simp [accessBytes]⟩

/-- WindowsLittleEndian: the first and the last word of STAGE. -/
theorem witness_WindowsLittleEndian : base.cfg.wf = true ∧ (0 % 4 = 0 ∧ 0 + 4 ≤ base.cfg.stageCap) ∧
    12 % 4 = 0 ∧ 12 + 4 ≤ base.cfg.stageCap := by decide

/-- OffsetOutsideBlockFaults: both ends. -/
theorem witness_OffsetOutsideBlock : 0x3000 ≤ (0x3000#14).toNat ∧ 0x3000 ≤ (0x3FFF#14).toNat := by decide

/-- LengthAndIndexRegisters, StorageInvariantKept: a state with a transfer in flight and a step it takes. -/
theorem witness_StorageInvariant : StorageInvariant (State.facing (baseWith flightBlock) [.txSend]) ∧
    ∃ t, step (State.facing (baseWith flightBlock) [.txSend]) = .next t :=
  ⟨⟨by decide, by decide, by decide, by decide, by decide, by decide, by decide, by decide⟩, _, rfl⟩

/-- CrcCalcResult, the clause of the empty sequence. -/
theorem witness_CrcCalc_empty : base.cfg.crc = .iscsi := rfl

/-- A command that `runs` answers a next state. -/
theorem exists_next_of_runs {i : Instr} {s : State} {p : State → Bool} (h : runs i s p = true) :
    ∃ t, exec i s = .next t ∧ p t = true := by
  obtain ⟨t, ht⟩ := exec_isNext i s
  exact ⟨t, ht, by simpa [runs, ht] using h⟩

/-- A state with one byte of RXOUT changed reads every other byte as before. -/
theorem byteAt_change_ne (s : State) (j : Nat) (b : Byte) {a : Nat} (h : a ≠ j) :
    (State.putBytes s .rxOut j [b]).byteAt .rxOut a = s.byteAt .rxOut a :=
  State.byteAt_putBytes_outside s .rxOut .rxOut j [b] fun _ => by
    rcases Nat.lt_or_gt_of_ne h with h | h
    · exact .inl h
    · exact .inr h

/-- DecodeRejectsChangedTrailer and DecodeDetectsOneByteChange: an accepted frame, and the same with the last byte
of its trailer changed, or (for the second statement) the first byte of its payload. -/
theorem witness_changed_frame :
    7 ≤ (drained frame123).cfg.rxoutCap ∧ (drained frame123).cfg.crc = .iscsi ∧
    (∃ t, exec (.decodeFrame 7) (drained frame123) = .next t ∧ rx t .ok 0xF130F21E 0 = true) ∧
    (∀ j b, (State.putBytes (drained frame123) .rxOut j [b]).cfg = (drained frame123).cfg ∧
      ∀ a, a < 7 → a ≠ j →
        (State.putBytes (drained frame123) .rxOut j [b]).byteAt .rxOut a = (drained frame123).byteAt .rxOut a) ∧
    (State.putBytes (drained frame123) .rxOut 6 [0x1F]).byteAt .rxOut (7 - 4 + 3) ≠
      (drained frame123).byteAt .rxOut (7 - 4 + 3) ∧
    (State.putBytes (drained frame123) .rxOut 0 [0xFF]).byteAt .rxOut 0 ≠ (drained frame123).byteAt .rxOut 0 :=
  ⟨by decide, rfl, exists_next_of_runs test_decodeFrame_ok,
    fun j b => ⟨State.putBytes_cfg _ _ _ _, fun _ _ h => byteAt_change_ne _ j b h⟩, by decide, by decide⟩

/-- The start of FrameRoundTrip: a good empty session, 01 02 03 in STAGE, and the receive side running. -/
def roundTripStart : State :=
  staged [1, 2, 3] fun b => { b with sess_open := true, rx_run := true, rx_wr := 5, rx_rd := 5 }

/-- FrameRoundTrip. -/
theorem witness_FrameRoundTrip : roundTripStart.cfg.wf = true ∧ goodSession roundTripStart.blk = true ∧
    roundTripStart.blk.tx_len = 0 ∧ 3 ≤ roundTripStart.cfg.stageCap ∧ 3 + 4 ≤ roundTripStart.cfg.txCap ∧
    3 + 4 ≤ roundTripStart.cfg.rxoutCap ∧ 3 + 4 < roundTripStart.cfg.rxCap ∧ roundTripStart.blk.rx_run = true ∧
    roundTripStart.blk.rx_rd = roundTripStart.blk.rx_wr ∧ roundTripStart.blk.rx_wr < roundTripStart.cfg.rxCap ∧
    ∃ s, s = State.facing roundTripStart (txCommands [.encodeFrame 3, .txCommit] ++ List.replicate (3 + 4) .txSend ++
      (frame s.cfg.crc (s.bytesAt .stage 0 3)).map .rxByte ++
      [commandEvent .rx (encode (.rxRead (3 + 4))), commandEvent .rx (encode (.decodeFrame (3 + 4)))]) := by
  refine ⟨by decide, by decide, by decide, by decide, by decide, by decide, by decide, by decide, by decide,
    by decide, State.facing roundTripStart (txCommands [.encodeFrame 3, .txCommit] ++
      List.replicate (3 + 4) .txSend ++
      (frame roundTripStart.cfg.crc (roundTripStart.bytesAt .stage 0 3)).map .rxByte ++
      [commandEvent .rx (encode (.rxRead (3 + 4))), commandEvent .rx (encode (.decodeFrame (3 + 4)))]), rfl⟩

/-- The state after the completion of CompletionHappensOnce, with a TX_OPEN and a turn of TXDMA to come. -/
def completed : State := ((State.facing (baseWith doneBlock) [cmd .txOpen, .txSend]).reclaim).finishTx .ok 0

/-- CompletionHappensOnce, each clause. -/
theorem witness_CompletionHappensOnce :
    base.blk.tx_state = .idle ∧
    ((baseWith flightBlock).blk.tx_state = .inFlight ∧ (baseWith flightBlock).blk.tx_done = false) ∧
    (baseWith doneBlock).blk.tx_state = .inFlight ∧ (baseWith doneBlock).blk.tx_done = true ∧
    exec .txComplete (State.facing (baseWith doneBlock) [cmd .txOpen, .txSend]) = .next completed ∧
    (∃ u, run 2 completed = .next u) ∧ ∀ e ∈ completed.inputs.take 2, ¬ isCommand e .txCommit := by
  refine ⟨rfl, ⟨rfl, rfl⟩, rfl, rfl, rfl, exists_next_of_answers (by decide +kernel), ?_⟩
  intro e he
  change e ∈ [cmd .txOpen, Event.txSend] at he
  simp only [List.mem_cons, List.not_mem_nil, or_false] at he
  rcases he with rfl | rfl
  · rintro ⟨w, hw, hd⟩
    injection hw with _ _ hw
    rw [← hw] at hd
    revert hd
    decide
  · rintro ⟨w, hw, -⟩
    cases hw

/-- TxSendStepResult, TxErrorStepResult: the guards hold, and fail. -/
theorem witness_txdma_turns :
    (State.facing (baseWith flightBlock) [.txSend]).inputs = .txSend :: [] ∧
    (State.facing (baseWith stalledBlock) [.txSend]).inputs = .txSend :: [] ∧
    (State.facing (baseWith flightBlock) [.txError]).inputs = .txError :: [] ∧
    (State.facing (baseWith doneBlock) [.txError]).inputs = .txError :: [] := ⟨rfl, rfl, rfl, rfl⟩

/-- The appends of the witnesses below, each well-formed. -/
def someAppends : List Instr := [.txAppendBytes 2, .txAppendInt .le .w8, .encodeFrame 65535]

/-- InFlightWriteIsHarmless, with and without best effort. -/
theorem witness_InFlightWrite : (baseWith flightBlock).blk.tx_state = .inFlight ∧
    (baseWith flightBlock).blk.sess_open = false ∧
    (∀ i ∈ someAppends, i.wf = true ∧ appendClass i = true) ∧
    (State.facing (baseWith flightBlock) (txCommands (.txOpen :: someAppends ++ [.txCommit]))).inputs =
      txCommands ((if false then .txOpenBe else .txOpen) :: someAppends ++ [.txCommit]) ++ [] ∧
    (State.facing (baseWith flightBlock) (txCommands (.txOpenBe :: someAppends ++ [.txCommit]))).inputs =
      txCommands ((if true then .txOpenBe else .txOpen) :: someAppends ++ [.txCommit]) ++ [] := by decide

/-- FailedSessionKeepsFirstError, ended by each of the two commands. -/
theorem witness_FailedSession : failedSession (baseWith overflowedBlock).blk = true ∧
    (∀ i ∈ someAppends, i.wf = true ∧ appendClass i = true) ∧
    (State.facing (baseWith overflowedBlock) (txCommands (someAppends ++ [.txCommit]))).inputs =
      txCommands (someAppends ++ [.txCommit]) ++ [] ∧
    (State.facing (baseWith overflowedBlock) (txCommands (someAppends ++ [.txAbort]))).inputs =
      txCommands (someAppends ++ [.txAbort]) ++ [] := by decide

/-- TransferStateTransitions: a step into InFlight, one back to Idle, and one that stays InFlight. -/
theorem witness_TransferStateTransitions :
    (transferOk (baseWith openBlock).blk && stepsTo (cmd .txCommit) (baseWith openBlock) (fun t =>
      decide ((baseWith openBlock).blk.tx_state = .idle ∧ t.blk.tx_state = .inFlight))) = true ∧
    (transferOk (baseWith doneBlock).blk && stepsTo (cmd .txComplete) (baseWith doneBlock) (fun t =>
      decide ((baseWith doneBlock).blk.tx_state = .inFlight ∧ t.blk.tx_state = .idle))) = true ∧
    (transferOk (baseWith flightBlock).blk && stepsTo .txSend (baseWith flightBlock) (fun t =>
      decide ((baseWith flightBlock).blk.tx_state = .inFlight ∧ t.blk.tx_state = .inFlight))) = true := by decide

/-- StalledTransferStaysStuck, over a run of three steps. -/
theorem witness_StalledTransfer : TransferInvariant (baseWith stalledBlock).blk ∧
    (baseWith stalledBlock).blk.tx_state = .inFlight ∧ (baseWith stalledBlock).blk.tx_stalled = true ∧
    Event.sysReset ∉ (State.facing (baseWith stalledBlock) [.txSend, cmd .txComplete, .txError]).inputs.take 3 ∧
    ∃ t, run 3 (State.facing (baseWith stalledBlock) [.txSend, cmd .txComplete, .txError]) = .next t :=
  ⟨transferInvariant_of_transferOk (by decide), rfl, rfl, by decide, exists_next_of_answers (by decide +kernel)⟩

/-- TransferDeliveredUnderAnySchedule: two bytes, two turns and another step between them. -/
theorem witness_TransferDelivered : TransferInvariant (baseWith flightBlock).blk ∧
    (baseWith flightBlock).blk.tx_state = .inFlight ∧ (baseWith flightBlock).blk.tx_done = false ∧
    (baseWith flightBlock).blk.tx_stalled = false ∧
    (∀ e ∈ [Event.txError, .sysReset],
      e ∉ (State.facing (baseWith flightBlock) [.txSend, cmd .txOpen, .txSend]).inputs.take 3) ∧
    (baseWith flightBlock).blk.tx_len - (baseWith flightBlock).blk.tx_sent ≤
      ((State.facing (baseWith flightBlock) [.txSend, cmd .txOpen, .txSend]).inputs.take 3).count .txSend ∧
    ∃ t, run 3 (State.facing (baseWith flightBlock) [.txSend, cmd .txOpen, .txSend]) = .next t :=
  ⟨transferInvariant_of_transferOk (by decide), rfl, rfl, rfl, by decide, by decide,
    exists_next_of_answers (by decide +kernel)⟩

/-- RxByteStepResult and RxTimeoutStepResult; the last line arms the timeout. -/
theorem witness_receive_turns :
    (State.facing base [.rxByte 9]).inputs = .rxByte 9 :: [] ∧
    (State.facing (baseWith fun b => { b with rx_armed := true }) [.rxTimeout]).inputs = .rxTimeout :: [] ∧
    stepsTo (.rxByte 9) (baseWith fun b => { b with rx_run := true }) (fun t =>
      decide ((baseWith fun b => { b with rx_run := true }).blk.rx_armed = false) && t.blk.rx_armed) = true := by decide

/-- A running, empty ring of two places (for DrainAfterArrivals). -/
def smallRing : State :=
  { baseWith (fun b => { b with rx_run := true }) with cfg := { Params.specExample with rxCap := 2 } }

/-- Three arrivals with two other steps between them. -/
def someArrivals : List Event := [.rxByte 1, cmd .rxStart, .rxByte 2, .txSend, .rxByte 3]

/-- DrainAfterArrivals: three bytes into a ring of two with other steps between them and a drain of as many bytes as
wait, and no arrival with an empty drain. -/
theorem witness_DrainAfterArrivals :
    smallRing.cfg.wf = true ∧ smallRing.blk.rx_run = true ∧ smallRing.blk.rx_rd = smallRing.blk.rx_wr ∧
    smallRing.blk.rx_wr < smallRing.cfg.rxCap ∧ Event.sysReset ∉ someArrivals ∧
    (∀ e ∈ someArrivals, ∀ m, ¬ isCommand e (.rxRead m)) ∧
    (∃ t, run someArrivals.length (State.facing smallRing someArrivals) = .next t) ∧
    (offeredBytes someArrivals).length % smallRing.cfg.rxCap ≤ 1 ∧ 1 ≤ smallRing.cfg.rxoutCap ∧
    (offeredBytes []).length % smallRing.cfg.rxCap ≤ 0 ∧
    (∃ t, run ([] : List Event).length (State.facing smallRing []) = .next t) := by
  refine ⟨by decide, rfl, rfl, by decide, by decide, ?_, exists_next_of_answers (by decide +kernel), by decide,
    by decide, by decide, ⟨_, rfl⟩⟩
  intro e he m
  simp only [someArrivals, List.mem_cons, List.not_mem_nil, or_false] at he
  rintro ⟨w, hw, hd⟩
  rcases he with rfl | rfl | rfl | rfl | rfl
  · cases hw
  · injection hw with _ _ hw
    have hs : decode .rx (encode .rxStart) = .ok .rxStart := by decide
    rw [← hw] at hd
    cases hs.symm.trans hd
  · cases hw
  · cases hw
  · cases hw

/-- A step that takes a flag from `v` to the other value, from a state with the invariant of transfers. -/
def moves (f : Block → Bool) (v : Bool) (e : Event) (s : State) : Bool :=
  transferOk s.blk && decide (f s.blk = v) && stepsTo e s (fun t => decide (f t.blk ≠ v))

/-- FlagTable, ErrorLatchedUntilCleared: each flag is set by some step. -/
theorem witness_flags_set :
    (moves busyFlag false (cmd .txCommit) (baseWith openBlock) &&
     moves Block.err false (cmd .txAbort) (baseWith openBlock) &&
     moves Block.sess_open false (cmd .txOpen) base &&
     moves sfailFlag false (cmd .txOpen) (baseWith flightBlock) &&
     moves sfailFlag false (cmd (.txAppendBytes 1)) (baseWith fun b => { openBlock b with tx_len := 16 }) &&
     moves Block.sess_be false (cmd .txOpenBe) base &&
     moves Block.tx_done false .txSend (baseWith fun b => { flightBlock b with tx_sent := 1 }) &&
     moves Block.tx_xerr false .txError (baseWith flightBlock) &&
     moves Block.rx_run false (cmd .rxStart) base &&
     moves Block.rx_to false .rxTimeout (baseWith fun b => { b with rx_armed := true }) &&
     moves Block.rx_ht false (.rxByte 1) (baseWith fun b => { b with rx_run := true, rx_wr := 3 }) &&
     moves Block.rx_tc false (.rxByte 1) (baseWith fun b => { b with rx_run := true, rx_wr := 7 })) = true := by
  decide +kernel

/-- FlagTable, ErrorLatchedUntilCleared: each flag is cleared by some step. -/
theorem witness_flags_cleared :
    (moves busyFlag true (cmd .txComplete) (baseWith doneBlock) &&
     moves Block.err true (cmd .txClrerr) (baseWith stalledBlock) &&
     moves Block.sess_open true (cmd .txAbort) (baseWith openBlock) &&
     moves sfailFlag true (cmd .txCommit) (baseWith busyBlock) &&
     moves Block.sess_be true (cmd .txCommit) (baseWith fun b => { openBlock b with sess_be := true }) &&
     moves Block.tx_done true (cmd .txComplete) (baseWith doneBlock) &&
     moves Block.tx_xerr true (cmd .txComplete) (baseWith fun b => { doneBlock b with tx_sent := 1, tx_xerr := true }) &&
     moves Block.rx_run true .sysReset (baseWith fun b => { b with rx_run := true }) &&
     moves Block.rx_to true (cmd .rxClrto) (baseWith fun b => { b with rx_to := true }) &&
     moves Block.rx_ht true (cmd .rxClrirq) (baseWith fun b => { b with rx_ht := true }) &&
     moves Block.rx_tc true (cmd .rxClrirq) (baseWith fun b => { b with rx_tc := true })) = true := by
  decide +kernel

/-- ErrorLatchedUntilCleared: the three events that set ERROR, where they do, and the two that clear it. -/
theorem witness_ErrorLatched :
    (isCommand (cmd .txCommit) .txCommit ∧ failedSession (baseWith overflowedBlock).blk = true ∧
      stepsTo (cmd .txCommit) (baseWith overflowedBlock) (fun t => t.blk.err) = true) ∧
    (isCommand (cmd .txAbort) .txAbort ∧ (baseWith openBlock).blk.sess_open = true ∧
      stepsTo (cmd .txAbort) (baseWith openBlock) (fun t => t.blk.err) = true) ∧
    ((baseWith flightBlock).blk.tx_state = .inFlight ∧ (baseWith flightBlock).blk.tx_done = false ∧
      (baseWith flightBlock).blk.tx_stalled = false ∧
      stepsTo .txError (baseWith flightBlock) (fun t => t.blk.err) = true) ∧
    isCommand (cmd .txClrerr) .txClrerr ∧ stepsTo .sysReset (baseWith stalledBlock) (fun t => !t.blk.err) = true :=
  ⟨⟨⟨_, rfl, by decide⟩, by decide, by decide⟩, ⟨⟨_, rfl, by decide⟩, by decide, by decide⟩,
    ⟨rfl, rfl, rfl, by decide⟩, ⟨_, rfl, by decide⟩, by decide⟩

/-- ArgumentRegisters, second clause: a step that is no write of an argument register. -/
theorem witness_ArgumentRegisters :
    (State.facing base [.rxByte 7]).inputs = .rxByte 7 :: [] ∧ (∃ t, step (State.facing base [.rxByte 7]) = .next t) ∧
    Event.rxByte 7 ≠ .sysReset ∧ ∀ off v, Event.rxByte 7 ≠ .hostWrite off .b32 v :=
  ⟨rfl, ⟨_, rfl⟩, by decide, fun _ _ h => by cases h⟩

/-- InterruptsClearedOnlyByTheirCommand: each request is taken down by its command. -/
theorem witness_interrupts :
    (moves txIrq true (cmd .txComplete) (baseWith doneBlock) &&
     moves rxIrq true (cmd .rxClrirq) (baseWith fun b => { b with rx_ht := true, rx_tc := true })) = true ∧
    isCommand (cmd .rxClrirq) .rxClrirq ∧ isCommand (cmd .txComplete) .txComplete :=
  ⟨by decide, ⟨_, rfl, by decide⟩, ⟨_, rfl, by decide⟩⟩

/-- PortsDoNotInterfere: a command of each port and a turn of each agent that answer. -/
theorem witness_PortsDoNotInterfere :
    (∃ t, exec .txOpen base = .next t) ∧ (∃ t, exec .rxStart base = .next t) ∧
    (∃ t, step (State.facing (baseWith flightBlock) [.txSend]) = .next t) ∧
    (∃ t, step (State.facing (baseWith flightBlock) [.txError]) = .next t) ∧
    (∃ t, step (State.facing base [.rxByte 1]) = .next t) ∧
    (∃ t, step (State.facing base [.rxTimeout]) = .next t) := ⟨⟨_, rfl⟩, ⟨_, rfl⟩, ⟨_, rfl⟩, ⟨_, rfl⟩, ⟨_, rfl⟩, ⟨_, rfl⟩⟩

/-- PortDependsOnItsOwnSide: states that differ on the other side only. -/
theorem witness_PortDependsOnItsOwnSide :
    (∃ t t', (baseWith fun b => { b with rx_run := true }).cfg = base.cfg ∧
      (baseWith fun b => { b with rx_run := true }).draw = base.draw ∧ exec .txOpen base = .next t ∧
      exec .txOpen (baseWith fun b => { b with rx_run := true }) = .next t' ∧
      sameTransmitSide base.blk (baseWith fun b => { b with rx_run := true }).blk) ∧
    (∃ t t', (baseWith openBlock).cfg = base.cfg ∧ (baseWith openBlock).draw = base.draw ∧
      exec .rxStart base = .next t ∧ exec .rxStart (baseWith openBlock) = .next t' ∧
      sameReceiveSide base.blk (baseWith openBlock).blk) :=
  ⟨⟨_, _, rfl, rfl, rfl, rfl, rfl⟩, ⟨_, _, rfl, rfl, rfl, rfl, rfl⟩⟩

/-- MemoriesWrittenOnlyBy: a byte of each memory that a step changes, the last byte of `tx_buf` by an append. -/
theorem witness_MemoriesWrittenOnlyBy :
    stepsTo (cmd (.txAppendInt .be .w1)) (baseWith fun b => { openBlock b with tx_len := 15, tx_arg0 := 7 }) (fun t =>
      decide (t.byteAt .txBuf 15 ≠ (baseWith fun b => { openBlock b with tx_len := 15, tx_arg0 := 7 }).byteAt .txBuf 15))
      = true ∧
    stepsTo (cmd .txOpen) (baseWith fun b => { b with tx_buf := [(0, 7)] }) (fun t =>
      decide (t.byteAt .txBuf 0 ≠ (baseWith fun b => { b with tx_buf := [(0, 7)] }).byteAt .txBuf 0)) = true ∧
    stepsTo (.hostWrite 0x100C .b32 0x01020304) (staged (List.replicate 16 0) id) (fun t =>
      decide (t.byteAt .stage 15 ≠ (staged (List.replicate 16 0) id).byteAt .stage 15)) = true ∧
    stepsTo (.rxByte 5) (baseWith fun b => { b with rx_run := true, rx_wr := 7, rx_ring := [(7, 4)] }) (fun t =>
      decide (t.byteAt .rxRing 7 ≠ 4)) = true ∧
    stepsTo (cmd (.rxRead 1)) (baseWith fun b => { b with rx_wr := 1, rx_ring := [(0, 4)], rxout := [(0, 3)] }) (fun t =>
      decide (t.byteAt .rxOut 0 ≠ 3)) = true := by decide

/-- TransferInvariantKept: a state with a failed session over an unfinished transfer in flight, and a step it takes. -/
theorem witness_TransferInvariantKept : TransferInvariant (State.facing (baseWith busyBlock) [cmd .txCommit]).blk ∧
    unfinishedHasBytes (State.facing (baseWith busyBlock) [cmd .txCommit]).blk ∧
    ∃ t, step (State.facing (baseWith busyBlock) [cmd .txCommit]) = .next t :=
  ⟨transferInvariant_of_transferOk (by decide), fun _ _ => by decide, _, rfl⟩

/-- The transfer of two bytes with TXDMA's turns only. -/
def sending : Nat → State
  | 0 => baseWith flightBlock
  | k + 1 => State.txSendStep (State.facing (sending k) [])

/-- FairScheduleProgress, first clause. -/
theorem witness_fair_sends : follows sending (fun _ => .txSend) ∧ sendFair sending (fun _ => .txSend) ∧
    TransferInvariant (sending 0).blk ∧ unfinishedHasBytes (sending 0).blk ∧ (sending 0).blk.tx_state = .inFlight ∧
    (sending 0).blk.tx_done = false ∧ (sending 0).blk.tx_stalled = false ∧
    ∀ k, 0 ≤ k → (fun _ => Event.txSend : Schedule) k ≠ .txError ∧ (fun _ => Event.txSend : Schedule) k ≠ .sysReset :=
  ⟨fun _ => rfl, fun n _ => ⟨n, Nat.le_refl n, rfl⟩, transferInvariant_of_transferOk (by decide), fun _ _ => by decide,
    rfl, rfl, rfl, fun _ _ => ⟨(fun h => by cases h), (fun h => by cases h)⟩⟩

/-- An armed timeout with RXTO's turns only. -/
def timing : Nat → State
  | 0 => baseWith fun b => { b with rx_armed := true }
  | k + 1 => State.rxTimeoutStep (State.facing (timing k) [])

/-- FairScheduleProgress, second clause. -/
theorem witness_fair_timeout : follows timing (fun _ => .rxTimeout) ∧ timeoutFair timing (fun _ => .rxTimeout) ∧
    (timing 0).blk.rx_armed = true ∧
    (∃ m, ∀ k, m ≤ k → ∀ b, (fun _ => Event.rxTimeout : Schedule) k ≠ .rxByte b) ∧
    ∀ k, 0 ≤ k → (fun _ => Event.rxTimeout : Schedule) k ≠ .sysReset :=
  ⟨fun _ => rfl, fun n ha _ => ⟨n, Nat.le_refl n, .inl ⟨rfl, ha⟩⟩, rfl,
    ⟨0, fun _ _ _ h => by cases h⟩, fun _ _ h => by cases h⟩

/-- FairScheduleProgress, third clause: a run that answers, over a send and a timeout. -/
theorem witness_fair_prefix : ∃ t, run [Event.txSend, .rxTimeout].length
    { baseWith flightBlock with inputs := [.txSend, .rxTimeout] } = .next t :=
  exists_next_of_answers (by decide +kernel)

end Sys2Proof.Tests
end

section
/-! PROOFS. What a step does to the latched error flag (10_state.md R24), and the status registers bit by bit
(R25, R34). -/

namespace Sys2Proof.Machine

/-! ### The error flag after each shared operation -/

@[simp] theorem State.openSession_err (s : State) (be : Bool) : (s.openSession be).blk.err = s.blk.err := by
  rcases s.openSession_cases be with ⟨-, h⟩ | ⟨-, -, h⟩ | ⟨-, -, h⟩ <;> simp [h]

@[simp] theorem State.sessionAppend_err (s : State) (bytes : List Byte) (fault : ResultCode) :
    (s.sessionAppend bytes fault).blk.err = s.blk.err := by
  rcases s.sessionAppend_cases bytes fault with ⟨-, h⟩ | ⟨-, -, h⟩ | ⟨-, -, -, h⟩ | ⟨-, -, -, h⟩ <;> simp [h]

@[simp] theorem State.failSession_err (s : State) (e : ResultCode) : (s.failSession e).blk.err = true := rfl

@[simp] theorem State.finish_err (s : State) (p : Port) (c : ResultCode) (v : Word) :
    (s.finish p c v).blk.err = s.blk.err := by cases p <;> rfl

@[simp] theorem State.txSendStep_err (s : State) : s.txSendStep.blk.err = s.blk.err := by
  rcases s.txSendStep_cases with ⟨-, -, -, -, h⟩ | ⟨-, h⟩ <;> rw [h]

@[simp] theorem State.rxByteStep_err (s : State) (b : Byte) : (s.rxByteStep b).blk.err = s.blk.err := by
  rcases s.rxByteStep_cases b with ⟨-, h⟩ | ⟨-, h⟩ <;> rw [h]

@[simp] theorem State.rxTimeoutStep_err (s : State) : s.rxTimeoutStep.blk.err = s.blk.err := by
  rcases s.rxTimeoutStep_cases with ⟨-, h⟩ | ⟨-, h⟩ <;> rw [h]

/-- An active transfer's error latches ERROR, under either policy (R90). -/
theorem State.txErrorStep_err_of_active {s : State} (hf : s.blk.tx_state = .inFlight) (hd : s.blk.tx_done = false)
    (hs : s.blk.tx_stalled = false) : s.txErrorStep.blk.err = true := by
  rcases s.txErrorStep_cases with ⟨-, -, -, -, h⟩ | ⟨-, -, -, -, h⟩ | ⟨hn, -⟩
  · rw [h]
  · rw [h]
  · exact absurd ⟨hf, hd, hs⟩ hn

/-! ### The error flag after each command -/

/-- ERROR after a command: the end of a failed or aborted session latches it, TX_CLRERR clears it, and every other
command keeps it (R24). -/
def errAfter (b : Block) : Instr → Bool
  | .txCommit => failedSession b || b.err
  | .txAbort => b.sess_open || b.err
  | .txClrerr => false
  | _ => b.err

/-- TX_COMMIT starts a transfer, or latches ERROR, or finds no session (R85). -/
theorem execTxCommit_err {s t : State} (h : execTxCommit s = .next t) :
    t.blk.err = (failedSession s.blk || s.blk.err) := by
  cases h
  cases ho : s.blk.sess_open with
  | false => simp [failedSession, sfailFlag, ho]
  | true => by_cases he : s.blk.sess_err = .ok <;> simp [failedSession, sfailFlag, ho, he]

/-- TX_ABORT latches ERROR, or finds no session (R86). -/
theorem execTxAbort_err {s t : State} (h : execTxAbort s = .next t) :
    t.blk.err = (s.blk.sess_open || s.blk.err) := by
  cases h
  cases ho : s.blk.sess_open <;> simp [ho]

theorem execTxComplete_err {s t : State} (h : execTxComplete s = .next t) : t.blk.err = s.blk.err := by
  cases h
  cases s.blk.tx_state with
  | idle => rfl
  | inFlight => cases hd : s.blk.tx_done <;> simp [hd]

/-- What every command does to ERROR. -/
theorem exec_err {i : Instr} {s t : State} (h : exec i s = .next t) : t.blk.err = errAfter s.blk i := by
  cases i with
  | txCommit => exact execTxCommit_err h
  | txAbort => exact execTxAbort_err h
  | txComplete => exact execTxComplete_err h
  | txClrerr => cases h; rfl
  | txOpen => cases h; exact s.openSession_err false
  | txOpenBe => cases h; exact s.openSession_err true
  | txAppendInt e w => cases h; exact s.sessionAppend_err _ _
  | crcCalc n => cases h; split <;> rfl
  | encodeFrame n => cases h; split <;> simp [errAfter]
  | decodeFrame n => cases h; split <;> [rfl; (split <;> rfl)]
  | txAppendBytes n => cases h; split <;> simp [errAfter]
  | rxStart => cases h; split <;> rfl
  | rxRead n => cases h; split <;> rfl
  | rxClrto => cases h; rfl
  | rxClrirq => cases h; rfl

/-- A command that raises ERROR is the end of a failed or aborted session. -/
theorem errAfter_raised {i : Instr} {b : Block} (hb : b.err = false) (h : errAfter b i = true) :
    (i = .txCommit ∧ failedSession b = true) ∨ (i = .txAbort ∧ b.sess_open = true) := by
  cases i with
  | txCommit => exact .inl ⟨rfl, by simpa [errAfter, hb] using h⟩
  | txAbort => exact .inr ⟨rfl, by simpa [errAfter, hb] using h⟩
  | _ => simp [errAfter, hb] at h

/-- A command that takes ERROR down is TX_CLRERR. -/
theorem errAfter_cleared {i : Instr} {b : Block} (hb : b.err = true) (h : errAfter b i = false) : i = .txClrerr := by
  cases i with
  | txClrerr => rfl
  | _ => simp [errAfter, hb] at h

/-! ### The error flag after each step -/

/-- The step at a command's event is the command, on the state with the event taken off (R59, R64). -/
theorem step_of_isCommand {s : State} {e : Event} {rest : List Event} {i : Instr} (hs : s.inputs = e :: rest)
    (hc : Safety.isCommand e i) : step s = exec i { s with inputs := rest } := by
  obtain ⟨w, rfl, hd⟩ := hc
  rw [step_of_cons hs]
  exact (hostWrite_command i.port w _).trans (runCommand_ok hd _)

/-- What a step at a command's event does to ERROR. -/
theorem step_err_of_isCommand {s t : State} {e : Event} {rest : List Event} {i : Instr} (hs : s.inputs = e :: rest)
    (h : step s = .next t) (hc : Safety.isCommand e i) : t.blk.err = errAfter s.blk i :=
  exec_err (s := { s with inputs := rest }) ((step_of_isCommand hs hc).symm.trans h)

/-- Everything a step can do to ERROR: nothing, a command, an active transfer's error, or the reset. -/
theorem step_err_cases {s t : State} {e : Event} {rest : List Event} (hs : s.inputs = e :: rest)
    (h : step s = .next t) :
    t.blk.err = s.blk.err ∨
    (∃ i, Safety.isCommand e i ∧ t.blk.err = errAfter s.blk i) ∨
    (e = .txError ∧ s.blk.tx_state = .inFlight ∧ s.blk.tx_done = false ∧ s.blk.tx_stalled = false) ∨
    e = .sysReset := by
  rcases step_event_cases hs h with ⟨_, _, _, -, rfl⟩ | ⟨i, hi, -⟩ | ⟨p, rfl, -⟩ | ⟨_, _, _, _, _, _, -, -, -, rfl⟩ |
    ⟨-, rfl⟩ | ⟨rfl, rfl⟩ | ⟨b, -, rfl⟩ | ⟨-, rfl⟩ | ⟨rfl, -⟩
  · exact .inl rfl
  · exact .inr (.inl ⟨i, hi, step_err_of_isCommand hs h hi⟩)
  · exact .inl (State.finish_err _ p _ _)
  · exact .inl rfl
  · exact .inl (State.txSendStep_err _)
  · rcases State.txErrorStep_cases { s with inputs := rest } with
      ⟨hf, hd, hst, -, -⟩ | ⟨hf, hd, hst, -, -⟩ | ⟨-, ht⟩
    · exact .inr (.inr (.inl ⟨rfl, hf, hd, hst⟩))
    · exact .inr (.inr (.inl ⟨rfl, hf, hd, hst⟩))
    · exact .inl (by rw [ht])
  · exact .inl (State.rxByteStep_err _ b)
  · exact .inl (State.rxTimeoutStep_err _)
  · exact .inr (.inr (.inr rfl))

/-! ### The status registers bit by bit -/

theorem bitNat_eq_toNat (b : Bool) : bitNat b = b.toNat := by cases b <;> rfl

/-- A list of bits, the lowest first, in a register wide enough for it: bit k is the k-th of the list, and 0 after
its end. -/
theorem getLsbD_setWidth_ofBoolListLE {n : Nat} {bs : List Bool} (hn : bs.length ≤ n) (k : Nat) :
    ((BitVec.ofBoolListLE bs).setWidth n).getLsbD k = bs.getD k false := by
  rw [BitVec.getLsbD_setWidth, BitVec.getLsbD_ofBoolListLE]
  by_cases hk : k < n
  · simp [hk]
  · simp [hk, List.getElem?_eq_none (show bs.length ≤ k by omega)]

/-- TX_STATUS bit by bit, the lowest first (R25). -/
theorem txStatus_getLsbD (b : Block) (k : Nat) : (txStatus b).getLsbD k =
    [busyFlag b, b.err, b.sess_open, sfailFlag b, b.tx_done, b.tx_xerr, b.sess_be].getD k false := by
  have hbits : txStatus b = (BitVec.ofBoolListLE
      [busyFlag b, b.err, b.sess_open, sfailFlag b, b.tx_done, b.tx_xerr, b.sess_be]).setWidth 32 := by
    apply BitVec.eq_of_toNat_eq
    simp only [txStatus, bitNat_eq_toNat, BitVec.ofBoolListLE, BitVec.toNat_ofNat, BitVec.toNat_setWidth,
      BitVec.toNat_concat, List.length_cons, List.length_nil]
    omega
  rw [hbits]
  exact getLsbD_setWidth_ofBoolListLE (by simp) k

/-- RX_STATUS bit by bit, the lowest first (R34). -/
theorem rxStatus_getLsbD (b : Block) (k : Nat) :
    (rxStatus b).getLsbD k = [b.rx_run, b.rx_to, b.rx_ht, b.rx_tc].getD k false := by
  have hbits : rxStatus b = (BitVec.ofBoolListLE [b.rx_run, b.rx_to, b.rx_ht, b.rx_tc]).setWidth 32 := by
    apply BitVec.eq_of_toNat_eq
    simp only [rxStatus, bitNat_eq_toNat, BitVec.ofBoolListLE, BitVec.toNat_ofNat, BitVec.toNat_setWidth,
      BitVec.toNat_concat, List.length_cons, List.length_nil]
    omega
  rw [hbits]
  exact getLsbD_setWidth_ofBoolListLE (by simp) k

theorem busyFlag_eq_true_iff (b : Block) : busyFlag b = true ↔ b.tx_state = .inFlight := by simp [busyFlag]

theorem sfailFlag_eq_true_iff (b : Block) : sfailFlag b = true ↔ b.sess_open = true ∧ b.sess_err ≠ .ok := by
  simp [sfailFlag]

theorem readRegister_txStatus (s : State) : readRegister s 0x014 = txStatus s.blk := rfl

theorem readRegister_rxStatus (s : State) : readRegister s 0x054 = rxStatus s.blk := rfl

end Sys2Proof.Machine

namespace Sys2Proof.Proofs

open Sys2Proof.Machine Sys2Proof.Safety

/-- Settles O41: the setting and clearing events by what each does to ERROR, and "by nothing else" by the list of
everything a step can do to it. -/
theorem errorLatchedUntilCleared : Obligations.ErrorLatchedUntilCleared := by
  refine ⟨fun s t e rest hs h => ⟨?sets, ?clears, ?setOnly, ?clearedOnly⟩, fun _ => rfl, rfl⟩
  case sets =>
    rintro (⟨hc, hf⟩ | ⟨hc, ho⟩ | ⟨rfl, hf, hd, hst⟩)
    · simp [step_err_of_isCommand hs h hc, errAfter, hf]
    · simp [step_err_of_isCommand hs h hc, errAfter, ho]
    · cases (step_of_cons hs).symm.trans h
      exact State.txErrorStep_err_of_active hf hd hst
  case clears =>
    rintro (hc | rfl)
    · exact step_err_of_isCommand hs h hc
    · cases (step_of_cons hs).symm.trans h
      rfl
  case setOnly =>
    intro hb ht
    rcases step_err_cases hs h with hk | ⟨i, hc, hi⟩ | herr | rfl
    · simp [hk, hb] at ht
    · rcases errAfter_raised hb (hi.symm.trans ht) with ⟨rfl, hf⟩ | ⟨rfl, ho⟩
      · exact .inl ⟨hc, hf⟩
      · exact .inr (.inl ⟨hc, ho⟩)
    · exact .inr (.inr herr)
    · cases (step_of_cons hs).symm.trans h
      cases ht
  case clearedOnly =>
    intro hb ht
    rcases step_err_cases hs h with hk | ⟨i, hc, hi⟩ | ⟨rfl, hf, hd, hst⟩ | rfl
    · simp [hk, hb] at ht
    · obtain rfl := errAfter_cleared hb (hi.symm.trans ht)
      exact .inl hc
    · cases (step_of_cons hs).symm.trans h
      simp [State.txErrorStep_err_of_active (s := { s with inputs := rest }) hf hd hst] at ht
    · exact .inr rfl

/-- Settles O16, from TX_STATUS bit by bit. -/
theorem txStatusFields : Obligations.TxStatusFields := by
  intro s v
  have hbit := txStatus_getLsbD s.blk
  rw [readRegister_txStatus]
  exact ⟨rfl, rfl, by rw [hbit]; exact busyFlag_eq_true_iff _, hbit 1, hbit 2,
    by rw [hbit]; exact sfailFlag_eq_true_iff _, hbit 4, hbit 5, hbit 6,
    fun k hk => (hbit k).trans (List.getD_eq_default _ _ hk), rfl⟩

/-- Settles O17, from RX_STATUS bit by bit. -/
theorem rxStatusFields : Obligations.RxStatusFields := by
  intro s v
  have hbit := rxStatus_getLsbD s.blk
  rw [readRegister_rxStatus]
  exact ⟨rfl, rfl, hbit 0, hbit 1, hbit 2, hbit 3,
    fun k hk => (hbit k).trans (List.getD_eq_default _ _ hk), rfl⟩

end Sys2Proof.Proofs
end

section
/-! PROOFS. Host accesses (20_memory.md R45, R46, R50): what each access to register space and to a window answers,
the bytes of a window value, and which bytes a window write leaves alone. -/

namespace Sys2Proof.Machine

/-! ### What a Host access answers, by the space it falls in -/

theorem hostRead_register {off : Offset} {w : AccessWidth} (hoff : off.toNat < 0x1000)
    (ha : w = .b32 ∧ off.toNat % 4 = 0) (s : State) :
    hostRead off w s = .next { s with rdata := readRegister s off } := by
  rw [hostRead, if_pos hoff, if_pos ha]

theorem hostWrite_register {off : Offset} {w : AccessWidth} (hoff : off.toNat < 0x1000)
    (ha : w = .b32 ∧ off.toNat % 4 = 0) (v : Word) (s : State) : hostWrite off w v s = writeRegister s off v := by
  rw [hostWrite, if_pos hoff, if_pos ha]

/-- A narrow or misaligned access to register space is refused, in both directions (R45). -/
theorem register_access_refused {off : Offset} {w : AccessWidth} (hoff : off.toNat < 0x1000)
    (ha : ¬ (w = .b32 ∧ off.toNat % 4 = 0)) (v : Word) (s : State) :
    hostRead off w s = .refused .registerAccess ∧ hostWrite off w v s = .refused .registerAccess := by
  rw [hostRead, hostWrite, if_pos hoff, if_pos hoff, if_neg ha, if_neg ha]
  exact ⟨rfl, rfl⟩

theorem hostRead_window {off : Offset} {w : AccessWidth} (hlo : 0x1000 ≤ off.toNat) (hhi : off.toNat < 0x3000)
    (ha : off.toNat % accessBytes w = 0) (s : State) :
    hostRead off w s = .next { s with rdata := readWindow s off (accessBytes w) } := by
  rw [hostRead, if_neg (Nat.not_lt.mpr hlo), if_pos hhi, if_pos ha]

theorem hostWrite_window {off : Offset} {w : AccessWidth} (hlo : 0x1000 ≤ off.toNat) (hhi : off.toNat < 0x3000)
    (ha : off.toNat % accessBytes w = 0) (v : Word) (s : State) :
    hostWrite off w v s = .next (writeWindowBytes s off.toNat (leBytes (accessBytes w) v.toNat)) := by
  rw [hostWrite, if_neg (Nat.not_lt.mpr hlo), if_pos hhi, if_pos ha]

/-- A misaligned access to a window is refused, in both directions (R46). -/
theorem window_access_refused {off : Offset} {w : AccessWidth} (hlo : 0x1000 ≤ off.toNat) (hhi : off.toNat < 0x3000)
    (ha : off.toNat % accessBytes w ≠ 0) (v : Word) (s : State) :
    hostRead off w s = .refused .misalignedWindowAccess ∧ hostWrite off w v s = .refused .misalignedWindowAccess := by
  have hge := Nat.not_lt.mpr hlo
  rw [hostRead, hostWrite, if_neg hge, if_neg hge, if_pos hhi, if_pos hhi, if_neg ha, if_neg ha]
  exact ⟨rfl, rfl⟩

/-- Every command word is answered, legal or not (R64, R65). -/
theorem runCommand_isNext (p : Port) (w : Word) (s : State) : ∃ t, runCommand p w s = .next t := by
  rcases runCommand_cases p w s with ⟨i, -, hi⟩ | ⟨_, -, he⟩
  · rw [hi]
    exact exec_isNext i s
  · exact ⟨_, he⟩

/-- Every write to a register offset is answered. -/
theorem writeRegister_isNext (s : State) (off : Offset) (v : Word) : ∃ t, writeRegister s off v = .next t := by
  unfold writeRegister
  split
  · exact runCommand_isNext .tx v s
  · exact ⟨_, rfl⟩
  · exact ⟨_, rfl⟩
  · exact runCommand_isNext .rx v s
  · exact ⟨_, rfl⟩

/-- A Host read does not depend on the value the Host read before. -/
theorem hostRead_withRdata (off : Offset) (w : AccessWidth) (s : State) (v : Word) :
    hostRead off w { s with rdata := v } = hostRead off w s := rfl

/-! ### The bytes of a value -/

/-- Taking a byte sequence's number apart gives the sequence back (R47). -/
theorem leBytes_unLe (bs : List Byte) : leBytes bs.length (unLe bs) = bs := by
  have hbe : beBytes bs.length (unLe bs) = bs.reverse := by
    refine unBe_inj _ _ (by simp) ?_
    have hlt := unBe_lt bs.reverse
    rw [List.length_reverse, show 256 = 2 ^ 8 from rfl, ← Nat.pow_mul] at hlt
    rw [unBe_beBytes, unLe, Nat.mod_eq_of_lt hlt]
  rw [leBytes, hbe, List.reverse_reverse]

/-- The k-th byte of `LE_n(v)`, for a word v, is v's k-th byte field. -/
theorem toNat_getElem_leBytes {n k : Nat} {v : Word} (h : k < (leBytes n v.toNat).length) :
    ((leBytes n v.toNat)[k]).toNat = bitField v (8 * k + 7) (8 * k) := by
  rw [getElem_leBytes, BitVec.toNat_ofNat, bitField, show 8 * k + 7 + 1 - 8 * k = 8 by omega]

/-- The k-th byte field of a register value put together from at most four bytes is the k-th of them. -/
theorem bitField_unLe {bs : List Byte} (hlen : bs.length ≤ 4) {k : Nat} (hk : k < bs.length) :
    bitField (BitVec.ofNat 32 (unLe bs)) (8 * k + 7) (8 * k) = bs[k].toNat := by
  have hlt : unLe bs < 2 ^ 32 := calc
    unLe bs < 256 ^ bs.reverse.length := unBe_lt bs.reverse
    _ = 256 ^ bs.length := by rw [List.length_reverse]
    _ ≤ 256 ^ 4 := Nat.pow_le_pow_right (by decide) hlen
  have hw : (BitVec.ofNat 32 (unLe bs)).toNat = unLe bs := by rw [BitVec.toNat_ofNat, Nat.mod_eq_of_lt hlt]
  have hbs : leBytes bs.length (BitVec.ofNat 32 (unLe bs)).toNat = bs := by rw [hw, leBytes_unLe]
  rw [← toNat_getElem_leBytes (n := bs.length) (by simpa using hk)]
  simp only [hbs]

/-! ### Reading window bytes -/

theorem accessBytes_le_four (w : AccessWidth) : accessBytes w ≤ 4 := by cases w <;> decide

/-- An aligned access that starts in STAGE does not reach RXOUT: the window border is a multiple of every width. -/
theorem aligned_access_lt_rxout {off k : Nat} {w : AccessWidth} (ha : off % accessBytes w = 0) (hoff : off < 0x2000)
    (hk : k < accessBytes w) : off + k < 0x2000 := by
  cases w <;> simp only [accessBytes] at ha hk <;> omega

theorem Params.stageCap_le {c : Params} (h : c.wf = true) : c.stageCap ≤ 0x1000 := by
  simp only [Params.wf, decide_eq_true_eq] at h
  omega

theorem Params.rxoutCap_le {c : Params} (h : c.wf = true) : c.rxoutCap ≤ 0x1000 := by
  simp only [Params.wf, decide_eq_true_eq] at h
  omega

/-- A byte of the STAGE window: 0 beyond the capacity (R44, R46). -/
theorem windowByte_stage {s : State} {o : Nat} (hlo : 0x1000 ≤ o) (hhi : o < 0x2000) :
    windowByte s o = if o < 0x1000 + s.cfg.stageCap then s.byteAt .stage (o - 0x1000) else 0 := by
  simp [windowByte, hlo, hhi, Nat.not_le.mpr hhi]

/-- A byte of the RXOUT window: 0 beyond the capacity (R44, R46). -/
theorem windowByte_rxOut {s : State} (hwf : s.cfg.wf = true) {o : Nat} (hlo : 0x2000 ≤ o) :
    windowByte s o = if o < 0x2000 + s.cfg.rxoutCap then s.byteAt .rxOut (o - 0x2000) else 0 := by
  have hcap := Params.rxoutCap_le hwf
  by_cases ho : o < 0x2000 + s.cfg.rxoutCap
  · rw [windowByte, if_neg (by omega), if_pos (by omega), if_pos ho]
  · rw [windowByte, if_neg (by omega), if_neg (by omega), if_neg ho]

/-- The k-th byte field of a window read is the k-th byte it covers (R46, R47). -/
theorem bitField_readWindow (s : State) (off : Offset) {n k : Nat} (hn : n ≤ 4) (hk : k < n) :
    bitField (readWindow s off n) (8 * k + 7) (8 * k) = (windowByte s (off.toNat + k)).toNat := by
  rw [readWindow, bitField_unLe (by simpa using hn) (by simpa using hk)]
  simp

/-! ### Writing window bytes -/

/-- Window bytes written leave alone every other memory, the STAGE bytes they do not cover, and those beyond the
capacity (R46). -/
theorem byteAt_writeWindowBytes_outside (bs : List Byte) (s : State) (o : Nat) {r : Region} {a : Nat}
    (h : r = .stage → 0x1000 + a < o ∨ o + bs.length ≤ 0x1000 + a ∨ s.cfg.stageCap ≤ a) :
    (writeWindowBytes s o bs).byteAt r a = s.byteAt r a := by
  induction bs generalizing s o with
  | nil => rfl
  | cons b bs ih =>
    simp only [List.length_cons] at h
    rw [writeWindowBytes]
    split
    · rw [ih _ _ (fun hr => by have := h hr; rw [State.putBytes_cfg]; omega),
        State.byteAt_putBytes_outside s _ _ _ [b] (fun hr => by have := h hr; rw [List.length_singleton]; omega)]
    · exact ih _ _ fun hr => by have := h hr; omega

/-- A window byte written within STAGE's capacity is stored (R46). -/
theorem byteAt_writeWindowBytes_inside (bs : List Byte) (s : State) {o k : Nat} (hlo : 0x1000 ≤ o)
    (hk : k < bs.length) (hcap : o + k < 0x1000 + s.cfg.stageCap) (hhi : o + k < 0x2000) :
    (writeWindowBytes s o bs).byteAt .stage (o + k - 0x1000) = bs[k] := by
  induction bs generalizing s o k with
  | nil => cases hk
  | cons b bs ih =>
    rw [writeWindowBytes, if_pos (by omega)]
    cases k with
    | zero =>
      rw [byteAt_writeWindowBytes_outside bs _ _ (fun _ => by omega)]
      simpa using s.byteAt_putBytes_inside .stage (o - 0x1000) [b] 0 Nat.zero_lt_one
    | succ k =>
      rw [← Nat.add_assoc, Nat.add_right_comm]
      exact ih _ (by omega) (by simpa using hk) (by rw [State.putBytes_cfg]; omega) (by omega)

end Sys2Proof.Machine

namespace Sys2Proof.Proofs

open Sys2Proof.Machine Sys2Proof.Safety

/-- Settles O12: both sides of the width and alignment test of register space. -/
theorem registerAccessWidth : Obligations.RegisterAccessWidth := by
  intro off w v s hoff
  split
  next ha =>
    rw [hostWrite_register hoff ha]
    exact ⟨⟨_, hostRead_register hoff ha s⟩, writeRegister_isNext s off v⟩
  next ha => exact register_access_refused hoff ha v s

/-- The bytes of an aligned window read: each comes from the window the access starts in (R46). -/
theorem bitField_readWindow_of_aligned {off : Offset} {w : AccessWidth} {s : State} (hwf : s.cfg.wf = true)
    (hlo : 0x1000 ≤ off.toNat) (ha : off.toNat % accessBytes w = 0) {k : Nat} (hk : k < accessBytes w) :
    bitField (readWindow s off (accessBytes w)) (8 * k + 7) (8 * k) =
      (if off.toNat < 0x2000 then
        (if off.toNat + k < 0x1000 + s.cfg.stageCap then (s.byteAt .stage (off.toNat + k - 0x1000)).toNat else 0)
      else
        (if off.toNat + k < 0x2000 + s.cfg.rxoutCap then (s.byteAt .rxOut (off.toNat + k - 0x2000)).toNat
         else 0)) := by
  rw [bitField_readWindow s off (accessBytes_le_four w) hk]
  split
  next hst =>
    rw [windowByte_stage (by omega) (aligned_access_lt_rxout ha hst hk)]
    split <;> rfl
  next hrx =>
    rw [windowByte_rxOut hwf (by omega)]
    split <;> rfl

/-- Settles O13: a misaligned access is refused, a read's bytes are the window's, and a write stores the STAGE bytes it
covers within the capacity and no other. -/
theorem windowAccessBytewise : Obligations.WindowAccessBytewise := by
  intro off w v s hwf hlo hhi
  split
  next ha => exact window_access_refused hlo hhi ha v s
  next ha =>
    have ha : off.toNat % accessBytes w = 0 := Decidable.not_not.mp ha
    refine ⟨⟨_, hostRead_window hlo hhi ha s, rfl, fun k hk => bitField_readWindow_of_aligned hwf hlo ha hk⟩,
      ⟨_, hostWrite_window hlo hhi ha v s, writeWindowBytes_eq _ s _, fun r a hout => ?_, fun k hk hin => ?_⟩⟩
    · exact byteAt_writeWindowBytes_outside _ s _ (by simpa using hout)
    · have hcap := Params.stageCap_le hwf
      rw [byteAt_writeWindowBytes_inside _ s hlo (by simpa using hk) hin (by omega), toNat_getElem_leBytes]

/-- A Host write outside the command registers changes only TX_ARG0, TX_ARG1 or the STAGE bytes it covers (R50). -/
theorem hostWrite_frame {off : Offset} {w : AccessWidth} {v : Word} {s t : State} (h : hostWrite off w v s = .next t)
    (htx : off ≠ cmdOffset .tx) (hrx : off ≠ cmdOffset .rx) :
    t = { s with blk := { s.blk with
      tx_arg0 := t.blk.tx_arg0, tx_arg1 := t.blk.tx_arg1, stage := t.blk.stage } } ∧
    t.blk.tx_arg0 = (if off = 0x004 then v else s.blk.tx_arg0) ∧
    t.blk.tx_arg1 = (if off = 0x008 then v else s.blk.tx_arg1) ∧
    (∀ r a, (r = .stage → 0x1000 + a < off.toNat ∨ off.toNat + accessBytes w ≤ 0x1000 + a) →
      t.byteAt r a = s.byteAt r a) := by
  rcases hostWrite_cases h with ⟨p, hp, -, -⟩ | ⟨rfl, -, rfl⟩ | ⟨rfl, -, rfl⟩ | ⟨-, -, -, h4, h8, rfl⟩ |
    ⟨hlo, -, -, rfl⟩
  next => -- a command register, which the hypotheses exclude
    cases p with
    | tx => exact absurd hp htx
    | rx => exact absurd hp hrx
  next => -- TX_ARG0
    exact ⟨rfl, rfl, rfl, fun r a _ => sameBytes_of_memories rfl rfl rfl rfl rfl r a⟩
  next => -- TX_ARG1
    exact ⟨rfl, rfl, rfl, fun r a _ => sameBytes_of_memories rfl rfl rfl rfl rfl r a⟩
  next => -- an ignored offset of register space
    rw [if_neg h4, if_neg h8]
    exact ⟨rfl, rfl, rfl, fun _ _ _ => rfl⟩
  next => -- a window
    have heq := writeWindowBytes_eq (leBytes (accessBytes w) v.toNat) s off.toNat
    have h4 : off ≠ 0x004 := by rintro rfl; revert hlo; decide
    have h8 : off ≠ 0x008 := by rintro rfl; revert hlo; decide
    rw [if_neg h4, if_neg h8]
    refine ⟨by rw [heq], by rw [heq], by rw [heq], fun r a hout => byteAt_writeWindowBytes_outside _ s _ fun hr => ?_⟩
    rw [length_leBytes]
    exact (hout hr).imp_right .inl

/-- Settles O10: a read changes only the value the Host holds, a write has its frame, and the event behind a command's
event is the next one taken. -/
theorem accessSideEffects : Obligations.AccessSideEffects := by
  refine ⟨fun off w s t h => ?read, fun off w v s t h htx hrx => hostWrite_frame h htx hrx,
    fun s t rest p w i hs hd h => ?twice⟩
  case read =>
    have ht := hostRead_next h
    exact ⟨ht, by rw [ht, hostRead_withRdata, h, ← ht]⟩
  case twice =>
    have hins : s = s.withInputs (commandEvent p w :: commandEvent p w :: rest) := by
      rw [← hs]
      rfl
    rw [hins] at h
    rw [step_of_cons (step_inputs _ h)]
    exact (hostWrite_command p w _).trans (runCommand_ok hd _)

end Sys2Proof.Proofs
end

section
/-! PROOFS. Illegal words (30_encoding.md R65): the rule's own definition of them against the command map, and the
commands whose LEN exceeds their window. -/

namespace Sys2Proof.Machine

open Sys2Proof.Safety

/-! ### Illegal words against the command map -/

/-- A row's opcode is one of its port's (R63). -/
theorem row_opc_mem_opcodesOf {r : CommandRow} (hr : r ∈ commandMap) : r.opc ∈ opcodesOf r.port := by
  simp only [commandMap, List.mem_cons, List.not_mem_nil, or_false] at hr
  rcases hr with rfl | rfl | rfl | rfl | rfl | rfl | rfl | rfl | rfl | rfl | rfl | rfl | rfl | rfl | rfl <;> decide

/-- On a row's opcode, the reserved bits R61 names are those of the row's format. -/
theorem reservedBitSet_iff_of_row {r : CommandRow} (hr : r ∈ commandMap) {w : Word} (ho : r.opc = bitField w 31 24) :
    reservedBitSet w ↔ reservedClear r.format w = false := by
  rw [reservedBitSet, ← ho]
  simp only [commandMap, List.mem_cons, List.not_mem_nil, or_false] at hr
  rcases hr with rfl | rfl | rfl | rfl | rfl | rfl | rfl | rfl | rfl | rfl | rfl | rfl | rfl | rfl | rfl <;>
    simp [lengthOpcodes, reservedClear]

/-- No illegal word decodes (R65): the row decoding would find has the word's opcode on the port, and its reserved
bits clear. -/
theorem decode_error_of_illegalWord {p : Port} {w : Word} (h : illegalWord p w) : ∃ e, decode p w = .error e := by
  cases hd : decode p w with
  | error e => exact ⟨e, rfl⟩
  | ok i =>
    obtain ⟨r, hr, ho, rfl, hclear, -⟩ := decode_ok_cases hd
    rcases h with hopc | hres
    · exact absurd (ho ▸ row_opc_mem_opcodesOf hr) hopc
    · rw [(reservedBitSet_iff_of_row hr ho).mp hres] at hclear
      cases hclear

/-- An unassigned opcode is no port's (R63, R65). -/
theorem not_mem_opcodesOf_of_unassigned {opc : Nat} (h : unassignedOpcode opc) (p : Port) : opc ∉ opcodesOf p := by
  intro hmem
  unfold unassignedOpcode at h
  cases p <;> simp only [opcodesOf, List.mem_cons, List.not_mem_nil, or_false] at hmem <;> omega

/-- The step at an illegal word's event reports ILLEGAL_COMMAND and 0 on the port (R65). -/
theorem step_of_illegalWord {p : Port} {w : Word} {s : State} {rest : List Event} (h : illegalWord p w)
    (hs : s.inputs = commandEvent p w :: rest) :
    step s = .next (State.finish { s with inputs := rest } p .illegalCommand 0) := by
  obtain ⟨e, he⟩ := decode_error_of_illegalWord h
  rw [step_of_cons hs]
  exact (hostWrite_command p w _).trans (runCommand_error he _)

/-! ### A LEN beyond its window -/

/-- A command that reads LEN bytes of STAGE, with LEN beyond STAGE_CAP (R72, R73, R83). -/
theorem exec_beyond_stage {n : Nat} {s : State} (h : s.cfg.stageCap < n) {i : Instr}
    (hi : i ∈ [Instr.crcCalc n, .encodeFrame n, .txAppendBytes n]) :
    exec i s = .next (s.finishTx .illegalCommand 0) := by
  simp only [List.mem_cons, List.not_mem_nil, or_false] at hi
  rcases hi with rfl | rfl | rfl <;> exact congrArg Host.Outcome.next (if_pos h)

/-- A command that uses LEN bytes of RXOUT, with LEN beyond RXOUT_CAP (R74, R98). -/
theorem exec_beyond_rxout {n : Nat} {s : State} (h : s.cfg.rxoutCap < n) {i : Instr}
    (hi : i ∈ [Instr.decodeFrame n, .rxRead n]) : exec i s = .next (s.finishRx .illegalCommand 0) := by
  simp only [List.mem_cons, List.not_mem_nil, or_false] at hi
  rcases hi with rfl | rfl <;> exact congrArg Host.Outcome.next (if_pos h)

end Sys2Proof.Machine

namespace Sys2Proof.Proofs

open Sys2Proof.Machine Sys2Proof.Safety

/-- Settles O3: an illegal word does not decode, an unassigned opcode stands in neither port's list, and a LEN beyond
its window takes the first branch of each command that has one. -/
theorem illegalWordHasNoOtherEffect : Obligations.IllegalWordHasNoOtherEffect := by
  refine ⟨fun p w s rest h hs => ?illegal, fun p w h => .inl (not_mem_opcodesOf_of_unassigned h p),
    fun n s hn i hi => ⟨_, exec_beyond_stage hn hi, txReports_finishTx s _ _⟩,
    fun n s hn i hi => ⟨_, exec_beyond_rxout hn hi, rxReports_finishRx s _ _⟩⟩
  case illegal =>
    rw [step_of_illegalWord h hs]
    cases p <;> rfl

end Sys2Proof.Proofs
end

section
/-! PROOFS. The frame commands ENCODE and DECODE (40_codec.md R73, R74): the word of a length command, an append's
outcome, and a byte sequence taken apart into payload and trailer. -/

namespace Sys2Proof.Machine

open Sys2Proof.Safety

/-! ### The word of a length command -/

/-- A row of Format L: the opcode over LEN is the command's word, both ways (R61 to R64). -/
theorem hasWord_of_lengthRow {opc n : Nat} {p : Port} {make : Nat → Instr} (hr : ⟨opc, p, .l make⟩ ∈ commandMap)
    (ho : opc < 2 ^ 8) (hn : n < 2 ^ 16) (hopc : (make n).opc = opc) (hbody : (make n).body = n) :
    hasWord (make n) p (opc * 2 ^ 24 + n) := by
  have hb : n < 2 ^ 24 := by omega
  have hclear : reservedClear (.l make) (BitVec.ofNat 32 (opc * 2 ^ 24 + n)) = true := by
    rw [reservedClear, bitField_body opc n 23 16 ho hb (by decide) (by decide), decide_eq_true_eq]
    omega
  have hlen : operandsOf (.l make) (BitVec.ofNat 32 (opc * 2 ^ 24 + n)) = make n := by
    rw [operandsOf, bitField_body opc n 15 0 ho hb (by decide) (by decide)]
    congr 1
    omega
  refine ⟨?_, by rw [encode, hopc, hbody]⟩
  rw [decode_row hr (bitField_opc opc n ho hb).symm hclear, hlen]

/-! ### Payload and trailer of a byte sequence -/

/-- A sequence of bytes is its first part and what follows. -/
theorem State.bytesAt_add (s : State) (r : Region) (a m n : Nat) :
    s.bytesAt r a (m + n) = s.bytesAt r a m ++ s.bytesAt r (a + m) n := by
  simp [State.bytesAt, List.range_add, Nat.add_assoc]

/-- Two sequences of one length are equal when their bytes are, in order. -/
theorem State.bytesAt_eq_bytesAt_iff (s t : State) (r r' : Region) (a b n : Nat) :
    t.bytesAt r a n = s.bytesAt r' b n ↔ ∀ k, k < n → t.byteAt r (a + k) = s.byteAt r' (b + k) := by
  simp [State.bytesAt]

/-- The bytes of a region hold a frame when they hold its payload and, behind it, the CRC big-endian (R70). -/
theorem State.bytesAt_eq_frame_iff (t : State) (r : Region) (a : Nat) (p : CrcParams) (payload : List Byte) :
    t.bytesAt r a (payload.length + 4) = frame p payload ↔
      t.bytesAt r a payload.length = payload ∧
      t.bytesAt r (a + payload.length) 4 = beBytes 4 (crc32 p payload).toNat := by
  rw [State.bytesAt_add, frame]
  constructor
  · intro h
    exact List.append_inj h (by simp)
  · rintro ⟨hp, ht⟩
    rw [hp, ht]

/-- The bytes of a region are a valid frame when there are four of them at least and the last four, read big-endian,
are the CRC of those before (R71). -/
theorem validFrame_bytesAt_iff (p : CrcParams) (s : State) (r : Region) (a n : Nat) :
    validFrame p (s.bytesAt r a n) = true ↔
      4 ≤ n ∧ (crc32 p (s.bytesAt r a (n - 4))).toNat = unBe (s.bytesAt r (a + (n - 4)) 4) := by
  by_cases h4 : 4 ≤ n
  · obtain ⟨m, rfl⟩ := Nat.exists_eq_add_of_le' h4
    simp [validFrame, State.bytesAt_add s r a m 4]
  · simp [validFrame, h4]

/-! ### What the frame commands answer -/

/-- `session_append` does what R80 says. -/
theorem appendOutcome_sessionAppend (s : State) (bytes : List Byte) (fault : ResultCode) :
    appendOutcome s (s.sessionAppend bytes fault) bytes fault := by
  unfold appendOutcome
  rcases s.sessionAppend_cases bytes fault with ⟨ho, h⟩ | ⟨ho, he, h⟩ | ⟨ho, he, hc, h⟩ | ⟨ho, he, hc, h⟩
  case inl => -- no session
    rw [if_pos ho, h]
    exact txReports_finishTx s _ _
  case inr.inl => -- a failed session
    rw [if_neg (by simp [ho]), if_pos he, h]
    exact txReports_finishTx s _ _
  case inr.inr.inl => -- no room
    rw [if_neg (by simp [ho]), if_neg (by simp [he]), if_pos hc, h]
    exact ⟨rfl, sameBytes_of_memories rfl rfl rfl rfl rfl⟩
  case inr.inr.inr => -- appended
    have hput (r : Region) (a : Nat) : (s.sessionAppend bytes fault).byteAt r a =
        (s.putBytes .txBuf s.blk.tx_len bytes).byteAt r a := by
      rw [h]
      exact sameBytes_of_memories (s := s.putBytes .txBuf s.blk.tx_len bytes) rfl rfl rfl rfl rfl r a
    rw [if_neg (by simp [ho]), if_neg (by simp [he]), if_neg (Nat.not_lt.mpr hc)]
    refine ⟨by rw [h], ?_, fun r a hout => ?_⟩
    · rw [State.bytesAt_congr fun k _ => hput .txBuf (s.blk.tx_len + k)]
      exact State.bytesAt_putBytes s .txBuf s.blk.tx_len bytes
    · rw [hput]
      exact State.byteAt_putBytes_outside s .txBuf r s.blk.tx_len bytes hout

/-- ENCODE within STAGE is one append of the frame (R73). -/
theorem exec_encodeFrame_within {n : Nat} {s : State} (h : n ≤ s.cfg.stageCap) :
    exec (.encodeFrame n) s =
      .next (s.sessionAppend (frame s.cfg.crc (s.bytesAt .stage 0 n)) .serializationFault) :=
  congrArg Host.Outcome.next (if_neg (Nat.not_lt.mpr h))

/-- DECODE of fewer bytes than a trailer has (R74). -/
theorem exec_decodeFrame_short {n : Nat} {s : State} (h : n ≤ s.cfg.rxoutCap) (h4 : n < 4) :
    exec (.decodeFrame n) s = .next (s.finishRx .integrityFault 0) :=
  congrArg Host.Outcome.next ((if_neg (Nat.not_lt.mpr h)).trans (if_pos h4))

/-- DECODE of a payload and a trailer: the computed CRC, with OK if the trailer is it (R74). -/
theorem exec_decodeFrame_within {n : Nat} {s : State} (h : n ≤ s.cfg.rxoutCap) (h4 : 4 ≤ n) :
    exec (.decodeFrame n) s = .next (s.finishRx
      (if (crc32 s.cfg.crc (s.bytesAt .rxOut 0 (n - 4))).toNat = unBe (s.bytesAt .rxOut (n - 4) 4) then .ok
        else .integrityFault)
      (crc32 s.cfg.crc (s.bytesAt .rxOut 0 (n - 4)))) :=
  congrArg Host.Outcome.next ((if_neg (Nat.not_lt.mpr h)).trans (if_neg (Nat.not_lt.mpr h4)))

end Sys2Proof.Machine

namespace Sys2Proof.Proofs

open Sys2Proof.Machine Sys2Proof.Safety

/-- Settles O22: within STAGE, ENCODE's outcome is that of an append of n + 4 bytes, and the bytes appended are the
payload and its trailer. -/
theorem encodeAppendsFrame : Obligations.EncodeAppendsFrame := by
  intro n s
  refine ⟨fun hn => hasWord_of_lengthRow (opc := 0x02) (by simp [commandMap]) (by decide) hn rfl rfl, ?_⟩
  by_cases hn : s.cfg.stageCap < n
  case pos =>
    refine ⟨_, exec_beyond_stage hn (by simp), ?_⟩
    rw [if_pos hn]
    exact txReports_finishTx s _ _
  case neg =>
    refine ⟨_, exec_encodeFrame_within (Nat.not_lt.mp hn), ?_⟩
    have hout := appendOutcome_sessionAppend s (frame s.cfg.crc (s.bytesAt .stage 0 n)) .serializationFault
    rw [if_neg hn]
    generalize s.sessionAppend (frame s.cfg.crc (s.bytesAt .stage 0 n)) .serializationFault = t at hout ⊢
    simp only [appendOutcome, length_frame, State.length_bytesAt, ← Nat.add_assoc] at hout
    split_ifs at hout ⊢ with ho he hc
    · exact hout
    · exact hout
    · exact hout
    · obtain ⟨hstate, hbytes, hsame⟩ := hout
      have hframe := (t.bytesAt_eq_frame_iff .txBuf s.blk.tx_len s.cfg.crc (s.bytesAt .stage 0 n)).mp
        (by rwa [State.length_bytesAt])
      rw [State.length_bytesAt, State.bytesAt_eq_bytesAt_iff] at hframe
      obtain ⟨hpayload, htrailer⟩ := hframe
      exact ⟨hstate, fun k hk => by simpa using hpayload k hk, htrailer, hsame⟩

/-- Settles O23, by DECODE's three guards; the last test is the definition of a valid frame on RXOUT's bytes. -/
theorem decodeVerdict : Obligations.DecodeVerdict := by
  intro n s
  refine ⟨fun hn => hasWord_of_lengthRow (opc := 0x03) (by simp [commandMap]) (by decide) hn rfl rfl, ?_⟩
  rw [validFrame_bytesAt_iff, Nat.zero_add]
  by_cases hn : s.cfg.rxoutCap < n
  case pos =>
    refine ⟨_, exec_beyond_rxout hn (by simp), ?_, by simp [Nat.not_le.mpr hn]⟩
    rw [if_pos hn]
    exact rxReports_finishRx s _ _
  case neg =>
    have hle := Nat.not_lt.mp hn
    by_cases h4 : n < 4
    · refine ⟨_, exec_decodeFrame_short hle h4, ?_, by simp [Nat.not_le.mpr h4]⟩
      rw [if_neg hn, if_pos h4]
      exact rxReports_finishRx s _ _
    · have hge := Nat.not_lt.mp h4
      refine ⟨_, exec_decodeFrame_within hle hge, ?_, ?_⟩
      · rw [if_neg hn, if_neg h4]
        split_ifs
        · exact rxReports_finishRx s _ _
        · exact rxReports_finishRx s _ _
      · simp [hle, hge]

end Sys2Proof.Proofs
end

section
/-! PROOFS. The transmit transfer manager (41_tx_transfer.md R83 to R85, R93, R94): what an append appends, when the
transfer state changes, and a write issued while a transfer is in flight. -/

namespace Sys2Proof.Machine

open Sys2Proof.Safety

/-! ### The words of the append commands -/

/-- A command decodes from its own encoding when it has a word (R62 to R64). -/
theorem decode_encode_of_hasWord {i : Instr} {p : Port} {w : Nat} (h : hasWord i p w) :
    decode p (encode i) = .ok i := by
  obtain ⟨hdecode, hencode⟩ := h
  rw [hencode, hdecode]

theorem hasWord_encodeFrame {n : Nat} (hn : n < 2 ^ 16) : hasWord (.encodeFrame n) .tx (0x02000000 + n) :=
  hasWord_of_lengthRow (opc := 0x02) (by simp [commandMap]) (by decide) hn rfl rfl

theorem hasWord_txAppendBytes {n : Nat} (hn : n < 2 ^ 16) : hasWord (.txAppendBytes n) .tx (0x12000000 + n) :=
  hasWord_of_lengthRow (opc := 0x12) (by simp [commandMap]) (by decide) hn rfl rfl

/-- The eight words of Format I (R61, R62). -/
theorem hasWord_txAppendInt (e : Endian) (w : IntWidth) :
    hasWord (.txAppendInt e w) .tx (0x13000000 + 4 * e.field + w.field) := by
  cases e <;> cases w <;> exact ⟨rfl, rfl⟩

/-- A well-formed append-class command is written to TX_CMD as its encoding. -/
theorem decode_encode_of_append {i : Instr} (hwf : i.wf = true) (ha : appendClass i = true) :
    decode .tx (encode i) = .ok i := by
  cases i with
  | encodeFrame n => exact decode_encode_of_hasWord (hasWord_encodeFrame (by simpa [Instr.wf, lenFits] using hwf))
  | txAppendBytes n => exact decode_encode_of_hasWord (hasWord_txAppendBytes (by simpa [Instr.wf, lenFits] using hwf))
  | txAppendInt e w => exact decode_encode_of_hasWord (hasWord_txAppendInt e w)
  | _ => cases ha

/-! ### The bytes of an integer append -/

theorem widthBytes_eq_two_pow (w : IntWidth) : widthBytes w = 2 ^ w.field := by cases w <;> rfl

@[simp] theorem length_intBytes (e : Endian) (n v : Nat) : (intBytes e n v).length = n := by
  cases e <;> simp [intBytes]

/-- Cutting a number to n bytes leaves each of its n lowest bytes (R62). -/
theorem byte_of_mod_two_pow {n j : Nat} (hj : j < n) (v : Nat) :
    v % 2 ^ (8 * n) / 2 ^ (8 * j) % 2 ^ 8 = v / 2 ^ (8 * j) % 2 ^ 8 := by
  have hsplit : 8 * n = 8 * j + (8 + 8 * (n - 1 - j)) := by omega
  rw [hsplit, Nat.pow_add, Nat.mod_mul_right_div_self, Nat.pow_add, Nat.mod_mul_right_mod]

/-! ### What the append commands answer -/

/-- TX_APPEND_BYTES within STAGE is one append (R83). -/
theorem exec_txAppendBytes_within {n : Nat} {s : State} (h : n ≤ s.cfg.stageCap) :
    exec (.txAppendBytes n) s = .next (s.sessionAppend (s.bytesAt .stage 0 n) .bufferOverflow) :=
  congrArg Host.Outcome.next (if_neg (Nat.not_lt.mpr h))

/-- An append in a failed session reports the first error and appends nothing (R80). -/
theorem State.sessionAppend_of_failed {s : State} (hf : failedSession s.blk = true) (bytes : List Byte)
    (fault : ResultCode) : s.sessionAppend bytes fault = s.finishTxLen s.blk.sess_err := by
  obtain ⟨ho, he⟩ := (sfailFlag_eq_true_iff s.blk).mp hf
  rcases s.sessionAppend_cases bytes fault with ⟨hn, -⟩ | ⟨-, -, h⟩ | ⟨-, hok, -⟩ | ⟨-, hok, -⟩
  · simp [ho] at hn
  · exact h
  · exact absurd hok he
  · exact absurd hok he

/-- In a failed session an append-class command only reports (R80, R83). -/
theorem exec_append_of_failed {i : Instr} {s : State} (ha : appendClass i = true) (hf : failedSession s.blk = true) :
    ∃ c v, exec i s = .next (s.finishTx c v) := by
  have happend (bytes : List Byte) (fault : ResultCode) : ∃ c v, s.sessionAppend bytes fault = s.finishTx c v :=
    ⟨_, _, s.sessionAppend_of_failed hf bytes fault⟩
  have hguarded (n : Nat) (bytes : List Byte) (fault : ResultCode) :
      ∃ c v, (if s.cfg.stageCap < n then s.finishTx .illegalCommand 0 else s.sessionAppend bytes fault) =
        s.finishTx c v := by
    split
    · exact ⟨_, _, rfl⟩
    · exact happend bytes fault
  cases i with
  | encodeFrame n =>
    obtain ⟨c, v, h⟩ := hguarded n (frame s.cfg.crc (s.bytesAt .stage 0 n)) .serializationFault
    exact ⟨c, v, congrArg Host.Outcome.next h⟩
  | txAppendBytes n =>
    obtain ⟨c, v, h⟩ := hguarded n (s.bytesAt .stage 0 n) .bufferOverflow
    exact ⟨c, v, congrArg Host.Outcome.next h⟩
  | txAppendInt e w =>
    obtain ⟨c, v, h⟩ := happend (intBytes e (widthBytes w) (intOperand w s.blk)) .bufferOverflow
    exact ⟨c, v, congrArg Host.Outcome.next h⟩
  | _ => cases ha

/-! ### What TX_COMMIT and TX_COMPLETE answer -/

theorem exec_txCommit_noSession {s : State} (ho : s.blk.sess_open = false) :
    exec .txCommit s = .next (s.finishTx .sequenceError 0) := congrArg Host.Outcome.next (if_pos ho)

/-- TX_COMMIT of a good session starts the transfer (R85). -/
theorem exec_txCommit_good {s : State} (ho : ¬ s.blk.sess_open = false) (he : s.blk.sess_err = .ok) :
    exec .txCommit s = .next (s.endSession.startTransfer.finishTxLen .ok) :=
  congrArg Host.Outcome.next ((if_neg ho).trans (if_pos he))

/-- TX_COMMIT of a failed session starts none (R85). -/
theorem exec_txCommit_failed {s : State} (ho : ¬ s.blk.sess_open = false) (he : ¬ s.blk.sess_err = .ok) :
    exec .txCommit s = .next (s.failSession s.blk.sess_err) :=
  congrArg Host.Outcome.next ((if_neg ho).trans (if_neg he))

/-- A session's end without a transfer does what R85 and R86 say. -/
theorem failOutcome_failSession (s : State) (e : ResultCode) : failOutcome s (s.failSession e) e :=
  ⟨s.failSession_eq e, sameBytes_of_memories rfl rfl rfl rfl rfl⟩

theorem exec_txComplete_idle {s : State} (h : s.blk.tx_state = .idle) :
    exec .txComplete s = .next (s.finishTxLen .notStarted) := by
  simp [exec, execTxComplete, h]

theorem exec_txComplete_busy {s : State} (hf : s.blk.tx_state = .inFlight) (hd : s.blk.tx_done = false) :
    exec .txComplete s = .next (s.finishTxLen .busy) := by
  simp [exec, execTxComplete, hf, hd]

/-- TX_COMPLETE of a finished transfer reclaims the buffer (R87). -/
theorem exec_txComplete_done {s : State} (hf : s.blk.tx_state = .inFlight) (hd : s.blk.tx_done = true) :
    exec .txComplete s = .next (s.reclaim.finishTx .ok 0) := by
  simp [exec, execTxComplete, hf, hd]

/-! ### The transfer state after each shared operation -/

@[simp] theorem State.openSession_tx_state (s : State) (be : Bool) :
    (s.openSession be).blk.tx_state = s.blk.tx_state := by
  rcases s.openSession_cases be with ⟨-, h⟩ | ⟨-, -, h⟩ | ⟨-, -, h⟩ <;> simp [h]

@[simp] theorem State.sessionAppend_tx_state (s : State) (bytes : List Byte) (fault : ResultCode) :
    (s.sessionAppend bytes fault).blk.tx_state = s.blk.tx_state := by
  rcases s.sessionAppend_cases bytes fault with ⟨-, h⟩ | ⟨-, -, h⟩ | ⟨-, -, -, h⟩ | ⟨-, -, -, h⟩ <;> simp [h]

@[simp] theorem State.failSession_tx_state (s : State) (e : ResultCode) :
    (s.failSession e).blk.tx_state = s.blk.tx_state := rfl

@[simp] theorem State.finish_tx_state (s : State) (p : Port) (c : ResultCode) (v : Word) :
    (s.finish p c v).blk.tx_state = s.blk.tx_state := by cases p <;> rfl

@[simp] theorem State.txSendStep_tx_state (s : State) : s.txSendStep.blk.tx_state = s.blk.tx_state := by
  rcases s.txSendStep_cases with ⟨-, -, -, -, h⟩ | ⟨-, h⟩ <;> rw [h]

@[simp] theorem State.txErrorStep_tx_state (s : State) : s.txErrorStep.blk.tx_state = s.blk.tx_state := by
  rcases s.txErrorStep_cases with ⟨-, -, -, -, h⟩ | ⟨-, -, -, -, h⟩ | ⟨-, h⟩ <;> rw [h]

@[simp] theorem State.rxByteStep_tx_state (s : State) (b : Byte) :
    (s.rxByteStep b).blk.tx_state = s.blk.tx_state := by
  rcases s.rxByteStep_cases b with ⟨-, h⟩ | ⟨-, h⟩ <;> rw [h]

@[simp] theorem State.rxTimeoutStep_tx_state (s : State) : s.rxTimeoutStep.blk.tx_state = s.blk.tx_state := by
  rcases s.rxTimeoutStep_cases with ⟨-, h⟩ | ⟨-, h⟩ <;> rw [h]

/-! ### The transfer state after each command and each step -/

/-- The transfer state after a command: TX_COMMIT of a good session takes it to InFlight, TX_COMPLETE of a finished
transfer back to Idle, and every other command keeps it (R21). -/
def txStateAfter (b : Block) : Instr → TxState
  | .txCommit => if goodSession b then .inFlight else b.tx_state
  | .txComplete => if b.tx_done then .idle else b.tx_state
  | _ => b.tx_state

theorem exec_txCommit_tx_state {s t : State} (h : exec .txCommit s = .next t) :
    t.blk.tx_state = if goodSession s.blk then .inFlight else s.blk.tx_state := by
  by_cases ho : s.blk.sess_open = false
  · cases (exec_txCommit_noSession ho).symm.trans h
    simp [goodSession, ho]
  · by_cases he : s.blk.sess_err = .ok
    · cases (exec_txCommit_good ho he).symm.trans h
      simp [goodSession, ho, he]
    · cases (exec_txCommit_failed ho he).symm.trans h
      simp [goodSession, he]

theorem exec_txComplete_tx_state {s t : State} (h : exec .txComplete s = .next t) :
    t.blk.tx_state = if s.blk.tx_done then .idle else s.blk.tx_state := by
  cases hf : s.blk.tx_state with
  | idle =>
    cases (exec_txComplete_idle hf).symm.trans h
    simp [hf]
  | inFlight =>
    cases hd : s.blk.tx_done with
    | false =>
      cases (exec_txComplete_busy hf hd).symm.trans h
      simp [hf]
    | true =>
      cases (exec_txComplete_done hf hd).symm.trans h
      rfl

/-- What every command does to the transfer state. -/
theorem exec_tx_state {i : Instr} {s t : State} (h : exec i s = .next t) :
    t.blk.tx_state = txStateAfter s.blk i := by
  cases i with
  | txCommit => exact exec_txCommit_tx_state h
  | txComplete => exact exec_txComplete_tx_state h
  | txOpen => cases h; exact s.openSession_tx_state false
  | txOpenBe => cases h; exact s.openSession_tx_state true
  | txAppendInt e w => cases h; exact s.sessionAppend_tx_state _ _
  | txAppendBytes n => cases h; split <;> simp [txStateAfter]
  | encodeFrame n => cases h; split <;> simp [txStateAfter]
  | txAbort => cases h; split <;> simp [txStateAfter]
  | txClrerr => cases h; rfl
  | crcCalc n => cases h; split <;> rfl
  | decodeFrame n => cases h; split <;> [rfl; (split <;> rfl)]
  | rxStart => cases h; split <;> rfl
  | rxRead n => cases h; split <;> rfl
  | rxClrto => cases h; rfl
  | rxClrirq => cases h; rfl

/-- Everything a step can do to the transfer state: nothing, a command, or the reset. -/
theorem step_tx_state_cases {s t : State} {e : Event} {rest : List Event} (hs : s.inputs = e :: rest)
    (h : step s = .next t) :
    t.blk.tx_state = s.blk.tx_state ∨
    (∃ i, isCommand e i ∧ t.blk.tx_state = txStateAfter s.blk i) ∨
    (e = .sysReset ∧ t.blk.tx_state = .idle) := by
  rcases step_event_cases hs h with ⟨_, _, _, -, rfl⟩ | ⟨i, hi, hexec⟩ | ⟨p, rfl, -⟩ |
    ⟨_, _, _, _, _, _, -, -, -, rfl⟩ | ⟨-, rfl⟩ | ⟨-, rfl⟩ | ⟨b, -, rfl⟩ | ⟨-, rfl⟩ | ⟨he, rfl⟩
  · exact .inl rfl
  · exact .inr (.inl ⟨i, hi, exec_tx_state (s := { s with inputs := rest }) hexec⟩)
  · exact .inl (State.finish_tx_state _ p _ _)
  · exact .inl rfl
  · exact .inl (State.txSendStep_tx_state _)
  · exact .inl (State.txErrorStep_tx_state _)
  · exact .inl (State.rxByteStep_tx_state _ b)
  · exact .inl (State.rxTimeoutStep_tx_state _)
  · exact .inr (.inr ⟨he, rfl⟩)

/-- Only TX_COMMIT takes an Idle block out of Idle. -/
theorem txStateAfter_of_idle {b : Block} (hb : b.tx_state = .idle) {i : Instr} (hi : i ≠ .txCommit) :
    txStateAfter b i = .idle := by
  cases i with
  | txCommit => exact absurd rfl hi
  | txComplete => simp [txStateAfter, hb]
  | _ => exact hb

theorem step_keeps_idle {s t : State} {e : Event} {rest : List Event} (hs : s.inputs = e :: rest)
    (h : step s = .next t) (hc : ¬ isCommand e .txCommit) (hidle : s.blk.tx_state = .idle) :
    t.blk.tx_state = .idle := by
  rcases step_tx_state_cases hs h with ht | ⟨i, hi, ht⟩ | ⟨-, ht⟩
  · rw [ht, hidle]
  · rw [ht]
    exact txStateAfter_of_idle hidle (fun heq => hc (heq ▸ hi))
  · exact ht

/-- The step at an event leaves the events behind it. -/
theorem inputs_of_step {s t : State} {e : Event} {rest : List Event} (hs : s.inputs = e :: rest)
    (h : step s = .next t) : t.inputs = rest :=
  step_inputs (s := s) rest (by rw [← hs]; exact h)

/-- A run without a TX_COMMIT keeps the block Idle (R21). -/
theorem run_keeps_idle {k : Nat} {s u : State} (h : run k s = .next u) (hidle : s.blk.tx_state = .idle)
    (hc : ∀ e ∈ s.inputs.take k, ¬ isCommand e .txCommit) : u.blk.tx_state = .idle := by
  induction k generalizing s with
  | zero =>
    cases h
    exact hidle
  | succ k ih =>
    obtain ⟨t, hstep, hrun⟩ := run_succ_cases h
    cases hs : s.inputs with
    | nil =>
      cases (step_of_nil hs).symm.trans hstep
      exact ih hrun hidle (by simp [hs])
    | cons e rest =>
      rw [hs, List.take_succ_cons] at hc
      refine ih hrun (step_keeps_idle hs hstep (hc e (by simp)) hidle) fun f hf => ?_
      rw [inputs_of_step hs hstep] at hf
      exact hc f (by simp [hf])

/-! ### A write while a transfer is in flight -/

/-- The transfer is the same: its state, length and progress, and every byte of every memory. -/
structure SameTransfer (s u : State) : Prop where
  state : u.blk.tx_state = s.blk.tx_state
  len : u.blk.tx_len = s.blk.tx_len
  sent : u.blk.tx_sent = s.blk.tx_sent
  done : u.blk.tx_done = s.blk.tx_done
  bytes : sameBytes s u

theorem SameTransfer.trans {s t u : State} (hst : SameTransfer s t) (htu : SameTransfer t u) : SameTransfer s u where
  state := htu.state.trans hst.state
  len := htu.len.trans hst.len
  sent := htu.sent.trans hst.sent
  done := htu.done.trans hst.done
  bytes r a := (htu.bytes r a).trans (hst.bytes r a)

theorem sameTransfer_withInputs (s : State) (es : List Event) : SameTransfer s (s.withInputs es) :=
  ⟨rfl, rfl, rfl, rfl, s.withInputs_byteAt es⟩

theorem sameTransfer_finishTx (s : State) (c : ResultCode) (v : Word) : SameTransfer s (s.finishTx c v) :=
  ⟨rfl, rfl, rfl, rfl, sameBytes_of_memories rfl rfl rfl rfl rfl⟩

theorem sameTransfer_failSession (s : State) (e : ResultCode) : SameTransfer s (s.failSession e) :=
  ⟨rfl, rfl, rfl, rfl, sameBytes_of_memories rfl rfl rfl rfl rfl⟩

/-- Opening a session while InFlight: it has failed from the start, with BUSY (R81, R82). -/
theorem State.openSession_inFlight {s : State} (be : Bool) (hf : s.blk.tx_state = .inFlight)
    (ho : s.blk.sess_open = false) : s.openSession be = { s with blk := { s.blk with
      sess_open := true, sess_be := be, sess_err := .busy,
      tx_result := .busy, tx_rvalue := BitVec.ofNat 32 s.blk.tx_len } } := by
  rcases s.openSession_cases be with ⟨hopen, -⟩ | ⟨-, -, h⟩ | ⟨-, hidle, -⟩
  · simp [ho] at hopen
  · exact h
  · simp [hf] at hidle

theorem sameTransfer_openSession {s : State} (be : Bool) (hf : s.blk.tx_state = .inFlight)
    (ho : s.blk.sess_open = false) : SameTransfer s (s.openSession be) := by
  rw [s.openSession_inFlight be hf ho]
  exact ⟨rfl, rfl, rfl, rfl, sameBytes_of_memories rfl rfl rfl rfl rfl⟩

/-- The step at the word of a TX port command is the command, on the state with the event taken off (R59, R64). -/
theorem step_of_txCommand {s : State} {i : Instr} {rest : List Event} (hd : decode .tx (encode i) = .ok i)
    (hs : s.inputs = commandEvent .tx (encode i) :: rest) : step s = exec i (s.withInputs rest) := by
  rw [step_of_cons hs]
  exact (hostWrite_command .tx _ _).trans (runCommand_ok hd _)

/-- The command that opens a session of either kind is a word of TX_CMD. -/
theorem decode_encode_opener (be : Bool) :
    decode .tx (encode (if be then .txOpenBe else .txOpen)) = .ok (if be then .txOpenBe else .txOpen) := by
  cases be <;> rfl

theorem exec_opener (be : Bool) (s : State) :
    exec (if be then .txOpenBe else .txOpen) s = .next (s.openSession be) := by
  cases be <;> rfl

theorem step_of_opener {s : State} {be : Bool} {is : List Instr} {rest : List Event}
    (hs : s.inputs = txCommands ((if be then .txOpenBe else .txOpen) :: is) ++ rest) :
    step s = .next ((s.openSession be).withInputs (txCommands is ++ rest)) := by
  rw [step_of_txCommand (decode_encode_opener be) hs, exec_opener, State.withInputs_openSession]
  rfl

theorem txCommands_append (is js : List Instr) : txCommands (is ++ js) = txCommands is ++ txCommands js :=
  List.map_append

/-- Any number of appends in a failed session changes the TX port's result and value only (R80). -/
theorem run_appends_of_failed {appends : List Instr} (happ : ∀ i ∈ appends, i.wf = true ∧ appendClass i = true)
    {s : State} {rest : List Event} (hf : failedSession s.blk = true) (hs : s.inputs = txCommands appends ++ rest)
    {k : Nat} (hk : k ≤ appends.length) :
    ∃ c v, run k s = .next ((s.withInputs (txCommands (appends.drop k) ++ rest)).finishTx c v) := by
  induction appends generalizing s k with
  | nil =>
    obtain rfl := Nat.le_zero.mp hk
    exact ⟨s.blk.tx_result, s.blk.tx_rvalue, by rw [List.drop_zero, ← hs]; rfl⟩
  | cons i is ih =>
    cases k with
    | zero => exact ⟨s.blk.tx_result, s.blk.tx_rvalue, by rw [List.drop_zero, ← hs]; rfl⟩
    | succ k =>
      obtain ⟨hwf, ha⟩ := happ i (by simp)
      obtain ⟨c, v, hexec⟩ := exec_append_of_failed (s := s.withInputs (txCommands is ++ rest)) ha hf
      have hstep := (step_of_txCommand (decode_encode_of_append hwf ha) hs).trans hexec
      obtain ⟨c', v', hrun⟩ := ih (fun j hj => happ j (by simp [hj]))
        (s := (s.withInputs (txCommands is ++ rest)).finishTx c v) hf rfl (Nat.le_of_succ_le_succ hk)
      exact ⟨c', v', (run_succ hstep).trans hrun⟩

/-- A session opened while InFlight, after any number of its appends: TX_OPEN's state but for the result and value. -/
theorem run_inFlight_session {s : State} {be : Bool} {appends : List Instr} {rest : List Event}
    (hf : s.blk.tx_state = .inFlight) (ho : s.blk.sess_open = false)
    (happ : ∀ i ∈ appends, i.wf = true ∧ appendClass i = true)
    (hs : s.inputs = txCommands ((if be then .txOpenBe else .txOpen) :: appends ++ [.txCommit]) ++ rest)
    {k : Nat} (hk : k ≤ appends.length) :
    ∃ c v, run (k + 1) s =
      .next (((s.openSession be).withInputs (txCommands (appends.drop k ++ [.txCommit]) ++ rest)).finishTx c v) := by
  have hfailed : failedSession (s.openSession be).blk = true := by
    rw [s.openSession_inFlight be hf ho]
    rfl
  obtain ⟨c, v, hrun⟩ := run_appends_of_failed happ
    (s := (s.openSession be).withInputs (txCommands (appends ++ [.txCommit]) ++ rest))
    (rest := txCommands [.txCommit] ++ rest) hfailed (by rw [txCommands_append, List.append_assoc]; rfl) hk
  rw [State.withInputs_withInputs, ← List.append_assoc, ← txCommands_append] at hrun
  exact ⟨c, v, (run_succ (step_of_opener hs)).trans hrun⟩

/-- TX_COMMIT after those appends ends the session with BUSY, and starts no transfer (R85). -/
theorem run_inFlight_write {s : State} {be : Bool} {appends : List Instr} {rest : List Event}
    (hf : s.blk.tx_state = .inFlight) (ho : s.blk.sess_open = false)
    (happ : ∀ i ∈ appends, i.wf = true ∧ appendClass i = true)
    (hs : s.inputs = txCommands ((if be then .txOpenBe else .txOpen) :: appends ++ [.txCommit]) ++ rest) :
    ∃ c v, run (appends.length + 2) s =
      .next ((((s.openSession be).withInputs rest).finishTx c v).failSession .busy) := by
  obtain ⟨c, v, hrun⟩ := run_inFlight_session hf ho happ hs (Nat.le_refl _)
  have hopen := s.openSession_inFlight be hf ho
  have hcommit := exec_txCommit_failed (s := ((s.openSession be).withInputs rest).finishTx c v)
    (by simp [hopen]) (by simp [hopen])
  rw [show (((s.openSession be).withInputs rest).finishTx c v).blk.sess_err = .busy by simp [hopen]] at hcommit
  rw [List.drop_length] at hrun
  have hstep := (step_of_txCommand
    (s := ((s.openSession be).withInputs (txCommands [.txCommit] ++ rest)).finishTx c v)
    (i := .txCommit) rfl rfl).trans hcommit
  exact ⟨c, v, (run_add (k := 1) hrun).trans (run_succ hstep)⟩

end Sys2Proof.Machine

namespace Sys2Proof.Proofs

open Sys2Proof.Machine Sys2Proof.Safety

/-- Settles O29: a LEN beyond STAGE is refused by its first guard, and within it the command is one append. -/
theorem txAppendBytesResult : Obligations.TxAppendBytesResult := by
  intro n s
  refine ⟨hasWord_txAppendBytes, ?_⟩
  by_cases hn : s.cfg.stageCap < n
  · refine ⟨_, exec_beyond_stage hn (by simp), ?_⟩
    rw [if_pos hn]
    exact txReports_finishTx s _ _
  · refine ⟨_, exec_txAppendBytes_within (Nat.not_lt.mp hn), ?_⟩
    rw [if_neg hn]
    exact appendOutcome_sessionAppend s _ _

/-- Settles O30: the bytes appended are those of the operand, and cutting the operand to their number does not change
them. -/
theorem txAppendIntResult : Obligations.TxAppendIntResult := by
  intro e w s
  refine ⟨hasWord_txAppendInt e w, _, intBytes e (widthBytes w) (intOperand w s.blk), rfl,
    appendOutcome_sessionAppend s _ _, by rw [length_intBytes, widthBytes_eq_two_pow], fun k hk => ?_⟩
  have hlt : k < widthBytes w := by simpa using hk
  rw [length_intBytes]
  cases e with
  | be =>
    simp only [intBytes, getElem_beBytes, BitVec.toNat_ofNat]
    exact byte_of_mod_two_pow (by omega) _
  | le =>
    simp only [intBytes, getElem_leBytes, BitVec.toNat_ofNat]
    exact byte_of_mod_two_pow hlt _

/-- Settles O34: a reclaim leaves the block Idle, and no step but a TX_COMMIT takes it out of Idle. -/
theorem completionHappensOnce : Obligations.CompletionHappensOnce := by
  refine ⟨fun s hidle => ⟨_, exec_txComplete_idle hidle, txReports_finishTx s _ _⟩,
    fun s hf hd => ⟨_, exec_txComplete_busy hf hd, txReports_finishTx s _ _⟩,
    fun s hf hd => ⟨_, exec_txComplete_done hf hd, rfl, rfl, rfl, State.byteAt_txBuf_nil rfl, fun k u hrun hc => ?_⟩⟩
  have hidle := run_keeps_idle hrun rfl hc
  exact ⟨_, exec_txComplete_idle hidle, rfl⟩

/-- Settles O38: the session opened while InFlight has failed with BUSY, so its appends only report and its end starts
no transfer; each state on the way has the transfer of the first. -/
theorem inFlightWriteIsHarmless : Obligations.InFlightWriteIsHarmless := by
  intro s be appends rest hf ho happ hs
  have hopen := s.openSession_inFlight be hf ho
  have hsession (es : List Event) : SameTransfer s ((s.openSession be).withInputs es) :=
    (sameTransfer_openSession be hf ho).trans (sameTransfer_withInputs _ _)
  obtain ⟨c, v, hend⟩ := run_inFlight_write hf ho happ hs
  refine ⟨fun k hk => ?between, _, hend, rfl, rfl, rfl, ?result⟩
  case result =>
    rw [hopen]
    rfl
  case between =>
    suffices h : ∃ u, run k s = .next u ∧ SameTransfer s u ∧ (k = 1 → u.blk.tx_result = .busy) by
      obtain ⟨u, hrun, hu, hbusy⟩ := h
      exact ⟨u, hrun, hu.state.trans hf, hu.len, hu.sent, hu.done, hu.bytes, hbusy⟩
    rcases k with _ | _ | k
    · exact ⟨s, rfl, sameTransfer_withInputs s s.inputs, by simp⟩
    · exact ⟨_, run_succ (step_of_opener hs), hsession _, fun _ => by rw [hopen]; rfl⟩
    · rcases Nat.lt_or_eq_of_le (show k ≤ appends.length by omega) with hlt | rfl
      · obtain ⟨c, v, hrun⟩ := run_inFlight_session hf ho happ hs hlt
        exact ⟨_, hrun, (hsession _).trans (sameTransfer_finishTx _ _ _), by simp⟩
      · exact ⟨_, hend, ((hsession _).trans (sameTransfer_finishTx _ _ _)).trans (sameTransfer_failSession _ _),
          by simp⟩

/-- Settles O31, by TX_COMMIT's three cases. -/
theorem txCommitResult : Obligations.TxCommitResult := by
  intro s
  refine ⟨⟨rfl, rfl⟩, ?_⟩
  by_cases ho : s.blk.sess_open = false
  · refine ⟨_, exec_txCommit_noSession ho, ?_⟩
    rw [if_pos ho]
    exact txReports_finishTx s _ _
  · by_cases he : s.blk.sess_err = .ok
    · refine ⟨_, exec_txCommit_good ho he, ?_⟩
      rw [if_neg ho, if_pos he]
      exact ⟨rfl, sameBytes_of_memories rfl rfl rfl rfl rfl⟩
    · refine ⟨_, exec_txCommit_failed ho he, ?_⟩
      rw [if_neg ho, if_neg he]
      exact failOutcome_failSession s _

end Sys2Proof.Proofs
end

section
/-! PROOFS. The receive transfer reader (42_rx_reader.md R100, R101): RX_CLRIRQ, and what a byte from the Line leaves. -/

namespace Sys2Proof.Machine

open Sys2Proof.Safety

/-- RX_CLRIRQ is one update and `finish` (R100). -/
theorem exec_rxClrirq (s : State) : exec .rxClrirq s =
    .next (State.finishRx { s with blk := { s.blk with rx_ht := false, rx_tc := false } } .ok 0) := rfl

/-- A byte offered before RX_START is lost (R101). -/
theorem State.rxByteStep_of_stopped {s : State} (h : s.blk.rx_run = false) (b : Byte) : s.rxByteStep b = s := by
  rcases s.rxByteStep_cases b with ⟨-, heq⟩ | ⟨hrun, -⟩
  · exact heq
  · exact absurd (hrun.symm.trans h) (by decide)

/-- The components a byte changes while the receiver runs (R101). -/
theorem State.rxByteStep_of_running {s : State} (h : s.blk.rx_run = true) (b : Byte) :
    s.rxByteStep b = { s with blk := { s.blk with
      rx_ring := (s.rxByteStep b).blk.rx_ring, rx_wr := (s.blk.rx_wr + 1) % s.cfg.rxCap, rx_armed := true,
      rx_ht := if (s.blk.rx_wr + 1) % s.cfg.rxCap = s.cfg.rxCap / 2 then true else s.blk.rx_ht,
      rx_tc := if (s.blk.rx_wr + 1) % s.cfg.rxCap = 0 then true else s.blk.rx_tc } } := by
  rcases s.rxByteStep_cases b with ⟨hstop, -⟩ | ⟨-, heq⟩
  · exact absurd (hstop.symm.trans h) (by decide)
  · simp only [heq, Bool.if_true_left, Bool.or_comm]

/-- While the receiver runs, the bytes after the step are those after one write into the ring at `rx_wr` (R101). -/
theorem State.byteAt_rxByteStep {s : State} (h : s.blk.rx_run = true) (b : Byte) (r : Region) (a : Nat) :
    (s.rxByteStep b).byteAt r a = (s.putBytes .rxRing s.blk.rx_wr [b]).byteAt r a := by
  rw [State.rxByteStep, if_pos h]
  exact sameBytes_of_memories (s := s.putBytes .rxRing s.blk.rx_wr [b]) rfl rfl rfl rfl rfl r a

/-- The byte received stands in the ring at `rx_wr` (R101). -/
theorem State.byteAt_rxByteStep_rx_wr {s : State} (h : s.blk.rx_run = true) (b : Byte) :
    (s.rxByteStep b).byteAt .rxRing s.blk.rx_wr = b :=
  (State.byteAt_rxByteStep h b _ _).trans (s.byteAt_putBytes_inside .rxRing s.blk.rx_wr [b] 0 Nat.zero_lt_one)

/-- A received byte leaves every other byte of the four memories (R101). -/
theorem sameBytesBut_rxByteStep {s : State} (h : s.blk.rx_run = true) (b : Byte) :
    sameBytesBut .rxRing s.blk.rx_wr 1 s (s.rxByteStep b) := fun r a hout =>
  (State.byteAt_rxByteStep h b r a).trans (s.byteAt_putBytes_outside .rxRing r s.blk.rx_wr [b] hout)

end Sys2Proof.Machine

namespace Sys2Proof.Proofs

open Sys2Proof.Machine Sys2Proof.Safety

/-- Settles O48, by the byte step's two cases: taking the event off the list leaves the block as it was, so the
receiver runs after it just when it ran before. -/
theorem rxByteStepResult : Obligations.RxByteStepResult := by
  intro b s rest hs
  refine ⟨_, step_of_cons hs, ?_⟩
  by_cases hstop : s.blk.rx_run = false
  · rw [if_pos hstop]
    exact State.rxByteStep_of_stopped (s := { s with inputs := rest }) hstop b
  · have hrun : s.blk.rx_run = true := by simpa using hstop
    rw [if_neg hstop]
    exact ⟨State.rxByteStep_of_running (s := { s with inputs := rest }) hrun b,
      State.byteAt_rxByteStep_rx_wr (s := { s with inputs := rest }) hrun b,
      sameBytesBut_rxByteStep (s := { s with inputs := rest }) hrun b⟩

/-- Settles O47: the two flags are the whole of RX_IRQ, and the command touches no memory. -/
theorem rxClrirqResult : Obligations.RxClrirqResult := by
  intro s
  exact ⟨⟨rfl, rfl⟩, _, exec_rxClrirq s, rfl, sameBytes_of_memories rfl rfl rfl rfl rfl, rfl⟩

end Sys2Proof.Proofs
end

section
/-! PROOFS. What a command and a step can do, said once: every outcome of a command (40_codec.md, 41_tx_transfer.md,
42_rx_reader.md) and of one step of an agent, each with its guard and the state it leaves. What must hold over every
step is read off these two lists. -/

namespace Sys2Proof.Machine

open Sys2Proof.Safety

/-! ### Every outcome of a command -/

/-- The outcomes of the commands. One constructor for each outcome the rules tell apart; several commands share
some of them. -/
inductive CommandEffect (s : State) (i : Instr) : State → Prop
  /-- A TX port command that only reports. -/
  | reportTx (hp : i.port = .tx) (c : ResultCode) (v : Word) : CommandEffect s i (s.finishTx c v)
  /-- An RX port command that only reports. -/
  | reportRx (hp : i.port = .rx) (c : ResultCode) (v : Word) : CommandEffect s i (s.finishRx c v)
  /-- A session opened while InFlight (R81, R82). -/
  | openBusy (be : Bool) (hi : i = if be then .txOpenBe else .txOpen) (ho : s.blk.sess_open = false)
      (hf : s.blk.tx_state = .inFlight) :
      CommandEffect s i { s with blk := { s.blk with
        sess_open := true, sess_be := be, sess_err := .busy,
        tx_result := .busy, tx_rvalue := BitVec.ofNat 32 s.blk.tx_len } }
  /-- A session opened on the Idle buffer (R81, R82). -/
  | openIdle (be : Bool) (hi : i = if be then .txOpenBe else .txOpen) (ho : s.blk.sess_open = false)
      (hidle : s.blk.tx_state = .idle) :
      CommandEffect s i { s with blk := { s.blk with
        sess_open := true, sess_be := be, sess_err := .ok, tx_buf := [], tx_len := 0,
        tx_result := .ok, tx_rvalue := 0 } }
  /-- An append that does not fit (R80). -/
  | overflow (fault : ResultCode) (ha : appendClass i = true)
      (hfault : fault = .bufferOverflow ∨ fault = .serializationFault) (ho : s.blk.sess_open = true)
      (he : s.blk.sess_err = .ok) (hcap : s.cfg.txCap < s.blk.tx_len + appendSize i) :
      CommandEffect s i { s with blk := { s.blk with
        sess_err := fault, tx_result := fault, tx_rvalue := BitVec.ofNat 32 s.blk.tx_len } }
  /-- An append that fits (R80). -/
  | append (bytes : List Byte) (ha : appendClass i = true) (hlen : bytes.length = appendSize i)
      (ho : s.blk.sess_open = true) (he : s.blk.sess_err = .ok) (hcap : s.blk.tx_len + bytes.length ≤ s.cfg.txCap) :
      CommandEffect s i { s with blk := { s.blk with
        tx_buf := Memory.writeBytes .txBuf s.blk.tx_buf s.blk.tx_len bytes,
        tx_len := s.blk.tx_len + bytes.length,
        tx_result := .ok, tx_rvalue := BitVec.ofNat 32 (s.blk.tx_len + bytes.length) } }
  /-- TX_COMMIT of a good session (R85). -/
  | start (hi : i = .txCommit) (ho : s.blk.sess_open = true) (he : s.blk.sess_err = .ok) :
      CommandEffect s i (s.endSession.startTransfer.finishTxLen .ok)
  /-- The end of a failed or aborted session (R85, R86). -/
  | fail (e : ResultCode) (hi : (i = .txCommit ∧ s.blk.sess_err ≠ .ok) ∨ i = .txAbort)
      (ho : s.blk.sess_open = true) : CommandEffect s i (s.failSession e)
  /-- TX_COMPLETE of a finished transfer (R87). -/
  | reclaim (hi : i = .txComplete) (hf : s.blk.tx_state = .inFlight) (hd : s.blk.tx_done = true) :
      CommandEffect s i (s.reclaim.finishTx .ok 0)
  /-- TX_CLRERR (R88). -/
  | clrerr (hi : i = .txClrerr) :
      CommandEffect s i (State.finishTxLen { s with blk := { s.blk with err := false } } .ok)
  /-- RX_START (R97). -/
  | rxStart (hi : i = .rxStart) :
      CommandEffect s i (State.finishRx { s with blk := { s.blk with rx_run := true } } .ok 0)
  /-- RX_READ within RXOUT (R98). -/
  | drain (n k : Nat) (hi : i = .rxRead n) (hn : n ≤ s.cfg.rxoutCap) (hk : k = min s.avail n) :
      CommandEffect s i { s with blk := { s.blk with
        rxout := Memory.writeBytes .rxOut s.blk.rxout 0 (s.waiting k),
        rx_rd := (s.blk.rx_rd + k) % s.cfg.rxCap, rx_result := .ok, rx_rvalue := BitVec.ofNat 32 k } }
  /-- RX_CLRTO (R99). -/
  | clrto (hi : i = .rxClrto) :
      CommandEffect s i (State.finishRx { s with blk := { s.blk with rx_to := false } } .ok 0)
  /-- RX_CLRIRQ (R100). -/
  | clrirq (hi : i = .rxClrirq) :
      CommandEffect s i (State.finishRx { s with blk := { s.blk with rx_ht := false, rx_tc := false } } .ok 0)

/-- What a drain of k bytes and its report change (R98). -/
theorem State.finishRx_drain (s : State) (k : Nat) (c : ResultCode) (v : Word) : (s.drain k).finishRx c v =
    { s with blk := { s.blk with
      rxout := Memory.writeBytes .rxOut s.blk.rxout 0 (s.waiting k),
      rx_rd := (s.blk.rx_rd + k) % s.cfg.rxCap, rx_result := c, rx_rvalue := v } } := rfl

/-- Opening a session has one of its three outcomes. -/
theorem commandEffect_openSession {s : State} {i : Instr} {be : Bool} (hi : i = if be then .txOpenBe else .txOpen) :
    CommandEffect s i (s.openSession be) := by
  have hp : i.port = .tx := by subst hi; cases be <;> rfl
  rcases s.openSession_cases be with ⟨-, h⟩ | ⟨ho, hf, h⟩ | ⟨ho, hidle, h⟩ <;> rw [h]
  · exact .reportTx hp _ _
  · exact .openBusy be hi ho hf
  · exact .openIdle be hi ho hidle

theorem port_of_appendClass {i : Instr} (h : appendClass i = true) : i.port = .tx := by
  cases i with
  | encodeFrame | txAppendBytes | txAppendInt => rfl
  | _ => cases h

/-- An append has one of its four outcomes. -/
theorem commandEffect_sessionAppend {s : State} {i : Instr} {bytes : List Byte} {fault : ResultCode}
    (ha : appendClass i = true) (hlen : bytes.length = appendSize i)
    (hfault : fault = .bufferOverflow ∨ fault = .serializationFault) :
    CommandEffect s i (s.sessionAppend bytes fault) := by
  have hp := port_of_appendClass ha
  rcases s.sessionAppend_cases bytes fault with ⟨-, h⟩ | ⟨-, -, h⟩ | ⟨ho, he, hcap, h⟩ | ⟨ho, he, hcap, h⟩ <;> rw [h]
  · exact .reportTx hp _ _
  · exact .reportTx hp _ _
  · exact .overflow fault ha hfault ho he (hlen ▸ hcap)
  · exact .append bytes ha hlen ho he hcap

/-- Every command that answers has one of the outcomes listed. -/
theorem exec_effect {i : Instr} {s t : State} (h : exec i s = .next t) : CommandEffect s i t := by
  cases i with
  | crcCalc n => cases h; split <;> exact .reportTx rfl _ _
  | encodeFrame n =>
    cases h
    split
    · exact .reportTx rfl _ _
    · exact commandEffect_sessionAppend rfl (by simp [appendSize]) (.inr rfl)
  | decodeFrame n =>
    cases h
    split
    · exact .reportRx rfl _ _
    · split <;> exact .reportRx rfl _ _
  | txOpen => cases h; exact commandEffect_openSession (be := false) rfl
  | txOpenBe => cases h; exact commandEffect_openSession (be := true) rfl
  | txAppendBytes n =>
    cases h
    split
    · exact .reportTx rfl _ _
    · exact commandEffect_sessionAppend rfl (by simp [appendSize]) (.inl rfl)
  | txAppendInt e w =>
    cases h
    exact commandEffect_sessionAppend rfl (by simp [appendSize]) (.inl rfl)
  | txCommit =>
    by_cases ho : s.blk.sess_open = false
    · cases (exec_txCommit_noSession ho).symm.trans h
      exact .reportTx rfl _ _
    · by_cases he : s.blk.sess_err = .ok
      · cases (exec_txCommit_good ho he).symm.trans h
        exact .start rfl (by simpa using ho) he
      · cases (exec_txCommit_failed ho he).symm.trans h
        exact .fail _ (.inl ⟨rfl, he⟩) (by simpa using ho)
  | txAbort =>
    cases h
    split
    · exact .reportTx rfl _ _
    · exact .fail _ (.inr rfl) (by simp_all)
  | txComplete =>
    cases hf : s.blk.tx_state with
    | idle =>
      cases (exec_txComplete_idle hf).symm.trans h
      exact .reportTx rfl _ _
    | inFlight =>
      cases hd : s.blk.tx_done with
      | false =>
        cases (exec_txComplete_busy hf hd).symm.trans h
        exact .reportTx rfl _ _
      | true =>
        cases (exec_txComplete_done hf hd).symm.trans h
        exact .reclaim rfl hf hd
  | txClrerr => cases h; exact .clrerr rfl
  | rxStart =>
    cases h
    split
    · exact .reportRx rfl _ _
    · exact .rxStart rfl
  | rxRead n =>
    cases h
    split
    next => exact .reportRx rfl _ _
    next hn =>
      rw [State.finishRx_drain]
      exact .drain n _ rfl (Nat.not_lt.mp hn) rfl
  | rxClrto => cases h; exact .clrto rfl
  | rxClrirq => cases h; exact .clrirq rfl

/-- No command changes the parameters, the coming events, the value last read or the draw. -/
theorem CommandEffect.onlyBlock {s t : State} {i : Instr} (h : CommandEffect s i t) : onlyBlock s t := by
  cases h <;> rfl

theorem CommandEffect.cfg {s t : State} {i : Instr} (h : CommandEffect s i t) : t.cfg = s.cfg := by
  rw [h.onlyBlock]

theorem CommandEffect.draw {s t : State} {i : Instr} (h : CommandEffect s i t) : t.draw = s.draw := by
  rw [h.onlyBlock]

/-! ### Every outcome of a step -/

/-- The outcomes of a step that takes event `e`, on the state with the event taken off. -/
inductive StepEffect (s : State) (e : Event) : State → Prop
  /-- A turn without its guard, or a Host write that is ignored. -/
  | quiet : StepEffect s e s
  /-- A Host read (R50). -/
  | read (off : Offset) (w : AccessWidth) (v : Word) (he : e = .hostRead off w) : StepEffect s e { s with rdata := v }
  /-- A Host write outside the command registers (R50). -/
  | write (off : Offset) (w : AccessWidth) (v a0 a1 : Word) (m : Memory) (he : e = .hostWrite off w v)
      (h : hostWrite off w v s = .next { s with blk := { s.blk with tx_arg0 := a0, tx_arg1 := a1, stage := m } })
      (htx : off ≠ cmdOffset .tx) (hrx : off ≠ cmdOffset .rx) :
      StepEffect s e { s with blk := { s.blk with tx_arg0 := a0, tx_arg1 := a1, stage := m } }
  /-- A command (R64). -/
  | command {t : State} (i : Instr) (hc : isCommand e i) (hx : CommandEffect s i t) : StepEffect s e t
  /-- An illegal word on TX_CMD (R65). -/
  | illegalTx (w : Word) (he : e = commandEvent .tx w) : StepEffect s e (s.finishTx .illegalCommand 0)
  /-- An illegal word on RX_CMD (R65). -/
  | illegalRx (w : Word) (he : e = commandEvent .rx w) : StepEffect s e (s.finishRx .illegalCommand 0)
  /-- A byte sent (R89). -/
  | send (he : e = .txSend) (hf : s.blk.tx_state = .inFlight) (hd : s.blk.tx_done = false)
      (hs : s.blk.tx_stalled = false) (hlt : s.blk.tx_sent < s.blk.tx_len) :
      StepEffect s e { s with blk := { s.blk with
        line_out := s.blk.line_out ++ [s.byteAt .txBuf s.blk.tx_sent], tx_sent := s.blk.tx_sent + 1,
        tx_done := decide (s.blk.tx_sent + 1 = s.blk.tx_len) } }
  /-- A transfer error that stalls (R90). -/
  | stall (he : e = .txError) (hf : s.blk.tx_state = .inFlight) (hd : s.blk.tx_done = false)
      (hs : s.blk.tx_stalled = false) (hp : s.cfg.txErrPolicy = .stall) :
      StepEffect s e { s with blk := { s.blk with tx_xerr := true, err := true, tx_stalled := true } }
  /-- A transfer error that ends the transfer (R90). -/
  | errorEnd (he : e = .txError) (hf : s.blk.tx_state = .inFlight) (hd : s.blk.tx_done = false)
      (hs : s.blk.tx_stalled = false) (hp : s.cfg.txErrPolicy = .endAsComplete) :
      StepEffect s e { s with blk := { s.blk with tx_xerr := true, err := true, tx_done := true } }
  /-- A byte received (R101). -/
  | byte (b : Byte) (he : e = .rxByte b) (hrun : s.blk.rx_run = true) :
      StepEffect s e { s with blk := { s.blk with
        rx_ring := Memory.write .rxRing s.blk.rx_ring s.blk.rx_wr b,
        rx_wr := (s.blk.rx_wr + 1) % s.cfg.rxCap, rx_armed := true,
        rx_ht := s.blk.rx_ht || decide ((s.blk.rx_wr + 1) % s.cfg.rxCap = s.cfg.rxCap / 2),
        rx_tc := s.blk.rx_tc || decide ((s.blk.rx_wr + 1) % s.cfg.rxCap = 0) } }
  /-- The timeout (R102). -/
  | timeout (he : e = .rxTimeout) (ha : s.blk.rx_armed = true) :
      StepEffect s e { s with blk := { s.blk with rx_to := true, rx_armed := false } }
  /-- The system reset (R123). -/
  | reset (he : e = .sysReset) : StepEffect s e s.systemReset

/-- A Host write that answers has one of the outcomes listed. -/
theorem hostWrite_effect {off : Offset} {w : AccessWidth} {v : Word} {s t : State} (h : hostWrite off w v s = .next t) :
    StepEffect s (.hostWrite off w v) t := by
  by_cases hcmd : ∃ p, off = cmdOffset p
  · obtain ⟨p, rfl⟩ := hcmd
    rcases hostWrite_cases h with ⟨q, hq, rfl, -⟩ | ⟨heq, -⟩ | ⟨heq, -⟩ | ⟨-, htx, hrx, -⟩ | ⟨hlo, -⟩
    · rw [hostWrite_command] at h
      rcases runCommand_cases p v s with ⟨i, hd, hr⟩ | ⟨_, -, hr⟩
      · obtain ⟨r, hmem, -, rfl, -, rfl⟩ := decode_ok_cases hd
        have hp := port_of_row hmem v
        exact .command _ ⟨v, by rw [hp], by rw [hp]; exact hd⟩ (exec_effect (hr.symm.trans h))
      · cases hr.symm.trans h
        cases p with
        | tx => exact .illegalTx v rfl
        | rx => exact .illegalRx v rfl
    · cases p <;> cases heq
    · cases p <;> cases heq
    · cases p with
      | tx => exact absurd rfl htx
      | rx => exact absurd rfl hrx
    · cases p <;> exact absurd hlo (by decide)
  · have hne (p : Port) : off ≠ cmdOffset p := fun heq => hcmd ⟨p, heq⟩
    obtain ⟨ht, -⟩ := Proofs.hostWrite_frame h (hne .tx) (hne .rx)
    rw [ht] at h ⊢
    exact .write off w v _ _ _ rfl h (hne .tx) (hne .rx)

/-- A step that takes an event and answers has one of the outcomes listed. -/
theorem perform_effect {e : Event} {s t : State} (h : perform e s = .next t) : StepEffect s e t := by
  cases e with
  | hostRead off w =>
    rw [hostRead_next h]
    exact .read off w _ rfl
  | hostWrite off w v => exact hostWrite_effect h
  | txSend =>
    cases h
    rcases s.txSendStep_cases with ⟨hf, hd, hs, hlt, ht⟩ | ⟨-, ht⟩ <;> rw [ht]
    · exact .send rfl hf hd hs hlt
    · exact .quiet
  | txError =>
    cases h
    rcases s.txErrorStep_cases with ⟨hf, hd, hs, hp, ht⟩ | ⟨hf, hd, hs, hp, ht⟩ | ⟨-, ht⟩ <;> rw [ht]
    · exact .stall rfl hf hd hs hp
    · exact .errorEnd rfl hf hd hs hp
    · exact .quiet
  | rxByte b =>
    cases h
    rcases s.rxByteStep_cases b with ⟨-, ht⟩ | ⟨hrun, ht⟩ <;> rw [ht]
    · exact .quiet
    · exact .byte b rfl hrun
  | rxTimeout =>
    cases h
    rcases s.rxTimeoutStep_cases with ⟨ha, ht⟩ | ⟨-, ht⟩ <;> rw [ht]
    · exact .timeout rfl ha
    · exact .quiet
  | sysReset => cases h; exact .reset rfl

theorem step_effect {s t : State} {e : Event} {rest : List Event} (hs : s.inputs = e :: rest)
    (h : step s = .next t) : StepEffect (s.withInputs rest) e t :=
  perform_effect ((step_of_cons hs).symm.trans h)

/-- No step changes a parameter (log 1). -/
theorem StepEffect.cfg {s t : State} {e : Event} (h : StepEffect s e t) : t.cfg = s.cfg := by
  cases h with
  | command i _ hx => exact hx.cfg
  | _ => rfl

/-- A step without an event changes nothing; any other has one of the outcomes listed. -/
theorem step_cases {s t : State} (h : step s = .next t) :
    t = s ∨ ∃ e rest, s.inputs = e :: rest ∧ StepEffect (s.withInputs rest) e t := by
  cases hs : s.inputs with
  | nil => exact .inl (by cases (step_of_nil hs).symm.trans h; rfl)
  | cons e rest => exact .inr ⟨e, rest, rfl, step_effect hs h⟩

end Sys2Proof.Machine
end

section
/-! PROOFS. The invariants every step keeps (10_state.md R41, R13), and what alone starts, ends and stalls a transfer
(R21, R55, R79, R92, R136). -/

namespace Sys2Proof.Machine

open Sys2Proof.Safety

/-! ### The invariants of sessions and transfers -/

theorem transferInvariant_reset : TransferInvariant Block.reset where
  idle_no_progress _ := ⟨rfl, rfl, rfl, rfl⟩
  good_session_idle hopen := nomatch hopen
  sent_le_len := Nat.le_refl _
  done_all_sent_or_error hdone := nomatch hdone
  stalled_error_not_done hst := nomatch hst
  closed_session_clear _ := ⟨rfl, rfl⟩
  session_errors := .inl rfl

theorem CommandEffect.transferInvariant {s t : State} {i : Instr} (h : CommandEffect s i t)
    (hinv : TransferInvariant s.blk) : TransferInvariant t.blk := by
  cases h with
  | openBusy be _ ho hf =>
    exact { hinv with
      good_session_idle := fun _ herr => nomatch herr
      closed_session_clear := fun hopen => nomatch hopen
      session_errors := .inr (.inl rfl) }
  | openIdle be _ ho hidle =>
    obtain ⟨hsent, hdone, -, -⟩ := hinv.idle_no_progress hidle
    exact { hinv with
      good_session_idle := fun _ _ => hidle
      sent_le_len := hsent.le
      done_all_sent_or_error := fun hd => nomatch hdone.symm.trans hd
      closed_session_clear := fun hopen => nomatch hopen
      session_errors := .inl rfl }
  | overflow fault _ hfault ho _ _ =>
    exact { hinv with
      good_session_idle := fun _ (herr : fault = .ok) => by rcases hfault with rfl | rfl <;> cases herr
      closed_session_clear := fun hopen => nomatch ho.symm.trans hopen
      session_errors := .inr (.inr hfault) }
  | append bytes _ _ ho he _ =>
    obtain ⟨-, hdone, -, -⟩ := hinv.idle_no_progress (hinv.good_session_idle ho he)
    exact { hinv with
      sent_le_len := hinv.sent_le_len.trans (Nat.le_add_right _ _)
      done_all_sent_or_error := fun hd => nomatch hdone.symm.trans hd }
  | start _ ho he =>
    exact
      { idle_no_progress := fun hidle => nomatch hidle
        good_session_idle := fun hopen => nomatch hopen
        sent_le_len := Nat.zero_le _
        done_all_sent_or_error := fun hd _ => .inl (of_decide_eq_true hd).symm
        stalled_error_not_done := fun hst => nomatch hst
        closed_session_clear := fun _ => ⟨rfl, rfl⟩
        session_errors := .inl rfl }
  | fail e _ ho =>
    exact { hinv with
      good_session_idle := fun hopen => nomatch hopen
      closed_session_clear := fun _ => ⟨rfl, rfl⟩
      session_errors := .inl rfl }
  | reclaim _ hf hd =>
    exact { hinv with
      idle_no_progress := fun _ => ⟨rfl, rfl, rfl, rfl⟩
      good_session_idle := fun _ _ => rfl
      sent_le_len := Nat.le_refl _
      done_all_sent_or_error := fun hdone => nomatch hdone
      stalled_error_not_done := fun hst => nomatch hst }
  | _ => exact { hinv with }

/-- Every step keeps R41's invariants. -/
theorem StepEffect.transferInvariant {s t : State} {e : Event} (h : StepEffect s e t)
    (hinv : TransferInvariant s.blk) : TransferInvariant t.blk := by
  cases h with
  | command i _ hx => exact hx.transferInvariant hinv
  | send _ hf hd hs hlt =>
    exact { hinv with
      idle_no_progress := fun hidle => nomatch hf.symm.trans hidle
      sent_le_len := hlt
      done_all_sent_or_error := fun hdone _ => .inl (of_decide_eq_true hdone)
      stalled_error_not_done := fun hst => nomatch hs.symm.trans hst }
  | stall _ hf hd _ _ =>
    exact { hinv with
      idle_no_progress := fun hidle => nomatch hf.symm.trans hidle
      done_all_sent_or_error := fun hdone _ => nomatch hd.symm.trans hdone
      stalled_error_not_done := fun _ => ⟨rfl, hd⟩ }
  | errorEnd _ hf _ hs _ =>
    exact { hinv with
      idle_no_progress := fun hidle => nomatch hf.symm.trans hidle
      done_all_sent_or_error := fun _ _ => .inr rfl
      stalled_error_not_done := fun hst => nomatch hs.symm.trans hst }
  | reset _ => exact transferInvariant_reset
  | _ => exact { hinv with }

/-! ### An unfinished transfer has bytes left -/

theorem CommandEffect.unfinishedHasBytes {s t : State} {i : Instr} (h : CommandEffect s i t)
    (hinv : TransferInvariant s.blk) (hun : unfinishedHasBytes s.blk) : unfinishedHasBytes t.blk := by
  cases h with
  | openIdle _ _ _ hidle => exact fun hf _ => nomatch hidle.symm.trans hf
  | append _ _ _ ho he _ => exact fun hf _ => nomatch (hinv.good_session_idle ho he).symm.trans hf
  | start _ _ _ => exact fun _ hd => Nat.pos_of_ne_zero (of_decide_eq_false hd)
  | reclaim _ _ _ => exact fun hf _ => nomatch hf
  | _ => exact hun

/-- Every step keeps that an unfinished transfer has bytes left to send. -/
theorem StepEffect.unfinishedHasBytes {s t : State} {e : Event} (h : StepEffect s e t)
    (hinv : TransferInvariant s.blk) (hun : unfinishedHasBytes s.blk) : unfinishedHasBytes t.blk := by
  cases h with
  | command i _ hx => exact hx.unfinishedHasBytes hinv hun
  | send _ _ _ _ hlt => exact fun _ hd => Nat.lt_of_le_of_ne hlt (of_decide_eq_false hd)
  | errorEnd _ _ _ _ _ => exact fun _ hd => nomatch hd
  | reset _ => exact fun hf _ => nomatch hf
  | _ => exact hun

/-! ### The ranges and forms of the storage -/

theorem Params.caps_of_wf {c : Params} (h : c.wf = true) :
    c.txCap ≤ 65535 ∧ c.stageCap ≤ 4096 ∧ 2 ≤ c.rxCap ∧ c.rxCap ≤ 65535 ∧ c.rxoutCap ≤ 4096 := by
  simp only [Params.wf, decide_eq_true_eq] at h
  omega

/-- A block at its reset values is in range, whatever the parameters R6 allows. -/
theorem storageInvariant_of_reset {s : State} (hwf : s.cfg.wf = true) (hb : s.blk = Block.reset) :
    StorageInvariant s := by
  have hcaps := Params.caps_of_wf hwf
  have hpos : 0 < s.cfg.rxCap := by omega
  cases s
  subst hb
  exact
    { params := hwf, len_le_cap := Nat.zero_le _, wr_lt_cap := hpos, rd_lt_cap := hpos
      txBuf_wf := ⟨rfl, rfl⟩, stage_wf := ⟨rfl, rfl⟩, ring_wf := ⟨rfl, rfl⟩, rxout_wf := ⟨rfl, rfl⟩ }

/-- The implementation's parameters lie in R6's ranges, whatever their open values (log 1). -/
theorem flb_wf : Config.flb.wf = true := by
  rw [Params.wf, decide_eq_true_eq]
  simp only [Config.flb]
  omega

/-- Window bytes written keep the canonical form and the size of STAGE. -/
theorem stage_wf_writeWindowBytes (bs : List Byte) (s : State) (o : Nat)
    (h : Memory.wf .stage s.blk.stage = true ∧ Memory.within s.cfg.stageCap s.blk.stage = true) :
    Memory.wf .stage (writeWindowBytes s o bs).blk.stage = true ∧
      Memory.within s.cfg.stageCap (writeWindowBytes s o bs).blk.stage = true := by
  induction bs generalizing s o with
  | nil => exact h
  | cons b bs ih =>
    rw [writeWindowBytes]
    split
    next hin =>
      obtain ⟨hwf, hsize⟩ := h
      exact ih (s.putBytes .stage (o - 0x1000) [b]) (o + 1) ⟨Memory.wf_write .stage _ _ b hwf,
        Memory.within_write .stage (cap := s.cfg.stageCap) _ b (by omega) hsize⟩
    next => exact ih s (o + 1) h

/-- What a Host write outside the command registers does to STAGE: nothing, or it writes the window bytes it covers. -/
theorem hostWrite_stage_cases {off : Offset} {w : AccessWidth} {v : Word} {s t : State}
    (h : hostWrite off w v s = .next t) (htx : off ≠ cmdOffset .tx) (hrx : off ≠ cmdOffset .rx) :
    (t.blk.stage = s.blk.stage ∧ t.draw = s.draw) ∨
      t = writeWindowBytes s off.toNat (leBytes (accessBytes w) v.toNat) := by
  rcases hostWrite_cases h with ⟨p, hp, -⟩ | ⟨-, -, rfl⟩ | ⟨-, -, rfl⟩ | ⟨-, -, -, -, -, rfl⟩ | ⟨-, -, -, ht⟩
  · cases p with
    | tx => exact absurd hp htx
    | rx => exact absurd hp hrx
  · exact .inl ⟨rfl, rfl⟩
  · exact .inl ⟨rfl, rfl⟩
  · exact .inl ⟨rfl, rfl⟩
  · exact .inr ht

theorem CommandEffect.storageInvariant {s t : State} {i : Instr} (h : CommandEffect s i t)
    (hinv : StorageInvariant s) : StorageInvariant t := by
  have hcaps := Params.caps_of_wf hinv.params
  cases h with
  | openIdle => exact { hinv with len_le_cap := Nat.zero_le _, txBuf_wf := ⟨rfl, rfl⟩ }
  | append bytes _ _ _ _ hcap =>
    obtain ⟨hwf, hsize⟩ := hinv.txBuf_wf
    exact { hinv with
      len_le_cap := hcap
      txBuf_wf := ⟨Memory.wf_writeBytes .txBuf bytes _ _ hwf, Memory.within_writeBytes .txBuf bytes _ hcap hsize⟩ }
  | reclaim => exact { hinv with len_le_cap := Nat.zero_le _, txBuf_wf := ⟨rfl, rfl⟩ }
  | drain n k _ hn hk =>
    obtain ⟨hwf, hsize⟩ := hinv.rxout_wf
    have hlen : 0 + (s.waiting k).length ≤ s.cfg.rxoutCap := by rw [State.length_waiting]; omega
    exact { hinv with
      rd_lt_cap := Nat.mod_lt _ (by omega)
      rxout_wf := ⟨Memory.wf_writeBytes .rxOut _ _ _ hwf, Memory.within_writeBytes .rxOut _ _ hlen hsize⟩ }
  | _ => exact { hinv with }

/-- Every step keeps the ranges of R13 and the memories' form. -/
theorem StepEffect.storageInvariant {s t : State} {e : Event} (h : StepEffect s e t) (hinv : StorageInvariant s) :
    StorageInvariant t := by
  have hcaps := Params.caps_of_wf hinv.params
  cases h with
  | command i _ hx => exact hx.storageInvariant hinv
  | write off w v a0 a1 m _ h htx hrx =>
    refine { hinv with stage_wf := ?_ }
    rcases hostWrite_stage_cases h htx hrx with ⟨hstage, -⟩ | ht
    · obtain rfl : m = s.blk.stage := hstage
      exact hinv.stage_wf
    · obtain rfl : m = (writeWindowBytes s off.toNat (leBytes (accessBytes w) v.toNat)).blk.stage :=
        congrArg (fun u : State => u.blk.stage) ht
      exact stage_wf_writeWindowBytes _ s _ hinv.stage_wf
  | byte b _ _ =>
    obtain ⟨hwf, hsize⟩ := hinv.ring_wf
    exact { hinv with
      wr_lt_cap := Nat.mod_lt _ (by omega)
      ring_wf := ⟨Memory.wf_write .rxRing _ _ b hwf, Memory.within_write .rxRing _ b hinv.wr_lt_cap hsize⟩ }
  | reset _ => exact storageInvariant_of_reset hinv.params rfl
  | _ => exact { hinv with }

/-! ### Runs -/

/-- A property of the events taken and the state reached holds after a run when it holds before and every step that
takes an event keeps it. -/
theorem run_induction {s : State} {P : List Event → State → Prop}
    (hstep : ∀ es u e rest v, run es.length s = .next u → P es u → u.inputs = e :: rest → step u = .next v →
      P (es ++ [e]) v)
    {k : Nat} {t : State} (h : run k s = .next t) (h0 : P [] s) : P (s.inputs.take k) t := by
  suffices hgen : ∀ k es u, run es.length s = .next u → P es u → run k u = .next t → P (es ++ u.inputs.take k) t from
    hgen k [] s rfl h0 h
  intro k
  induction k with
  | zero =>
    intro es u _ hP hrun
    cases hrun
    simpa using hP
  | succ k ih =>
    intro es u hu hP hrun
    obtain ⟨v, hv, hrun⟩ := run_succ_cases hrun
    cases hs : u.inputs with
    | nil =>
      cases (step_of_nil hs).symm.trans hv
      simpa [hs] using ih es u hu hP hrun
    | cons e rest =>
      have hlen : run (es ++ [e]).length s = .next v := by
        rw [List.length_append]
        exact (run_add (k := 1) hu).trans (run_succ hv)
      simpa [inputs_of_step hs hv] using ih (es ++ [e]) v hlen (hstep es u e rest v hu hP hs hv) hrun

/-! ### The transfer in flight -/

/-- What takes an Idle block to InFlight (R21). -/
theorem of_txStateAfter_inFlight {b : Block} {i : Instr} (hb : b.tx_state = .idle)
    (h : txStateAfter b i = .inFlight) : i = .txCommit ∧ goodSession b = true := by
  by_cases hi : i = .txCommit
  · subst hi
    simpa [txStateAfter, hb] using h
  · cases (txStateAfter_of_idle hb hi).symm.trans h

/-- What takes an InFlight block back to Idle (R21). -/
theorem of_txStateAfter_idle {b : Block} {i : Instr} (hb : b.tx_state = .inFlight)
    (h : txStateAfter b i = .idle) : i = .txComplete ∧ b.tx_done = true := by
  cases i with
  | txCommit => simp [txStateAfter, hb] at h
  | txComplete => simpa [txStateAfter, hb] using h
  | _ => cases hb.symm.trans h

/-- While a transfer is in flight, no command changes its bytes or their number (R92). -/
theorem CommandEffect.buffer_of_inFlight {s t : State} {i : Instr} (h : CommandEffect s i t)
    (hinv : TransferInvariant s.blk) (hf : s.blk.tx_state = .inFlight) (hf' : t.blk.tx_state = .inFlight) :
    t.blk.tx_len = s.blk.tx_len ∧ t.blk.tx_buf = s.blk.tx_buf := by
  cases h with
  | openIdle _ _ _ hidle => cases hidle.symm.trans hf
  | append _ _ _ ho he _ => cases (hinv.good_session_idle ho he).symm.trans hf
  | reclaim => cases hf'
  | _ => exact ⟨rfl, rfl⟩

/-- While a transfer is in flight, no step changes its bytes or their number (R92). -/
theorem StepEffect.buffer_of_inFlight {s t : State} {e : Event} (h : StepEffect s e t)
    (hinv : TransferInvariant s.blk) (hf : s.blk.tx_state = .inFlight) (hf' : t.blk.tx_state = .inFlight) :
    t.blk.tx_len = s.blk.tx_len ∧ ∀ a, t.byteAt .txBuf a = s.byteAt .txBuf a := by
  have hbyte (hb : t.blk.tx_buf = s.blk.tx_buf) (hd : t.draw = s.draw) (a : Nat) :
      t.byteAt .txBuf a = s.byteAt .txBuf a :=
    State.byteAt_congr (r := .txBuf) hb hd a
  cases h with
  | command i _ hx =>
    obtain ⟨hlen, hbuf⟩ := hx.buffer_of_inFlight hinv hf hf'
    exact ⟨hlen, hbyte hbuf hx.draw⟩
  | reset => cases hf'
  | _ => exact ⟨rfl, hbyte rfl rfl⟩

/-- A transfer in flight that has stalled, with what is on the line (R90). -/
structure StalledWith (line : List Byte) (b : Block) : Prop where
  invariant : TransferInvariant b
  inFlight : b.tx_state = .inFlight
  stalled : b.tx_stalled = true
  line_out : b.line_out = line

/-- Every step but the reset leaves a stalled transfer stalled and the line as it is (R136). -/
theorem StalledWith.step {s t : State} {e : Event} {line : List Byte} (h : StalledWith line s.blk)
    (hx : StepEffect s e t) (hne : e ≠ .sysReset) : StalledWith line t.blk := by
  obtain ⟨hinv, hf, hst, hline⟩ := h
  have hinv' := hx.transferInvariant hinv
  cases hx with
  | command i _ hx =>
    cases hx with
    | start _ ho he => cases (hinv.good_session_idle ho he).symm.trans hf
    | reclaim _ _ hd => cases (hinv.stalled_error_not_done hst).2.symm.trans hd
    | _ => exact ⟨hinv', hf, hst, hline⟩
  | send _ _ _ hs => cases hs.symm.trans hst
  | stall _ _ _ hs => cases hs.symm.trans hst
  | reset he => exact absurd he hne
  | _ => exact ⟨hinv', hf, hst, hline⟩

/-- A stalled transfer stays stalled over every run without a reset (R136). -/
theorem run_stalled {k : Nat} {s t : State} {line : List Byte} (h : StalledWith line s.blk)
    (hreset : Event.sysReset ∉ s.inputs.take k) (hrun : run k s = .next t) : StalledWith line t.blk := by
  refine run_induction (P := fun es u => Event.sysReset ∉ es → StalledWith line u.blk) ?_ hrun (fun _ => h) hreset
  intro es u e rest v _ hu hs hstep hes
  rw [List.mem_append, List.mem_singleton, not_or] at hes
  exact StalledWith.step (s := u.withInputs rest) (hu hes.1) (step_effect hs hstep) (Ne.symm hes.2)

end Sys2Proof.Machine

namespace Sys2Proof.Proofs

open Sys2Proof.Machine Sys2Proof.Safety

/-- Settles O56, by the outcomes of a step. -/
theorem transferInvariantKept : Obligations.TransferInvariantKept := by
  intro s t hinv h
  rcases step_cases h with rfl | ⟨e, rest, -, hx⟩
  · exact ⟨hinv, id⟩
  · exact ⟨hx.transferInvariant hinv, hx.unfinishedHasBytes hinv⟩

/-- Settles O58, by the outcomes of a step; the events still to come are no part of the invariant. -/
theorem storageInvariantKept : Obligations.StorageInvariantKept := by
  intro s t hinv h
  rcases step_cases h with rfl | ⟨e, rest, -, hx⟩
  · exact hinv
  · exact hx.storageInvariant (s := s.withInputs rest) { hinv with }

/-- Settles O57: after reset there is no session and the TXM is Idle. -/
theorem transferInvariantAtReset : Obligations.TransferInvariantAtReset :=
  ⟨transferInvariant_reset, fun hf => nomatch hf⟩

/-- Settles O59: the open parameters lie in R6's ranges. -/
theorem storageInvariantAtReset : Obligations.StorageInvariantAtReset := storageInvariant_of_reset flb_wf rfl

/-- Settles O40: the transfer state changes as `txStateAfter` says, and no outcome of a step touches the buffer of a
transfer in flight: an append or TX_OPEN needs an Idle block. -/
theorem transferStateTransitions : Obligations.TransferStateTransitions := by
  intro s t e rest hinv hs h
  refine ⟨fun hidle hf' => ?starts, fun hf hidle' => ?ends, fun hf hf' => ?stays⟩
  case starts =>
    rcases step_tx_state_cases hs h with ht | ⟨i, hc, ht⟩ | ⟨-, ht⟩
    · cases hidle.symm.trans (ht.symm.trans hf')
    · obtain ⟨rfl, hgood⟩ := of_txStateAfter_inFlight hidle (ht.symm.trans hf')
      exact ⟨hc, hgood⟩
    · cases ht.symm.trans hf'
  case ends =>
    rcases step_tx_state_cases hs h with ht | ⟨i, hc, ht⟩ | ⟨he, -⟩
    · cases hf.symm.trans (ht.symm.trans hidle')
    · obtain ⟨rfl, hdone⟩ := of_txStateAfter_idle hf (ht.symm.trans hidle')
      exact .inl ⟨hc, hdone⟩
    · exact .inr he
  case stays =>
    simpa using (step_effect hs h).buffer_of_inFlight (s := s.withInputs rest) hinv hf hf'

/-- Settles O42: a stalled transfer is never done, so TX_COMPLETE answers BUSY. -/
theorem stalledTransferStaysStuck : Obligations.StalledTransferStaysStuck := by
  intro k s t hinv hf hst hreset hrun
  obtain ⟨hinv', hf', hst', hline⟩ := run_stalled ⟨hinv, hf, hst, rfl⟩ hreset hrun
  obtain ⟨-, hdone⟩ := hinv'.stalled_error_not_done hst'
  exact ⟨hf', hst', hdone, hline, _, exec_txComplete_busy hf' hdone, rfl⟩

end Sys2Proof.Proofs
end

section
/-! PROOFS. The flag table (10_state.md R39) and the interrupt outputs (R33, R110), over every step. -/

namespace Sys2Proof.Machine

open Sys2Proof.Safety

/-! ### One flag over one step -/

/-- A row of the flag table: the flag is set only under `P` and cleared only under `Q`. -/
def flagRow (f : Block → Bool) (b c : Block) (P Q : Prop) : Prop := setOnlyBy f b c P ∧ clearedOnlyBy f b c Q

theorem flagRow_of_eq {f : Block → Bool} {b c : Block} {P Q : Prop} (h : f c = f b) : flagRow f b c P Q := by
  refine ⟨fun hb hc => ?_, fun hb hc => ?_⟩ <;> cases hc.symm.trans (h.trans hb)

theorem flagRow_of_set {f : Block → Bool} {b c : Block} {P Q : Prop} (hc : f c = true) (hP : P) : flagRow f b c P Q :=
  ⟨fun _ _ => hP, fun _ hc' => by cases hc.symm.trans hc'⟩

theorem flagRow_of_clear {f : Block → Bool} {b c : Block} {P Q : Prop} (hc : f c = false) (hQ : Q) :
    flagRow f b c P Q :=
  ⟨fun _ hc' => (nomatch hc.symm.trans hc'), fun _ _ => hQ⟩

/-! ### The rows of the transmit side -/

/-- BUSY is the transfer state (R25). -/
theorem flagRow_busy {s t : State} {e : Event} {rest : List Event} (hs : s.inputs = e :: rest)
    (h : step s = .next t) : flagRow busyFlag s.blk t.blk (isCommand e .txCommit ∧ goodSession s.blk = true)
      ((isCommand e .txComplete ∧ s.blk.tx_done = true) ∨ e = .sysReset) := by
  have hidle (b : Block) : busyFlag b = false ↔ b.tx_state = .idle := by cases hb : b.tx_state <;> simp [busyFlag, hb]
  rcases step_tx_state_cases hs h with ht | ⟨i, hc, ht⟩ | ⟨he, ht⟩
  · exact flagRow_of_eq (by rw [busyFlag, ht, busyFlag])
  · refine ⟨fun hb hb' => ?_, fun hb hb' => ?_⟩
    · have hf' := (busyFlag_eq_true_iff _).mp hb'
      obtain ⟨rfl, hgood⟩ := of_txStateAfter_inFlight ((hidle _).mp hb) (ht.symm.trans hf')
      exact ⟨hc, hgood⟩
    · obtain ⟨rfl, hdone⟩ := of_txStateAfter_idle ((busyFlag_eq_true_iff _).mp hb) (ht.symm.trans ((hidle _).mp hb'))
      exact .inl ⟨hc, hdone⟩
  · exact flagRow_of_clear ((hidle _).mpr ht) (.inr he)

/-- An event that opens a session of either kind. -/
theorem opens_of_isCommand {e : Event} {i : Instr} {be : Bool} (hi : i = if be then .txOpenBe else .txOpen)
    (hc : isCommand e i) : isCommand e .txOpen ∨ isCommand e .txOpenBe := by
  subst hi
  cases be
  · exact .inl hc
  · exact .inr hc

/-- An event that ends a session. -/
theorem ends_of_isCommand {s : State} {e : Event} {i : Instr}
    (hi : (i = .txCommit ∧ s.blk.sess_err ≠ .ok) ∨ i = .txAbort) (hc : isCommand e i) :
    isCommand e .txCommit ∨ isCommand e .txAbort ∨ e = .sysReset := by
  rcases hi with ⟨rfl, -⟩ | rfl
  · exact .inl hc
  · exact .inr (.inl hc)

theorem StepEffect.sess_open {s t : State} {e : Event} (h : StepEffect s e t) :
    flagRow Block.sess_open s.blk t.blk (isCommand e .txOpen ∨ isCommand e .txOpenBe)
      (isCommand e .txCommit ∨ isCommand e .txAbort ∨ e = .sysReset) := by
  cases h with
  | command i hc hx =>
    cases hx with
    | openBusy be hi _ _ => exact flagRow_of_set rfl (opens_of_isCommand hi hc)
    | openIdle be hi _ _ => exact flagRow_of_set rfl (opens_of_isCommand hi hc)
    | start hi _ _ => exact flagRow_of_clear rfl (.inl (hi ▸ hc))
    | fail _ hi _ => exact flagRow_of_clear rfl (ends_of_isCommand hi hc)
    | _ => exact flagRow_of_eq rfl
  | reset he => exact flagRow_of_clear rfl (.inr (.inr he))
  | _ => exact flagRow_of_eq rfl

theorem StepEffect.sfail {s t : State} {e : Event} (h : StepEffect s e t) :
    flagRow sfailFlag s.blk t.blk
      (((isCommand e .txOpen ∨ isCommand e .txOpenBe) ∧ s.blk.tx_state = .inFlight) ∨
        ∃ i, appendClass i = true ∧ isCommand e i ∧ goodSession s.blk = true ∧
          s.cfg.txCap < s.blk.tx_len + appendSize i)
      (isCommand e .txCommit ∨ isCommand e .txAbort ∨ e = .sysReset) := by
  cases h with
  | command i hc hx =>
    cases hx with
    | openBusy be hi _ hf => exact flagRow_of_set rfl (.inl ⟨opens_of_isCommand hi hc, hf⟩)
    | openIdle be _ ho _ => exact flagRow_of_eq (by simp [sfailFlag, ho])
    | overflow fault ha hfault ho he hcap =>
      refine flagRow_of_set ?_ (.inr ⟨i, ha, hc, by simp [goodSession, ho, he], hcap⟩)
      rcases hfault with rfl | rfl <;> simp [sfailFlag, ho]
    | start hi _ _ => exact flagRow_of_clear rfl (.inl (hi ▸ hc))
    | fail _ hi _ => exact flagRow_of_clear rfl (ends_of_isCommand hi hc)
    | _ => exact flagRow_of_eq rfl
  | reset he => exact flagRow_of_clear rfl (.inr (.inr he))
  | _ => exact flagRow_of_eq rfl

theorem StepEffect.sess_be {s t : State} {e : Event} (h : StepEffect s e t) (hinv : TransferInvariant s.blk) :
    flagRow Block.sess_be s.blk t.blk (isCommand e .txOpenBe)
      (isCommand e .txCommit ∨ isCommand e .txAbort ∨ e = .sysReset) := by
  have hopens {c : Block} {i : Instr} {be : Bool} (hi : i = if be then .txOpenBe else .txOpen) (hc : isCommand e i)
      (ho : s.blk.sess_open = false) (hbe : c.sess_be = be) : flagRow Block.sess_be s.blk c (isCommand e .txOpenBe)
      (isCommand e .txCommit ∨ isCommand e .txAbort ∨ e = .sysReset) := by
    cases be with
    | false => exact flagRow_of_eq (hbe.trans (hinv.closed_session_clear ho).1.symm)
    | true => exact flagRow_of_set hbe ((show i = .txOpenBe from hi) ▸ hc)
  cases h with
  | command i hc hx =>
    cases hx with
    | openBusy be hi ho _ => exact hopens hi hc ho rfl
    | openIdle be hi ho _ => exact hopens hi hc ho rfl
    | start hi _ _ => exact flagRow_of_clear rfl (.inl (hi ▸ hc))
    | fail _ hi _ => exact flagRow_of_clear rfl (ends_of_isCommand hi hc)
    | _ => exact flagRow_of_eq rfl
  | reset he => exact flagRow_of_clear rfl (.inr (.inr he))
  | _ => exact flagRow_of_eq rfl

/-- The guard of the transfer-error step, as the effects say it (R90). -/
theorem transferActive_of {b : Block} (hf : b.tx_state = .inFlight) (hd : b.tx_done = false)
    (hs : b.tx_stalled = false) : transferActive b = true := by simp [transferActive, busyFlag, hf, hd, hs]

theorem StepEffect.tx_done {s t : State} {e : Event} (h : StepEffect s e t) (hinv : TransferInvariant s.blk) :
    flagRow Block.tx_done s.blk t.blk
      ((e = .txSend ∧ sendEnabled s.blk = true ∧ s.blk.tx_sent + 1 = s.blk.tx_len) ∨
        (isCommand e .txCommit ∧ goodSession s.blk = true ∧ s.blk.tx_len = 0) ∨
        (e = .txError ∧ transferActive s.blk = true ∧ s.cfg.txErrPolicy = .endAsComplete))
      ((isCommand e .txComplete ∧ s.blk.tx_state = .inFlight) ∨ e = .sysReset) := by
  cases h with
  | command i hc hx =>
    cases hx with
    | start hi ho he =>
      obtain ⟨-, hd, -, -⟩ := hinv.idle_no_progress (hinv.good_session_idle ho he)
      by_cases hlen : s.blk.tx_len = 0
      · exact flagRow_of_set (decide_eq_true hlen) (.inr (.inl ⟨hi ▸ hc, by simp [goodSession, ho, he], hlen⟩))
      · exact flagRow_of_eq ((decide_eq_false hlen).trans hd.symm)
    | reclaim hi hf _ => exact flagRow_of_clear rfl (.inl ⟨hi ▸ hc, hf⟩)
    | _ => exact flagRow_of_eq rfl
  | send he hf hd hs hlt =>
    by_cases hlast : s.blk.tx_sent + 1 = s.blk.tx_len
    · exact flagRow_of_set (decide_eq_true hlast)
        (.inl ⟨he, by simp [sendEnabled, transferActive_of hf hd hs, hlt], hlast⟩)
    · exact flagRow_of_eq ((decide_eq_false hlast).trans hd.symm)
  | errorEnd he hf hd hs hp => exact flagRow_of_set rfl (.inr (.inr ⟨he, transferActive_of hf hd hs, hp⟩))
  | reset he => exact flagRow_of_clear rfl (.inr he)
  | _ => exact flagRow_of_eq rfl

theorem StepEffect.tx_xerr {s t : State} {e : Event} (h : StepEffect s e t) :
    flagRow Block.tx_xerr s.blk t.blk (e = .txError ∧ transferActive s.blk = true)
      ((isCommand e .txComplete ∧ s.blk.tx_done = true) ∨ isCommand e .txCommit ∨ e = .sysReset) := by
  cases h with
  | command i hc hx =>
    cases hx with
    | start hi _ _ => exact flagRow_of_clear rfl (.inr (.inl (hi ▸ hc)))
    | reclaim hi _ hd => exact flagRow_of_clear rfl (.inl ⟨hi ▸ hc, hd⟩)
    | _ => exact flagRow_of_eq rfl
  | stall he hf hd hs _ => exact flagRow_of_set rfl ⟨he, transferActive_of hf hd hs⟩
  | errorEnd he hf hd hs _ => exact flagRow_of_set rfl ⟨he, transferActive_of hf hd hs⟩
  | reset he => exact flagRow_of_clear rfl (.inr (.inr he))
  | _ => exact flagRow_of_eq rfl

/-! ### The rows of the receive side -/

theorem StepEffect.rx_run {s t : State} {e : Event} (h : StepEffect s e t) :
    flagRow Block.rx_run s.blk t.blk (isCommand e .rxStart) (e = .sysReset) := by
  cases h with
  | command i hc hx =>
    cases hx with
    | rxStart hi => exact flagRow_of_set rfl (hi ▸ hc)
    | _ => exact flagRow_of_eq rfl
  | reset he => exact flagRow_of_clear rfl he
  | _ => exact flagRow_of_eq rfl

theorem StepEffect.rx_to {s t : State} {e : Event} (h : StepEffect s e t) :
    flagRow Block.rx_to s.blk t.blk (e = .rxTimeout ∧ s.blk.rx_armed = true)
      (isCommand e .rxClrto ∨ e = .sysReset) := by
  cases h with
  | command i hc hx =>
    cases hx with
    | clrto hi => exact flagRow_of_clear rfl (.inl (hi ▸ hc))
    | _ => exact flagRow_of_eq rfl
  | timeout he ha => exact flagRow_of_set rfl ⟨he, ha⟩
  | reset he => exact flagRow_of_clear rfl (.inr he)
  | _ => exact flagRow_of_eq rfl

/-- A flag that a byte sets where the write index comes to a certain place, and nothing clears with it. -/
theorem flagRow_of_or {f : Block → Bool} {b c : Block} {p : Prop} [Decidable p] {P Q : Prop}
    (h : f c = (f b || decide p)) (hP : p → P) : flagRow f b c P Q := by
  by_cases hp : p
  · exact flagRow_of_set (by simp [h, hp]) (hP hp)
  · exact flagRow_of_eq (by simp [h, hp])

/-- HT and TC: a byte sets each where the write index comes to its place, and RX_CLRIRQ clears both. -/
theorem StepEffect.rx_ht_tc {s t : State} {e : Event} (h : StepEffect s e t) :
    flagRow Block.rx_ht s.blk t.blk
      ((∃ b, e = .rxByte b) ∧ s.blk.rx_run = true ∧ (s.blk.rx_wr + 1) % s.cfg.rxCap = s.cfg.rxCap / 2)
      (isCommand e .rxClrirq ∨ e = .sysReset) ∧
    flagRow Block.rx_tc s.blk t.blk
      ((∃ b, e = .rxByte b) ∧ s.blk.rx_run = true ∧ (s.blk.rx_wr + 1) % s.cfg.rxCap = 0)
      (isCommand e .rxClrirq ∨ e = .sysReset) := by
  cases h with
  | command i hc hx =>
    cases hx with
    | clrirq hi => exact ⟨flagRow_of_clear rfl (.inl (hi ▸ hc)), flagRow_of_clear rfl (.inl (hi ▸ hc))⟩
    | _ => exact ⟨flagRow_of_eq rfl, flagRow_of_eq rfl⟩
  | byte b he hrun =>
    exact ⟨flagRow_of_or rfl fun hwr => ⟨⟨b, he⟩, hrun, hwr⟩, flagRow_of_or rfl fun hwr => ⟨⟨b, he⟩, hrun, hwr⟩⟩
  | reset he => exact ⟨flagRow_of_clear rfl (.inr he), flagRow_of_clear rfl (.inr he)⟩
  | _ => exact ⟨flagRow_of_eq rfl, flagRow_of_eq rfl⟩

/-! ### The interrupt outputs -/

/-- TX_COMPLETE answers OK only where it reclaims (R87). -/
theorem exec_txComplete_ok {s t : State} (h : exec .txComplete s = .next t) (hok : t.blk.tx_result = .ok) :
    t = s.reclaim.finishTx .ok 0 := by
  cases hf : s.blk.tx_state with
  | idle =>
    cases (exec_txComplete_idle hf).symm.trans h
    cases hok
  | inFlight =>
    cases hd : s.blk.tx_done with
    | false =>
      cases (exec_txComplete_busy hf hd).symm.trans h
      cases hok
    | true =>
      cases (exec_txComplete_done hf hd).symm.trans h
      rfl

/-- TX_IRQ goes down only with a reclaim or the reset (R110). -/
theorem StepEffect.txIrq_down {s t : State} {e : Event} (h : StepEffect s e t) (hinv : TransferInvariant s.blk)
    (hup : txIrq s.blk = true) (hdown : txIrq t.blk = false) :
    (isCommand e .txComplete ∧ t.blk.tx_result = .ok ∧ t.blk.tx_state = .idle) ∨ e = .sysReset := by
  have hne : s.blk.tx_done ≠ false := fun hd => nomatch hup.symm.trans hd
  cases h with
  | command i hc hx =>
    cases hx with
    | start _ ho he => exact absurd (hinv.idle_no_progress (hinv.good_session_idle ho he)).2.1 hne
    | reclaim hi _ _ => exact .inl ⟨hi ▸ hc, rfl, rfl⟩
    | _ => exact absurd hdown hne
  | send _ _ hd _ _ => exact absurd hd hne
  | errorEnd => cases hdown
  | reset he => exact .inr he
  | _ => exact absurd hdown hne

/-- RX_IRQ goes down only with RX_CLRIRQ or the reset (R110). -/
theorem rxIrq_down {b c : Block} {P Q R : Prop} (hht : flagRow Block.rx_ht b c P R) (htc : flagRow Block.rx_tc b c Q R)
    (hup : rxIrq b = true) (hdown : rxIrq c = false) : R := by
  rw [rxIrq, Bool.or_eq_true] at hup
  rw [rxIrq, Bool.or_eq_false_iff] at hdown
  rcases hup with hup | hup
  · exact hht.2 hup hdown.1
  · exact htc.2 hup hdown.2

end Sys2Proof.Machine

namespace Sys2Proof.Proofs

open Sys2Proof.Machine Sys2Proof.Safety

/-- Settles O51: ERROR's row is `errorLatchedUntilCleared`, BUSY's the transfer state's, and the others are read off the
outcomes of a step. -/
theorem flagTable : Obligations.FlagTable := by
  refine ⟨fun s t e rest hinv hs h => ?rows, fun f hf => ?reset⟩
  case rows =>
    have hx := step_effect hs h
    have hinv' : TransferInvariant (s.withInputs rest).blk := hinv
    obtain ⟨-, -, herrSet, herrClear⟩ := errorLatchedUntilCleared.1 s t e rest hs h
    obtain ⟨hht, htc⟩ := hx.rx_ht_tc
    refine ⟨(flagRow_busy hs h).1, (flagRow_busy hs h).2, fun hb hc => ?_, herrClear, hx.sess_open.1, hx.sess_open.2,
      hx.sfail.1, hx.sfail.2, (hx.sess_be hinv').1, (hx.sess_be hinv').2, (hx.tx_done hinv').1, (hx.tx_done hinv').2,
      hx.tx_xerr.1, hx.tx_xerr.2, hx.rx_run.1, hx.rx_run.2, hx.rx_to.1, hx.rx_to.2, hht.1, hht.2, htc.1, htc.2⟩
    exact (herrSet hb hc).imp_right (Or.imp_right fun ⟨he, hf, hd, hst⟩ => ⟨he, transferActive_of hf hd hst⟩)
  case reset =>
    simp only [List.mem_cons, List.not_mem_nil, or_false] at hf
    rcases hf with rfl | rfl | rfl | rfl | rfl | rfl | rfl | rfl | rfl | rfl | rfl <;> rfl

/-- Settles O52: TX_IRQ is DONE and RX_IRQ is HT or TC, so their ways down are those of the flags. -/
theorem interruptsClearedOnlyByTheirCommand : Obligations.InterruptsClearedOnlyByTheirCommand := by
  intro s t e rest hinv hs h
  have hx := step_effect hs h
  obtain ⟨hht, htc⟩ := hx.rx_ht_tc
  refine ⟨hx.txIrq_down (s := s.withInputs rest) hinv, rxIrq_down hht htc, fun hc => ?_, fun hc hok => ?_⟩
  · cases (exec_rxClrirq _).symm.trans ((step_of_isCommand hs hc).symm.trans h)
    rfl
  · rw [exec_txComplete_ok ((step_of_isCommand hs hc).symm.trans h) hok]
    rfl

end Sys2Proof.Proofs
end

section
/-! PROOFS. The two sides of the block (70_reset_and_hazards.md R128): a step on one port's side leaves the other side,
and what it does to its own depends on that side alone. -/

namespace Sys2Proof.Machine

open Sys2Proof.Safety

/-! ### What a command leaves alone -/

/-- A command of a port leaves the other port's side. -/
theorem CommandEffect.sides {s t : State} {i : Instr} (h : CommandEffect s i t) :
    (i.port = .tx ∧ sameReceiveSide s.blk t.blk) ∨ (i.port = .rx ∧ sameTransmitSide s.blk t.blk) := by
  cases h with
  | reportTx hp => exact .inl ⟨hp, rfl⟩
  | openBusy be hi | openIdle be hi => exact .inl ⟨by subst hi; cases be <;> rfl, rfl⟩
  | overflow _ ha | append _ ha => exact .inl ⟨port_of_appendClass ha, rfl⟩
  | start hi | reclaim hi | clrerr hi => exact .inl ⟨by subst hi; rfl, rfl⟩
  | fail _ hi => exact .inl ⟨by rcases hi with ⟨rfl, -⟩ | rfl <;> rfl, rfl⟩
  | reportRx hp => exact .inr ⟨hp, rfl⟩
  | rxStart hi | clrto hi | clrirq hi => exact .inr ⟨by subst hi; rfl, rfl⟩
  | drain n k hi => exact .inr ⟨by subst hi; rfl, rfl⟩

/-! ### A TX port command reads the transmit side only -/

/-- The state with the receive side, the events to come and the value last read of another. -/
def State.withReceiveSide (s u : State) : State :=
  { s with
    inputs := u.inputs, rdata := u.rdata
    blk := { s.blk with
      rx_result := u.blk.rx_result, rx_rvalue := u.blk.rx_rvalue, rx_run := u.blk.rx_run, rx_ring := u.blk.rx_ring,
      rx_wr := u.blk.rx_wr, rx_rd := u.blk.rx_rd, rx_to := u.blk.rx_to, rx_armed := u.blk.rx_armed,
      rx_ht := u.blk.rx_ht, rx_tc := u.blk.rx_tc, rxout := u.blk.rxout } }

/-- Two states with the same transmit side, parameters and draw differ by a receive side. -/
theorem State.eq_withReceiveSide {s u : State} (hc : u.cfg = s.cfg) (hd : u.draw = s.draw)
    (h : sameTransmitSide s.blk u.blk) : u = s.withReceiveSide u := by
  cases u
  cases hc
  cases hd
  rw [State.withReceiveSide, State.mk.injEq]
  exact ⟨rfl, h, rfl, rfl, rfl⟩

theorem State.withReceiveSide_ite (p : Prop) [Decidable p] (s t u : State) :
    (if p then s else t).withReceiveSide u = if p then s.withReceiveSide u else t.withReceiveSide u := by
  split <;> rfl

theorem State.withReceiveSide_openSession (s u : State) (be : Bool) :
    (s.withReceiveSide u).openSession be = (s.openSession be).withReceiveSide u := by
  unfold State.openSession
  rw [State.withReceiveSide_ite]
  refine if_congr Iff.rfl rfl ?_
  cases h : s.blk.tx_state <;> simp only [State.withReceiveSide, h] <;> rfl

theorem State.withReceiveSide_sessionAppend (s u : State) (bytes : List Byte) (f : ResultCode) :
    (s.withReceiveSide u).sessionAppend bytes f = (s.sessionAppend bytes f).withReceiveSide u := by
  simp only [State.sessionAppend, State.withReceiveSide_ite]
  rfl

/-- A TX port command's effect does not depend on the receive side. -/
theorem exec_withReceiveSide {i : Instr} {s t : State} (u : State) (hp : i.port = .tx) (h : exec i s = .next t) :
    exec i (s.withReceiveSide u) = .next (t.withReceiveSide u) := by
  cases i with
  | crcCalc n =>
    cases h
    rw [State.withReceiveSide_ite]
    rfl
  | encodeFrame n =>
    cases h
    rw [State.withReceiveSide_ite, ← State.withReceiveSide_sessionAppend]
    rfl
  | txOpen => cases h; exact congrArg _ (State.withReceiveSide_openSession s u false)
  | txOpenBe => cases h; exact congrArg _ (State.withReceiveSide_openSession s u true)
  | txAppendBytes n =>
    cases h
    rw [State.withReceiveSide_ite, ← State.withReceiveSide_sessionAppend]
    rfl
  | txAppendInt e w => cases h; exact congrArg _ (State.withReceiveSide_sessionAppend s u _ _)
  | txCommit =>
    cases h
    simp only [State.withReceiveSide_ite]
    rfl
  | txAbort =>
    cases h
    rw [State.withReceiveSide_ite]
    rfl
  | txComplete =>
    cases hf : s.blk.tx_state with
    | idle =>
      cases (exec_txComplete_idle hf).symm.trans h
      exact exec_txComplete_idle hf
    | inFlight =>
      cases hd : s.blk.tx_done with
      | false =>
        cases (exec_txComplete_busy hf hd).symm.trans h
        exact exec_txComplete_busy hf hd
      | true =>
        cases (exec_txComplete_done hf hd).symm.trans h
        exact exec_txComplete_done hf hd
  | txClrerr => cases h; rfl
  | _ => cases hp

/-! ### An RX port command reads the receive side only -/

/-- The state with the transmit side, the events to come and the value last read of another. -/
def State.withTransmitSide (s u : State) : State :=
  { s with
    inputs := u.inputs, rdata := u.rdata
    blk := { u.blk with
      rx_result := s.blk.rx_result, rx_rvalue := s.blk.rx_rvalue, rx_run := s.blk.rx_run, rx_ring := s.blk.rx_ring,
      rx_wr := s.blk.rx_wr, rx_rd := s.blk.rx_rd, rx_to := s.blk.rx_to, rx_armed := s.blk.rx_armed,
      rx_ht := s.blk.rx_ht, rx_tc := s.blk.rx_tc, rxout := s.blk.rxout } }

/-- Two states with the same receive side, parameters and draw differ by a transmit side. -/
theorem State.eq_withTransmitSide {s u : State} (hc : u.cfg = s.cfg) (hd : u.draw = s.draw)
    (h : sameReceiveSide s.blk u.blk) : u = s.withTransmitSide u := by
  cases u
  cases hc
  cases hd
  rw [State.withTransmitSide, State.mk.injEq]
  exact ⟨rfl, h, rfl, rfl, rfl⟩

theorem State.withTransmitSide_ite (p : Prop) [Decidable p] (s t u : State) :
    (if p then s else t).withTransmitSide u = if p then s.withTransmitSide u else t.withTransmitSide u := by
  split <;> rfl

/-- A drain and its report read the ring and its indices only. -/
theorem State.withTransmitSide_drain (s u : State) (k : Nat) (c : ResultCode) (v : Word) :
    ((s.withTransmitSide u).drain k).finishRx c v = ((s.drain k).finishRx c v).withTransmitSide u := rfl

/-- An RX port command's effect does not depend on the transmit side. -/
theorem exec_withTransmitSide {i : Instr} {s t : State} (u : State) (hp : i.port = .rx) (h : exec i s = .next t) :
    exec i (s.withTransmitSide u) = .next (t.withTransmitSide u) := by
  cases i with
  | decodeFrame n =>
    cases h
    simp only [State.withTransmitSide_ite]
    rfl
  | rxStart =>
    cases h
    rw [State.withTransmitSide_ite]
    rfl
  | rxRead n =>
    cases h
    rw [State.withTransmitSide_ite, ← State.withTransmitSide_drain]
    rfl
  | rxClrto => cases h; rfl
  | rxClrirq => cases h; rfl
  | _ => cases hp

end Sys2Proof.Machine

namespace Sys2Proof.Proofs

open Sys2Proof.Machine Sys2Proof.Safety

/-- Settles O53: each outcome of a command leaves the other port's side, and so do the turns of TXDMA, RXDMA and
RXTO. -/
theorem portsDoNotInterfere : Obligations.PortsDoNotInterfere := by
  refine fun s t => ⟨fun i h => ?command, fun e rest he hs h => ?txdma, fun e rest he hs h => ?rxdma⟩
  case command =>
    have hx := exec_effect h
    refine ⟨hx.onlyBlock, ?_⟩
    rcases hx.sides with ⟨hp, hside⟩ | ⟨hp, hside⟩ <;> rw [hp] <;> exact hside
  case txdma =>
    rcases he with rfl | rfl <;> cases (step_of_cons hs).symm.trans h
    · rcases State.txSendStep_cases { s with inputs := rest } with ⟨-, -, -, -, ht⟩ | ⟨-, ht⟩ <;> rw [ht] <;> rfl
    · rcases State.txErrorStep_cases { s with inputs := rest } with
        ⟨-, -, -, -, ht⟩ | ⟨-, -, -, -, ht⟩ | ⟨-, ht⟩ <;> rw [ht] <;> rfl
  case rxdma =>
    rcases he with ⟨b, rfl⟩ | rfl <;> cases (step_of_cons hs).symm.trans h
    · rcases State.rxByteStep_cases { s with inputs := rest } b with ⟨-, ht⟩ | ⟨-, ht⟩ <;> rw [ht] <;> rfl
    · rcases State.rxTimeoutStep_cases { s with inputs := rest } with ⟨-, ht⟩ | ⟨-, ht⟩ <;> rw [ht] <;> rfl

/-- Settles O54: replacing the other side before a command and after it is the same. -/
theorem portDependsOnItsOwnSide : Obligations.PortDependsOnItsOwnSide := by
  intro i s s' t t' hc hd h h'
  cases hp : i.port with
  | tx =>
    intro hside
    rw [State.eq_withReceiveSide hc hd hside] at h'
    cases (exec_withReceiveSide s' hp h).symm.trans h'
    rfl
  | rx =>
    intro hside
    rw [State.eq_withTransmitSide hc hd hside] at h'
    cases (exec_withTransmitSide s' hp h).symm.trans h'
    rfl

end Sys2Proof.Proofs
end

section
/-! PROOFS. Which step can change which byte of which memory (10_state.md R29, R37, R38; 20_memory.md R42). -/

namespace Sys2Proof.Machine

open Sys2Proof.Safety

/-- A state's block with bytes of a region written reads them as `putBytes` writes them. -/
theorem byteAt_eq_putBytes {s t : State} {r : Region} {lo : Nat} {bs : List Byte} (hd : t.draw = s.draw)
    (hm : t.mem r = Memory.writeBytes r (s.mem r) lo bs) (a : Nat) :
    t.byteAt r a = (s.putBytes r lo bs).byteAt r a :=
  State.byteAt_congr (hm.trans (State.putBytes_mem_self s r lo bs).symm)
    (hd.trans (State.putBytes_draw s r lo bs).symm) a

/-- A byte that changed among bytes written at rising addresses is one of them. -/
theorem covered_of_byteAt_ne {s t : State} {r : Region} {lo : Nat} {bs : List Byte} {a : Nat}
    (hne : t.byteAt r a ≠ s.byteAt r a) (hd : t.draw = s.draw) (hm : t.mem r = Memory.writeBytes r (s.mem r) lo bs) :
    lo ≤ a ∧ a < lo + bs.length := by
  by_contra hout
  refine hne ((byteAt_eq_putBytes hd hm a).trans ?_)
  exact State.byteAt_putBytes_outside s r r lo bs fun _ => by omega

/-! ### Each memory over one step -/

/-- What changes a byte of `tx_buf` (R29). -/
theorem CommandEffect.txBuf_changed {s t : State} {i : Instr} {a : Nat} (h : CommandEffect s i t)
    (hne : t.byteAt .txBuf a ≠ s.byteAt .txBuf a) :
    i = .txOpen ∨ i = .txOpenBe ∨ i = .txComplete ∨
      (appendClass i = true ∧ s.blk.tx_len ≤ a ∧ a < s.blk.tx_len + appendSize i ∧ a < s.cfg.txCap) := by
  cases h with
  | openIdle be hi =>
    cases be with
    | false => exact .inl hi
    | true => exact .inr (.inl hi)
  | append bytes ha hlen _ _ hcap =>
    obtain ⟨hlo, hhi⟩ := covered_of_byteAt_ne hne rfl rfl
    exact .inr (.inr (.inr ⟨ha, hlo, hlen ▸ hhi, by omega⟩))
  | reclaim hi => exact .inr (.inr (.inl hi))
  | _ => exact absurd rfl hne

theorem StepEffect.txBuf_changed {s t : State} {e : Event} {a : Nat} (h : StepEffect s e t)
    (hne : t.byteAt .txBuf a ≠ s.byteAt .txBuf a) :
    e = .sysReset ∨ ∃ i, isCommand e i ∧ (i = .txOpen ∨ i = .txOpenBe ∨ i = .txComplete ∨
      (appendClass i = true ∧ s.blk.tx_len ≤ a ∧ a < s.blk.tx_len + appendSize i ∧ a < s.cfg.txCap)) := by
  cases h with
  | command i hc hx => exact .inr ⟨i, hc, hx.txBuf_changed hne⟩
  | reset he => exact .inl he
  | _ => exact absurd rfl hne

theorem CommandEffect.stage_eq {s t : State} {i : Instr} (h : CommandEffect s i t) : t.blk.stage = s.blk.stage := by
  cases h <;> rfl

theorem CommandEffect.rx_ring_eq {s t : State} {i : Instr} (h : CommandEffect s i t) :
    t.blk.rx_ring = s.blk.rx_ring := by cases h <;> rfl

/-- A Host write outside the command registers leaves the STAGE bytes it does not cover and those beyond the capacity
(R37). -/
theorem byteAt_stage_of_hostWrite {off : Offset} {w : AccessWidth} {v : Word} {s t : State}
    (h : hostWrite off w v s = .next t) (htx : off ≠ cmdOffset .tx) (hrx : off ≠ cmdOffset .rx) {a : Nat}
    (hout : 0x1000 + a < off.toNat ∨ off.toNat + accessBytes w ≤ 0x1000 + a ∨ s.cfg.stageCap ≤ a) :
    t.byteAt .stage a = s.byteAt .stage a := by
  rcases hostWrite_stage_cases h htx hrx with ⟨hstage, hdraw⟩ | ht
  · exact State.byteAt_congr (r := .stage) hstage hdraw a
  · rw [ht]
    exact byteAt_writeWindowBytes_outside _ s _ fun _ => by rwa [length_leBytes]

/-- What changes a byte of `stage` (R37). -/
theorem StepEffect.stage_changed {s t : State} {e : Event} {a : Nat} (h : StepEffect s e t)
    (hne : t.byteAt .stage a ≠ s.byteAt .stage a) :
    e = .sysReset ∨ ∃ off w v, e = .hostWrite off w v ∧ off.toNat ≤ 0x1000 + a ∧
      0x1000 + a < off.toNat + accessBytes w ∧ a < s.cfg.stageCap := by
  cases h with
  | command i hc hx => exact absurd (State.byteAt_congr (r := .stage) hx.stage_eq hx.draw a) hne
  | write off w v a0 a1 m he h htx hrx =>
    refine .inr ⟨off, w, v, he, ?_⟩
    by_contra hout
    exact hne (byteAt_stage_of_hostWrite h htx hrx (by omega))
  | reset he => exact .inl he
  | _ => exact absurd rfl hne

/-- What changes a byte of `rx_ring` (R101). -/
theorem StepEffect.rxRing_changed {s t : State} {e : Event} {a : Nat} (h : StepEffect s e t)
    (hne : t.byteAt .rxRing a ≠ s.byteAt .rxRing a) :
    e = .sysReset ∨ ((∃ b, e = .rxByte b) ∧ a = s.blk.rx_wr ∧ s.blk.rx_run = true) := by
  cases h with
  | command i hc hx => exact absurd (State.byteAt_congr (r := .rxRing) hx.rx_ring_eq hx.draw a) hne
  | byte b he hrun =>
    obtain ⟨hlo, hhi⟩ := covered_of_byteAt_ne (bs := [b]) hne rfl rfl
    exact .inr ⟨⟨b, he⟩, Nat.le_antisymm (Nat.le_of_lt_succ hhi) hlo, hrun⟩
  | reset he => exact .inl he
  | _ => exact absurd rfl hne

/-- What changes a byte of `rxout` (R38). -/
theorem CommandEffect.rxOut_changed {s t : State} {i : Instr} {a : Nat} (h : CommandEffect s i t)
    (hne : t.byteAt .rxOut a ≠ s.byteAt .rxOut a) : ∃ n, i = .rxRead n ∧ a < n ∧ a < s.cfg.rxoutCap := by
  cases h with
  | drain n k hi hn hk =>
    obtain ⟨-, hhi⟩ := covered_of_byteAt_ne hne rfl rfl
    rw [State.length_waiting] at hhi
    exact ⟨n, hi, by omega, by omega⟩
  | _ => exact absurd rfl hne

theorem StepEffect.rxOut_changed {s t : State} {e : Event} {a : Nat} (h : StepEffect s e t)
    (hne : t.byteAt .rxOut a ≠ s.byteAt .rxOut a) :
    e = .sysReset ∨ ∃ n, isCommand e (.rxRead n) ∧ a < n ∧ a < s.cfg.rxoutCap := by
  cases h with
  | command i hc hx =>
    obtain ⟨n, rfl, hn, hcap⟩ := hx.rxOut_changed hne
    exact .inr ⟨n, hc, hn, hcap⟩
  | reset he => exact .inl he
  | _ => exact absurd rfl hne

end Sys2Proof.Machine

namespace Sys2Proof.Proofs

open Sys2Proof.Machine Sys2Proof.Safety

/-- Settles O55, memory by memory. -/
theorem memoriesWrittenOnlyBy : Obligations.MemoriesWrittenOnlyBy := by
  intro s t e rest r a hs h hne
  have hx := step_effect hs h
  rw [← State.withInputs_byteAt s rest] at hne
  cases r with
  | txBuf => exact hx.txBuf_changed hne
  | stage => exact hx.stage_changed hne
  | rxRing => exact hx.rxRing_changed hne
  | rxOut => exact hx.rxOut_changed hne

end Sys2Proof.Proofs
end

section
/-! PROOFS. Encoding and decoding are inverse (30_encoding.md R61 to R64): both follow the command map row by row. -/

namespace Sys2Proof.Machine

open Sys2Proof.Safety

/-! ### From a command to its word -/

/-- Every well-formed command fits its word (R60). -/
theorem encodingFits (i : Instr) : Laws.EncodingFits.Statement i := by
  cases i with
  | crcCalc n => exact Laws.EncodingFits.crcCalc n
  | encodeFrame n => exact Laws.EncodingFits.encodeFrame n
  | decodeFrame n => exact Laws.EncodingFits.decodeFrame n
  | txOpen => exact Laws.EncodingFits.txOpen
  | txOpenBe => exact Laws.EncodingFits.txOpenBe
  | txAppendBytes n => exact Laws.EncodingFits.txAppendBytes n
  | txAppendInt e w => exact Laws.EncodingFits.txAppendInt e w
  | txCommit => exact Laws.EncodingFits.txCommit
  | txAbort => exact Laws.EncodingFits.txAbort
  | txComplete => exact Laws.EncodingFits.txComplete
  | txClrerr => exact Laws.EncodingFits.txClrerr
  | rxStart => exact Laws.EncodingFits.rxStart
  | rxRead n => exact Laws.EncodingFits.rxRead n
  | rxClrto => exact Laws.EncodingFits.rxClrto
  | rxClrirq => exact Laws.EncodingFits.rxClrirq

/-- The opcode field of a well-formed command's word. -/
theorem bitField_encode_opc {i : Instr} (hwf : i.wf = true) : bitField (encode i) 31 24 = i.opc := by
  obtain ⟨hopc, hbody⟩ := encodingFits i hwf
  exact bitField_opc i.opc i.body hopc hbody

/-- The row of a command's opcode is of the command's port. -/
theorem exists_row (i : Instr) : ∃ r ∈ commandMap, r.opc = i.opc ∧ r.port = i.port := by
  cases i <;> simp [commandMap, Instr.opc, Instr.port]

/-- A word whose opcode is a row's is refused on the other port (R64). -/
theorem decode_otherPort {r : CommandRow} (hr : r ∈ commandMap) {w : Word} (ho : r.opc = bitField w 31 24) {p : Port}
    (hp : r.port ≠ p) : decode p w = .error .otherPort := by
  simp [decode, commandMap_find hr ho, hp]

theorem hasWord_crcCalc {n : Nat} (hn : n < 2 ^ 16) : hasWord (.crcCalc n) .tx (0x01000000 + n) :=
  hasWord_of_lengthRow (opc := 0x01) (by simp [commandMap]) (by decide) hn rfl rfl

theorem hasWord_decodeFrame {n : Nat} (hn : n < 2 ^ 16) : hasWord (.decodeFrame n) .rx (0x03000000 + n) :=
  hasWord_of_lengthRow (opc := 0x03) (by simp [commandMap]) (by decide) hn rfl rfl

theorem hasWord_rxRead {n : Nat} (hn : n < 2 ^ 16) : hasWord (.rxRead n) .rx (0x21000000 + n) :=
  hasWord_of_lengthRow (opc := 0x21) (by simp [commandMap]) (by decide) hn rfl rfl

/-- Every well-formed command decodes from its word on its port (R61 to R64). -/
theorem decode_encode {i : Instr} (hwf : i.wf = true) : decode i.port (encode i) = .ok i := by
  cases i with
  | crcCalc n => exact decode_encode_of_hasWord (hasWord_crcCalc (of_decide_eq_true hwf))
  | decodeFrame n => exact decode_encode_of_hasWord (hasWord_decodeFrame (of_decide_eq_true hwf))
  | rxRead n => exact decode_encode_of_hasWord (hasWord_rxRead (of_decide_eq_true hwf))
  | encodeFrame n | txAppendBytes n | txAppendInt e w => exact decode_encode_of_append hwf rfl
  | _ => rfl

/-- On the other port, a command's word is an opcode of this one (R64). -/
theorem decode_encode_otherPort {i : Instr} (hwf : i.wf = true) {p : Port} (hp : p ≠ i.port) :
    decode p (encode i) = .error .otherPort := by
  obtain ⟨r, hr, hopc, hport⟩ := exists_row i
  exact decode_otherPort hr (hopc.trans (bitField_encode_opc hwf).symm) (hport ▸ hp.symm)

/-! ### From a word to its command -/

/-- The body a format gives a command with the operands of a word (R61). -/
def operandBits (f : Format) (w : Word) : Nat :=
  match f with
  | .n _ => 0
  | .l _ => bitField w 15 0
  | .i _ => bitField w 2 0

/-- With the reserved bits clear, the operands are all of BODY (R61). -/
theorem operandBits_of_reservedClear {f : Format} {w : Word} (h : reservedClear f w = true) :
    operandBits f w = bitField w 23 0 := by
  cases f with
  | n i => exact (of_decide_eq_true h).symm
  | l make =>
    have h := of_decide_eq_true h
    simp only [operandBits, bitField] at h ⊢
    omega
  | i make =>
    have h := of_decide_eq_true h
    simp only [operandBits, bitField] at h ⊢
    omega

/-- Fields E and W of a command of Format I are the word's low bits (R62). -/
theorem field_endianOf_widthOf (w : Word) :
    4 * (endianOf (bitField w 2 2)).field + (widthOf (bitField w 1 0)).field = bitField w 2 0 := by
  have hE : (endianOf (bitField w 2 2)).field = bitField w 2 2 := by
    have := bitField_lt w 2 2
    interval_cases h : bitField w 2 2 <;> rfl
  have hW : (widthOf (bitField w 1 0)).field = bitField w 1 0 := by
    have := bitField_lt w 1 0
    interval_cases h : bitField w 1 0 <;> rfl
  rw [hE, hW]
  simp only [bitField]
  omega

/-- What decoding a row's word gives: a well-formed command with the row's opcode and the word's operands. -/
theorem operandsOf_row {r : CommandRow} (hr : r ∈ commandMap) (w : Word) :
    (operandsOf r.format w).wf = true ∧ (operandsOf r.format w).opc = r.opc ∧
      (operandsOf r.format w).body = operandBits r.format w := by
  have hlen : lenFits (bitField w 15 0) = true := decide_eq_true (bitField_lt w 15 0)
  simp only [commandMap, List.mem_cons, List.not_mem_nil, or_false] at hr
  rcases hr with rfl | rfl | rfl | rfl | rfl | rfl | rfl | rfl | rfl | rfl | rfl | rfl | rfl | rfl | rfl <;>
    simp [operandsOf, operandBits, Instr.wf, Instr.opc, Instr.body, hlen, field_endianOf_widthOf]

/-- A word that decodes is the encoding of its command, which is well-formed and of the port (R61 to R64). -/
theorem encode_of_decode {p : Port} {w : Word} {i : Instr} (h : decode p w = .ok i) :
    i.wf = true ∧ i.port = p ∧ encode i = w := by
  obtain ⟨r, hr, hopc, rfl, hclear, rfl⟩ := decode_ok_cases h
  obtain ⟨hwf, hopc', hbody⟩ := operandsOf_row hr w
  refine ⟨hwf, port_of_row hr w, ?_⟩
  rw [encode, hopc', hbody, operandBits_of_reservedClear hclear, hopc]
  exact (word_eq_opc_body w).symm

/-- A command's word, on whichever port it is one. -/
theorem decodeOnOwnPort_encode {i : Instr} (hwf : i.wf = true) : decodeOnOwnPort (encode i) = some (i.port, i) := by
  have hown := decode_encode hwf
  cases hp : i.port with
  | tx =>
    rw [hp] at hown
    rw [decodeOnOwnPort, hown]
  | rx =>
    rw [hp] at hown
    have htx := decode_encode_otherPort hwf (p := .tx) (by simp [hp])
    rw [decodeOnOwnPort, htx, hown]

end Sys2Proof.Machine

namespace Sys2Proof.Proofs

open Sys2Proof.Machine Sys2Proof.Safety

/-- Settles O1. -/
theorem decodeEncodeRoundTrip : Obligations.DecodeEncodeRoundTrip :=
  fun _ hwf => ⟨decode_encode hwf, fun _ hp => decode_encode_otherPort hwf hp⟩

/-- Settles O2. -/
theorem legalWordIsItsEncoding : Obligations.LegalWordIsItsEncoding := fun _ _ _ h => encode_of_decode h

/-- Settles O4: each word is the encoding of its command, and the last is one of the RX port. -/
theorem sampleWordsDecode : Obligations.SampleWordsDecode :=
  ⟨decode_encode (i := .crcCalc 9) rfl, decode_encode (i := .txAppendInt .le .w2) rfl,
    decode_encode (i := .txCommit) rfl, decode_encode (i := .rxRead 16) rfl, decode_encode (i := .decodeFrame 7) rfl,
    decode_encode_otherPort (i := .rxRead 16) rfl (by decide)⟩

/-- Settles O5. -/
theorem stepRunsDecodedCommand : Obligations.StepRunsDecodedCommand := by
  intro s rest p w i hs hd
  obtain ⟨hwf, rfl, -⟩ := encode_of_decode hd
  exact ⟨hwf, step_of_isCommand hs ⟨w, rfl, hd⟩⟩

/-- Settles O6: the word selects the command's own port, and the event placed there runs it. -/
theorem placedWordRunsNext : Obligations.PlacedWordRunsNext := by
  intro i s hwf
  have hport : portOfWord (encode i) = i.port := by rw [portOfWord, decodeOnOwnPort_encode hwf]
  refine ⟨by rw [decodeTableWord, tableWord_toNat, decodeOnOwnPort_encode hwf]; rfl, ?_⟩
  rw [State.withFetchWord, tableWord_toNat, hport]
  exact step_of_isCommand rfl ⟨encode i, rfl, decode_encode hwf⟩

end Sys2Proof.Proofs
end

section
/-! PROOFS. The Host's registers and windows (10_state.md R15 to R36; 20_memory.md R42 to R47): what they read, what
ignores a write, and the reset values (70_reset_and_hazards.md R123, R124). -/

namespace Sys2Proof.Machine

open Sys2Proof.Safety

/-! ### Register values -/

theorem toNat_lowHalf {n : Nat} (h : n < 2 ^ 16) : (lowHalf n).toNat = n := by
  rw [lowHalf, BitVec.toNat_ofNat]
  omega

theorem toNat_capsWord {low high : Nat} (hl : low < 2 ^ 16) (hh : high < 2 ^ 16) :
    (capsWord low high).toNat = high * 2 ^ 16 + low := by
  rw [capsWord, BitVec.toNat_ofNat]
  omega

/-- The two fields of a capacities register (R27, R36). -/
theorem bitField_capsWord {low high : Nat} (hl : low < 2 ^ 16) (hh : high < 2 ^ 16) :
    bitField (capsWord low high) 15 0 = low ∧ bitField (capsWord low high) 31 16 = high := by
  rw [bitField, bitField, toNat_capsWord hl hh]
  omega

/-- From `rx_rd`, the waiting bytes reach up to `rx_wr` around the ring (R31). -/
theorem add_ringAvail_mod {cap wr rd : Nat} (hw : wr < cap) (hr : rd < cap) :
    (rd + ringAvail cap wr rd) % cap = wr := by
  rw [ringAvail_eq hw hr]
  split
  next hle => rw [Nat.add_sub_cancel' hle, Nat.mod_eq_of_lt hw]
  next hgt => rw [show rd + (wr + cap - rd) = wr + cap by omega, Nat.add_mod_right, Nat.mod_eq_of_lt hw]

theorem ResultCode.code_le (c : ResultCode) : c.code.toNat ≤ 8 := by cases c <;> decide

/-- A result register shows the number of its code (R108). -/
theorem toNat_code_le (c : ResultCode) : (c.code.setWidth 32 : Word).toNat ≤ 8 := by
  rw [BitVec.toNat_setWidth]
  exact (Nat.mod_le _ _).trans c.code_le

/-! ### Unmapped offsets -/

/-- The offsets of register space that R43 does not list. -/
def unmappedRegister (off : Nat) : Prop :=
  (0x020 ≤ off ∧ off ≤ 0x03C) ∨ off = 0x044 ∨ off = 0x048 ∨ (0x068 ≤ off ∧ off ≤ 0xFFF)

theorem readRegister_unmapped {off : Offset} (h : unmappedRegister off.toNat) (s : State) : readRegister s off = 0 := by
  unfold unmappedRegister at h
  unfold readRegister
  split
  on_goal 15 => rfl
  all_goals omega

theorem writeRegister_unmapped {off : Offset} (h : unmappedRegister off.toNat) (v : Word) (s : State) :
    writeRegister s off v = .next s := by
  unfold unmappedRegister at h
  unfold writeRegister
  split
  on_goal 5 => rfl
  all_goals omega

/-- The window offsets beyond the window's capacity (R44). -/
def beyondWindow (c : Params) (o : Nat) : Prop :=
  (0x1000 + c.stageCap ≤ o ∧ o < 0x2000) ∨ (0x2000 + c.rxoutCap ≤ o ∧ o < 0x3000)

/-- An aligned access that starts beyond a window's capacity stays there. -/
theorem beyondWindow_add {c : Params} {off k : Nat} {w : AccessWidth} (ha : off % accessBytes w = 0)
    (h : beyondWindow c off) (hk : k < accessBytes w) : beyondWindow c (off + k) := by
  unfold beyondWindow at h ⊢
  cases w <;> simp only [accessBytes] at ha hk <;> omega

theorem windowByte_beyond {s : State} {o : Nat} (h : beyondWindow s.cfg o) : windowByte s o = 0 := by
  unfold beyondWindow at h
  rw [windowByte, if_neg (by omega), if_neg (by omega)]

/-- Bytes 0 make the number 0. -/
theorem unBe_replicate_zero (n : Nat) : unBe (List.replicate n 0) = 0 := by
  induction n with
  | zero => rfl
  | succ n ih => rw [List.replicate_succ', unBe_append, ih]; rfl

theorem readWindow_beyond {s : State} {off : Offset} {w : AccessWidth} (ha : off.toNat % accessBytes w = 0)
    (h : beyondWindow s.cfg off.toNat) : readWindow s off (accessBytes w) = 0 := by
  have hbytes : (List.range (accessBytes w)).map (fun i => windowByte s (off.toNat + i)) =
      List.replicate (accessBytes w) 0 := by
    rw [List.eq_replicate_iff]
    simp only [List.length_map, List.length_range, List.mem_map, List.mem_range, true_and]
    rintro b ⟨k, hk, rfl⟩
    exact windowByte_beyond (beyondWindow_add ha h hk)
  rw [readWindow, hbytes, unLe, List.reverse_replicate, unBe_replicate_zero]
  rfl

/-- Window bytes written outside STAGE are ignored (R44). -/
theorem writeWindowBytes_beyond (bs : List Byte) (s : State) (o : Nat)
    (h : ∀ k, k < bs.length → beyondWindow s.cfg (o + k)) : writeWindowBytes s o bs = s := by
  induction bs generalizing o with
  | nil => rfl
  | cons b bs ih =>
    have ho : beyondWindow s.cfg o := h 0 (Nat.succ_pos _)
    unfold beyondWindow at ho
    rw [writeWindowBytes, if_neg (by omega)]
    refine ih (o + 1) fun k hk => ?_
    rw [Nat.add_right_comm]
    exact h (k + 1) (Nat.succ_lt_succ hk)

/-! ### Little-endian windows -/

theorem unLe_leBytes (n v : Nat) : unLe (leBytes n v) = v % 2 ^ (8 * n) := by
  rw [unLe, leBytes, List.reverse_reverse, unBe_beBytes]

/-- The value of n STAGE bytes that are bytes of a number from the j-th on (R47). -/
theorem readWindow_of_bytes {s : State} {off : Offset} {n j v : Nat}
    (h : ∀ k, k < n → windowByte s (off.toNat + k) = BitVec.ofNat 8 (v / 2 ^ (8 * (j + k)))) :
    readWindow s off n = BitVec.ofNat 32 (v / 2 ^ (8 * j) % 2 ^ (8 * n)) := by
  have hbytes : (List.range n).map (fun i => windowByte s (off.toNat + i)) = leBytes n (v / 2 ^ (8 * j)) := by
    refine List.ext_getElem (by simp) fun k hk hk' => ?_
    rw [getElem_leBytes, Nat.div_div_eq_div_mul, ← Nat.pow_add, ← Nat.mul_add]
    simpa using h k (by simpa using hk)
  rw [readWindow, hbytes, unLe_leBytes]

theorem cfg_writeWindowBytes (s : State) (o : Nat) (bs : List Byte) : (writeWindowBytes s o bs).cfg = s.cfg := by
  rw [writeWindowBytes_eq]

/-- STAGE holds the four bytes of a word from offset o on, in order of rising significance (R47). -/
def holdsWord (s : State) (o : Nat) (v : Word) : Prop :=
  ∀ k, k < 4 → s.byteAt .stage (o + k) = BitVec.ofNat 8 (v.toNat / 2 ^ (8 * k))

/-- A 32-bit write to STAGE leaves the value there (R47). -/
theorem holdsWord_written {s : State} {o : Nat} {v : Word} (hcap : o + 4 ≤ s.cfg.stageCap) (ho : o + 4 ≤ 0x1000) :
    holdsWord (writeWindowBytes s (0x1000 + o) (leBytes (accessBytes .b32) v.toNat)) o v := by
  intro k hk
  have hin := byteAt_writeWindowBytes_inside (leBytes 4 v.toNat) s (o := 0x1000 + o) (k := k) (by omega)
    (by simpa using hk) (by omega) (by omega)
  rw [getElem_leBytes, show 0x1000 + o + k - 0x1000 = o + k by omega] at hin
  exact hin

theorem holdsWord.bitField {s : State} {o k : Nat} {v : Word} (h : holdsWord s o v) (hk : k < 4) :
    (s.byteAt .stage (o + k)).toNat = bitField v (8 * k + 7) (8 * k) := by
  rw [h k hk, BitVec.toNat_ofNat, Sys2Proof.bitField, show 8 * k + 7 + 1 - 8 * k = 8 by omega]

theorem toNat_stageOffset {a : Nat} (h : a < 0x1000) : (BitVec.ofNat 14 (0x1000 + a)).toNat = 0x1000 + a := by
  rw [BitVec.toNat_ofNat]
  omega

/-- An aligned read of some of a word's bytes in STAGE (R46, R47). -/
theorem hostRead_of_holdsWord {s : State} {o j : Nat} {v : Word} {w : AccessWidth} (h : holdsWord s o v)
    (hcap : o + 4 ≤ s.cfg.stageCap) (ho : o + 4 ≤ 0x1000) (hj : j + accessBytes w ≤ 4)
    (hal : (o + j) % accessBytes w = 0) :
    hostRead (BitVec.ofNat 14 (0x1000 + o + j)) w s =
      .next { s with rdata := BitVec.ofNat 32 (v.toNat / 2 ^ (8 * j) % 2 ^ (8 * accessBytes w)) } := by
  have hpos : 0 < accessBytes w := by cases w <;> decide
  have hoff : (BitVec.ofNat 14 (0x1000 + o + j)).toNat = 0x1000 + (o + j) := by
    rw [Nat.add_assoc]
    exact toNat_stageOffset (by omega)
  have haligned : (0x1000 + (o + j)) % accessBytes w = 0 := by
    cases w <;> simp only [accessBytes] at hal ⊢ <;> omega
  rw [hostRead_window (by omega) (by omega) (by rwa [hoff]), readWindow_of_bytes (j := j) (v := v.toNat)]
  intro k hk
  rw [hoff, windowByte_stage (by omega) (by omega), if_pos (by omega),
    show 0x1000 + (o + j) + k - 0x1000 = o + (j + k) by omega]
  exact h (j + k) (by omega)

/-! ### Access widths -/

/-- A write to register space that answers is 32 bits wide (R45). -/
theorem width_of_hostWrite {off : Offset} {w : AccessWidth} {v : Word} {s t : State} (h : hostWrite off w v s = .next t)
    (hoff : off.toNat < 0x1000) : w = .b32 := by
  by_contra hw
  have hrefused := (register_access_refused hoff (fun ha => hw ha.1) v s).2
  cases hrefused.symm.trans h

/-! ### The argument registers -/

theorem CommandEffect.args {s t : State} {i : Instr} (h : CommandEffect s i t) :
    t.blk.tx_arg0 = s.blk.tx_arg0 ∧ t.blk.tx_arg1 = s.blk.tx_arg1 := by
  cases h <;> exact ⟨rfl, rfl⟩

/-- Only a Host write of an argument register changes it, the reset aside (R15, R16). -/
theorem StepEffect.args {s t : State} {e : Event} (h : StepEffect s e t) (hne : e ≠ .sysReset) :
    ((∀ v, e ≠ .hostWrite 0x004 .b32 v) → t.blk.tx_arg0 = s.blk.tx_arg0) ∧
    ((∀ v, e ≠ .hostWrite 0x008 .b32 v) → t.blk.tx_arg1 = s.blk.tx_arg1) := by
  cases h with
  | command i _ hx => exact ⟨fun _ => hx.args.1, fun _ => hx.args.2⟩
  | write off w v a0 a1 m he h htx hrx =>
    obtain ⟨-, h0, h1, -⟩ := Proofs.hostWrite_frame h htx hrx
    refine ⟨fun hw => h0.trans (if_neg ?_), fun hw => h1.trans (if_neg ?_)⟩
    · rintro rfl
      obtain rfl := width_of_hostWrite h (by decide)
      exact hw v he
    · rintro rfl
      obtain rfl := width_of_hostWrite h (by decide)
      exact hw v he
  | reset he => exact absurd he hne
  | _ => exact ⟨fun _ => rfl, fun _ => rfl⟩

end Sys2Proof.Machine

namespace Sys2Proof.Proofs

open Sys2Proof.Machine Sys2Proof.Safety

/-- Settles O7: the reset values of the registers, and free bytes where a window lists none. -/
theorem resetRegisterValues : Obligations.ResetRegisterValues := by
  intro cfg draw hwf
  have hcaps := Params.caps_of_wf hwf
  have hpos : 0 < cfg.rxCap := by omega
  have havail : ringAvail cfg.rxCap 0 0 = 0 := by rw [ringAvail_eq hpos hpos]; rfl
  have htx := toNat_capsWord (low := cfg.txCap) (high := cfg.stageCap) (by omega) (by omega)
  have hrx := toNat_capsWord (low := cfg.rxCap) (high := cfg.rxoutCap) (by omega) (by omega)
  refine ⟨fun off hoff => ?_, htx, hrx, fun _ => rfl, fun _ => rfl, rfl, rfl, rfl⟩
  simp only [List.mem_cons, List.not_mem_nil, or_false] at hoff
  rcases hoff with rfl | rfl | rfl | rfl | rfl | rfl | rfl | rfl | rfl | rfl | rfl | rfl | rfl | rfl
  on_goal 12 => exact congrArg lowHalf havail
  all_goals rfl

/-- Settles O8. -/
theorem systemResetSetsEveryComponent : Obligations.SystemResetSetsEveryComponent := by
  intro s rest hs
  refine ⟨_, step_of_cons hs, rfl, rfl, rfl, rfl, rfl, rfl, rfl, rfl, rfl, rfl, rfl, State.byteAt_txBuf_nil rfl,
    rfl, rfl, rfl, rfl, rfl, rfl, rfl, rfl, rfl, rfl, rfl, rfl, rfl, rfl, rfl, rfl, rfl, fun r hr a => ?_⟩
  cases r with
  | txBuf => exact absurd rfl hr
  | stage | rxRing | rxOut => rfl

/-- Settles O9: the capacities are parameters, and no step changes one. -/
theorem capacityRegistersConstant : Obligations.CapacityRegistersConstant := by
  refine ⟨fun s hwf => ?fields, fun s v off hoff => ?access, fun s t h => ?constant⟩
  case fields =>
    have hcaps := Params.caps_of_wf hwf
    obtain ⟨htx, hstage⟩ := bitField_capsWord (low := s.cfg.txCap) (high := s.cfg.stageCap) (by omega) (by omega)
    obtain ⟨hrx, hrxout⟩ := bitField_capsWord (low := s.cfg.rxCap) (high := s.cfg.rxoutCap) (by omega) (by omega)
    exact ⟨htx, hstage, hrx, hrxout⟩
  case access =>
    simp only [List.mem_cons, List.not_mem_nil, or_false] at hoff
    rcases hoff with rfl | rfl <;> exact ⟨rfl, rfl⟩
  case constant =>
    have hcfg : t.cfg = s.cfg := by
      rcases step_cases h with rfl | ⟨e, rest, -, hx⟩
      · rfl
      · exact hx.cfg
    exact ⟨hcfg, congrArg (fun c : Params => capsWord c.txCap c.stageCap) hcfg,
      congrArg (fun c : Params => capsWord c.rxCap c.rxoutCap) hcfg⟩

/-- Settles O11: an unmapped register falls through every case of the map, and a byte beyond a window is 0. -/
theorem unmappedOffsetsReadZero : Obligations.UnmappedOffsetsReadZero := by
  refine ⟨fun off v s hoff ha => ?register, fun off w v s ha hoff => ?window⟩
  case register =>
    have hlt : off.toNat < 0x1000 := by omega
    rw [hostRead_register hlt ⟨rfl, ha⟩, hostWrite_register hlt ⟨rfl, ha⟩, readRegister_unmapped hoff]
    exact ⟨rfl, writeRegister_unmapped hoff v s⟩
  case window =>
    have hlo : 0x1000 ≤ off.toNat := by omega
    have hhi : off.toNat < 0x3000 := by omega
    rw [hostRead_window hlo hhi ha, hostWrite_window hlo hhi ha, readWindow_beyond ha hoff, writeWindowBytes_beyond]
    · exact ⟨rfl, rfl⟩
    · exact fun k hk => beyondWindow_add ha hoff (by simpa using hk)

/-- Settles O14: the four bytes of the value stand in STAGE, and each read puts together those it covers. -/
theorem windowsLittleEndian : Obligations.WindowsLittleEndian := by
  intro o v s hwf ha hcap
  have ho : o + 4 ≤ 0x1000 := hcap.trans (Params.stageCap_le hwf)
  have hoff : (BitVec.ofNat 14 (0x1000 + o)).toNat = 0x1000 + o := toNat_stageOffset (by omega)
  have hwrite := hostWrite_window (off := BitVec.ofNat 14 (0x1000 + o)) (w := .b32) (by omega) (by omega)
    (by rw [hoff, accessBytes]; omega) v s
  rw [hoff] at hwrite
  refine ⟨_, hwrite, ?_⟩
  have hbytes := holdsWord_written (v := v) hcap ho
  have hcfg := cfg_writeWindowBytes s (0x1000 + o) (leBytes (accessBytes .b32) v.toNat)
  generalize writeWindowBytes s (0x1000 + o) (leBytes (accessBytes .b32) v.toNat) = t at hbytes hcfg ⊢
  have hread {j : Nat} (w : AccessWidth) (hj : j + accessBytes w ≤ 4) (hal : (o + j) % accessBytes w = 0) :=
    hostRead_of_holdsWord hbytes (hcfg ▸ hcap) ho hj hal
  refine ⟨hbytes.bitField (k := 0) (by decide), hbytes.bitField (k := 1) (by decide),
    hbytes.bitField (k := 2) (by decide), hbytes.bitField (k := 3) (by decide), ?_, ?_, fun k hk => ?_⟩
  · rw [← Nat.add_zero (0x1000 + o), hread (j := 0) .b32 (by decide) ha]
    have hv : BitVec.ofNat 32 (v.toNat / 2 ^ (8 * 0) % 2 ^ (8 * accessBytes .b32)) = v :=
      BitVec.eq_of_toNat_eq (by simpa [accessBytes] using v.isLt)
    rw [hv]
  · rw [← Nat.add_zero (0x1000 + o), hread (j := 0) .b16 (by decide) (by rw [accessBytes]; omega)]
    rfl
  · rw [hread .b8 (by rw [accessBytes]; omega) (Nat.mod_one _), bitField, show 8 * k + 7 + 1 - 8 * k = 8 by omega]
    rfl

/-- Settles O15. -/
theorem offsetOutsideBlockFaults : Obligations.OffsetOutsideBlockFaults := by
  intro off w v s hoff
  have h1 : ¬ off.toNat < 0x1000 := by omega
  have h3 : ¬ off.toNat < 0x3000 := by omega
  rw [hostRead, hostWrite, if_neg h1, if_neg h1, if_neg h3, if_neg h3]
  exact ⟨rfl, rfl⟩

/-- Settles O18: the lengths and indices fit 16 bits, and the waiting bytes reach from `rx_rd` to `rx_wr`. -/
theorem lengthAndIndexRegisters : Obligations.LengthAndIndexRegisters := by
  refine ⟨fun s v off hoff => ?access, fun s hinv => ?values⟩
  case access =>
    simp only [List.mem_cons, List.not_mem_nil, or_false] at hoff
    rcases hoff with rfl | rfl | rfl | rfl <;> exact ⟨rfl, rfl⟩
  case values =>
    have hcaps := Params.caps_of_wf hinv.params
    have hlen := hinv.len_le_cap
    have hwr := hinv.wr_lt_cap
    have hrd := hinv.rd_lt_cap
    have hlt : s.avail < s.cfg.rxCap := ringAvail_lt (by omega)
    have havail : (readRegister s 0x058).toNat = s.avail := toNat_lowHalf (by omega)
    refine ⟨toNat_lowHalf (by omega), toNat_lowHalf (by omega), toNat_lowHalf (by omega), ?_, ?_⟩ <;> rw [havail]
    · exact hlt
    · exact add_ringAvail_mod hwr hrd

/-- Settles O19: the accesses by the register map, and "no other step" by the outcomes of a step. -/
theorem argumentRegisters : Obligations.ArgumentRegisters :=
  ⟨fun _ _ => ⟨rfl, rfl, rfl, rfl⟩, fun s _ _ rest hs h hne => (step_effect hs h).args (s := s.withInputs rest) hne⟩

/-- Settles O20. -/
theorem resultRegisters : Obligations.ResultRegisters := by
  intro s v
  refine ⟨rfl, rfl, rfl, rfl, toNat_code_le _, toNat_code_le _, fun off hoff => ?_, fun off hoff => ?_, rfl⟩
  · simp only [List.mem_cons, List.not_mem_nil, or_false] at hoff
    rcases hoff with rfl | rfl | rfl | rfl <;> rfl
  · simp only [List.mem_cons, List.not_mem_nil, or_false] at hoff
    rcases hoff with rfl | rfl <;> rfl

end Sys2Proof.Proofs
end

section
/-! PROOFS. What single commands and turns answer (41_tx_transfer.md R81, R82, R86 to R90; 42_rx_reader.md R97 to R99,
R102), and the end of a failed session (R80, R85, R86). -/

namespace Sys2Proof.Machine

open Sys2Proof.Safety

/-! ### Commands of the transmit transfer manager -/

/-- Opening a session does what R81 and R82 say. -/
theorem openOutcome_openSession (s : State) (be : Bool) : openOutcome s (s.openSession be) be := by
  unfold openOutcome
  rcases s.openSession_cases be with ⟨ho, h⟩ | ⟨ho, hf, h⟩ | ⟨ho, hidle, h⟩ <;> rw [h]
  · rw [if_pos ho]
    exact txReports_finishTx s _ _
  · rw [if_neg (by simp [ho]), if_pos hf]
    exact ⟨rfl, sameBytes_of_memories rfl rfl rfl rfl rfl⟩
  · rw [if_neg (by simp [ho]), if_neg (by simp [hidle])]
    refine ⟨rfl, State.byteAt_txBuf_nil rfl, fun r a hr => ?_⟩
    cases r with
    | txBuf => exact absurd rfl hr
    | stage | rxRing | rxOut => rfl

theorem exec_txAbort_noSession {s : State} (ho : s.blk.sess_open = false) :
    exec .txAbort s = .next (s.finishTx .sequenceError 0) := congrArg Host.Outcome.next (if_pos ho)

/-- TX_ABORT of a session ends it with its first error, or PRODUCER_ERROR if it has none (R86). -/
theorem exec_txAbort_session {s : State} (ho : ¬ s.blk.sess_open = false) :
    exec .txAbort s = .next (s.failSession (if s.blk.sess_err = .ok then .producerError else s.blk.sess_err)) :=
  congrArg Host.Outcome.next (if_neg ho)

/-- Either end of a failed session reports its first error (R85, R86). -/
theorem exec_end_of_failed {s : State} {last : Instr} (hf : failedSession s.blk = true)
    (hlast : last = .txCommit ∨ last = .txAbort) : exec last s = .next (s.failSession s.blk.sess_err) := by
  obtain ⟨ho, he⟩ := (sfailFlag_eq_true_iff s.blk).mp hf
  have hopen : ¬ s.blk.sess_open = false := by simp [ho]
  rcases hlast with rfl | rfl
  · exact exec_txCommit_failed hopen he
  · rw [exec_txAbort_session hopen, if_neg he]

/-! ### RX_READ -/

/-- RX_READ within RXOUT is one drain (R98). -/
theorem exec_rxRead_within {n : Nat} {s : State} (h : n ≤ s.cfg.rxoutCap) :
    exec (.rxRead n) s =
      .next ((s.drain (min s.avail n)).finishRx .ok (BitVec.ofNat 32 (min s.avail n))) :=
  congrArg Host.Outcome.next (if_neg (Nat.not_lt.mpr h))

/-- The i-th waiting byte (R96). -/
theorem State.getElem_waiting (s : State) (k i : Nat) (h : i < (s.waiting k).length) :
    (s.waiting k)[i] = s.byteAt .rxRing ((s.blk.rx_rd + i) % s.cfg.rxCap) := by simp [State.waiting]

/-- A drain copies the waiting bytes to RXOUT and leaves every other byte (R98). -/
theorem byteAt_drain (s : State) (k : Nat) (c : ResultCode) (v : Word) (r : Region) (a : Nat) :
    ((s.drain k).finishRx c v).byteAt r a = (s.putBytes .rxOut 0 (s.waiting k)).byteAt r a :=
  sameBytes_of_memories (s := s.putBytes .rxOut 0 (s.waiting k)) rfl rfl rfl rfl rfl r a

/-- The bytes drained stand in RXOUT from offset 0, in order (R98). -/
theorem bytesAt_drain (s : State) (k : Nat) (c : ResultCode) (v : Word) :
    ((s.drain k).finishRx c v).bytesAt .rxOut 0 k = s.waiting k := by
  rw [State.bytesAt_congr (s := s.putBytes .rxOut 0 (s.waiting k)) fun a _ => byteAt_drain s k c v .rxOut (0 + a)]
  simpa using s.bytesAt_putBytes .rxOut 0 (s.waiting k)

/-! ### The turns of the agents -/

theorem StepEffect.armed_by_byte {s t : State} {e : Event} (h : StepEffect s e t) (ha : s.blk.rx_armed = false)
    (ha' : t.blk.rx_armed = true) : s.blk.rx_run = true ∧ ∃ b, e = .rxByte b := by
  have hkept {P : Prop} (heq : t.blk.rx_armed = s.blk.rx_armed) : P := by cases ha'.symm.trans (heq.trans ha)
  cases h with
  | command i _ hx => cases hx <;> exact hkept rfl
  | byte b he hrun => exact ⟨hrun, b, he⟩
  | timeout => cases ha'
  | reset => cases ha'
  | _ => exact hkept rfl

end Sys2Proof.Machine

namespace Sys2Proof.Proofs

open Sys2Proof.Machine Sys2Proof.Safety

/-- Settles O27. -/
theorem txOpenResult : Obligations.TxOpenResult :=
  fun s => ⟨⟨rfl, rfl⟩, _, rfl, openOutcome_openSession s false⟩

/-- Settles O28. -/
theorem txOpenBeResult : Obligations.TxOpenBeResult :=
  fun s => ⟨⟨rfl, rfl⟩, _, rfl, openOutcome_openSession s true⟩

/-- Settles O32. -/
theorem txAbortResult : Obligations.TxAbortResult := by
  intro s
  refine ⟨⟨rfl, rfl⟩, ?_⟩
  by_cases ho : s.blk.sess_open = false
  · refine ⟨_, exec_txAbort_noSession ho, ?_⟩
    rw [if_pos ho]
    exact txReports_finishTx s _ _
  · refine ⟨_, exec_txAbort_session ho, ?_⟩
    rw [if_neg ho]
    exact failOutcome_failSession s _

/-- Settles O33, by TX_COMPLETE's three cases. -/
theorem txCompleteResult : Obligations.TxCompleteResult := by
  intro s
  refine ⟨⟨rfl, rfl⟩, ?_⟩
  cases hf : s.blk.tx_state with
  | idle => exact ⟨_, exec_txComplete_idle hf, txReports_finishTx s _ _⟩
  | inFlight =>
    cases hd : s.blk.tx_done with
    | false => exact ⟨_, exec_txComplete_busy hf hd, txReports_finishTx s _ _⟩
    | true =>
      refine ⟨_, exec_txComplete_done hf hd, rfl, State.byteAt_txBuf_nil rfl, fun r a hr => ?_⟩
      cases r with
      | txBuf => exact absurd rfl hr
      | stage | rxRing | rxOut => rfl

/-- Settles O35. -/
theorem txClrerrResult : Obligations.TxClrerrResult :=
  fun _ => ⟨⟨rfl, rfl⟩, _, rfl, rfl, sameBytes_of_memories rfl rfl rfl rfl rfl⟩

/-- Settles O36, by the send step's two cases. -/
theorem txSendStepResult : Obligations.TxSendStepResult := by
  intro s rest hs
  refine ⟨_, step_of_cons hs, ?_⟩
  rcases State.txSendStep_cases { s with inputs := rest } with ⟨hf, hd, hst, hlt, ht⟩ | ⟨hno, ht⟩ <;> rw [ht]
  · rw [if_pos ⟨hf, hd, hst, hlt⟩]
    exact ⟨sameBytes_of_memories rfl rfl rfl rfl rfl, rfl⟩
  · rw [if_neg hno]
    exact ⟨sameBytes_of_memories rfl rfl rfl rfl rfl, rfl⟩

/-- Settles O37, by the transfer-error step's three cases. -/
theorem txErrorStepResult : Obligations.TxErrorStepResult := by
  intro s rest hs
  refine ⟨_, step_of_cons hs, ?_⟩
  rcases State.txErrorStep_cases { s with inputs := rest } with
    ⟨hf, hd, hst, hp, ht⟩ | ⟨hf, hd, hst, hp, ht⟩ | ⟨hno, ht⟩ <;> rw [ht]
  · rw [if_pos ⟨hf, hd, hst⟩, if_pos hp, if_pos hp]
    exact ⟨sameBytes_of_memories rfl rfl rfl rfl rfl, rfl⟩
  · have hne : s.cfg.txErrPolicy ≠ .stall := fun h => nomatch hp.symm.trans h
    rw [if_pos ⟨hf, hd, hst⟩, if_neg hne, if_neg hne]
    exact ⟨sameBytes_of_memories rfl rfl rfl rfl rfl, rfl⟩
  · rw [if_neg hno]
    exact ⟨sameBytes_of_memories rfl rfl rfl rfl rfl, rfl⟩

/-- Settles O39: the appends only report, and the end reports the first error. -/
theorem failedSessionKeepsFirstError : Obligations.FailedSessionKeepsFirstError := by
  intro s appends last rest hf happ hlast hs
  obtain ⟨c, v, hrun⟩ := run_appends_of_failed happ (rest := txCommands [last] ++ rest) hf
    (by rw [hs, txCommands_append, List.append_assoc]) (Nat.le_refl _)
  rw [List.drop_length] at hrun
  have hd : decode .tx (encode last) = .ok last := by rcases hlast with rfl | rfl <;> rfl
  have hend := exec_end_of_failed (s := (s.withInputs rest).finishTx c v) hf hlast
  have hstep := (step_of_txCommand (s := (s.withInputs (txCommands [last] ++ rest)).finishTx c v) hd rfl).trans hend
  exact ⟨_, (run_add (k := 1) hrun).trans (run_succ hstep), rfl⟩

/-- Settles O44. -/
theorem rxStartResult : Obligations.RxStartResult := by
  intro s
  refine ⟨⟨rfl, rfl⟩, _, rfl, ?_⟩
  by_cases hrun : s.blk.rx_run = true
  · rw [if_pos hrun, if_pos hrun]
    exact rxReports_finishRx s _ _
  · rw [if_neg hrun, if_neg hrun]
    exact ⟨rfl, sameBytes_of_memories rfl rfl rfl rfl rfl⟩

/-- Settles O45: beyond RXOUT the command only reports, and within it it is one drain. -/
theorem rxReadResult : Obligations.RxReadResult := by
  intro n s
  refine ⟨hasWord_rxRead, ?_⟩
  by_cases hn : s.cfg.rxoutCap < n
  · refine ⟨_, exec_beyond_rxout hn (by simp), ?_⟩
    rw [if_pos hn]
    exact rxReports_finishRx s _ _
  · refine ⟨_, exec_rxRead_within (Nat.not_lt.mp hn), ?_⟩
    rw [if_neg hn]
    refine ⟨min s.avail n, rfl, ?_⟩
    generalize min s.avail n = k
    refine ⟨by rw [State.finishRx_drain], fun i hi => ?_, fun r a hout => ?_⟩
    · have hin := s.byteAt_putBytes_inside .rxOut 0 (s.waiting k) i (by simpa using hi)
      rw [Nat.zero_add, State.getElem_waiting] at hin
      rw [byteAt_drain, hin]
    · rw [byteAt_drain]
      exact s.byteAt_putBytes_outside .rxOut r 0 (s.waiting k) (by simpa using hout)

/-- Settles O46. -/
theorem rxClrtoResult : Obligations.RxClrtoResult :=
  fun _ => ⟨⟨rfl, rfl⟩, _, rfl, rfl, sameBytes_of_memories rfl rfl rfl rfl rfl⟩

/-- Settles O49, by the timeout step's two cases, and "only" by the outcomes of a step. -/
theorem rxTimeoutStepResult : Obligations.RxTimeoutStepResult := by
  refine ⟨fun s rest hs => ⟨_, step_of_cons hs, ?_⟩, fun s t e rest hs h ha ha' => ?_⟩
  · rcases State.rxTimeoutStep_cases { s with inputs := rest } with ⟨ha, ht⟩ | ⟨ha, ht⟩ <;> rw [ht]
    · rw [if_pos ha]
      exact ⟨sameBytes_of_memories rfl rfl rfl rfl rfl, rfl⟩
    · rw [if_neg (by simpa using ha)]
      exact ⟨sameBytes_of_memories rfl rfl rfl rfl rfl, rfl⟩
  · exact (step_effect hs h).armed_by_byte (s := s.withInputs rest) ha ha'

end Sys2Proof.Proofs
end

section
/-! PROOFS. The CRC (40_codec.md R68, R72) and what DECODE detects (R74, R77): one turn of the register can be undone,
so one changed byte changes the CRC. -/

namespace Sys2Proof.Machine

open Sys2Proof.Safety

/-! ### The default CRC is R68's pseudocode -/

theorem crcBits_iscsi (n : Nat) (c : Word) : crcBits .iscsi n c = crcLoop n c := by
  induction n generalizing c with
  | zero => rfl
  | succ n ih => exact ih _

theorem foldl_crcByte_iscsi (bs : List Byte) (c : Word) : bs.foldl (crcByte .iscsi) c = crcBytes c bs := by
  induction bs generalizing c with
  | nil => rfl
  | cons b bs ih => rw [List.foldl_cons, ih, crcByte, crcBits_iscsi]; rfl

theorem crc32_iscsi (bs : List Byte) : crc32 .iscsi bs = crc32c bs := by
  rw [crc32, crcRegister, foldl_crcByte_iscsi]
  rfl

/-- The catalogue's check value, the CRC of "123456789" (R68). -/
theorem crc32_check_value : crc32 .iscsi [0x31, 0x32, 0x33, 0x34, 0x35, 0x36, 0x37, 0x38, 0x39] = 0xE3069283 := by
  decide +kernel

/-- CRC_CALC within STAGE (R72). -/
theorem exec_crcCalc_within {n : Nat} {s : State} (h : n ≤ s.cfg.stageCap) :
    exec (.crcCalc n) s = .next (s.finishTx .ok (crc32 s.cfg.crc (s.bytesAt .stage 0 n))) :=
  congrArg Host.Outcome.next (if_neg (Nat.not_lt.mpr h))

/-! ### The register can be run backwards -/

/-- The bits after one turn of the inner loop: the register shifted, with the polynomial where bit 0 was 1 (R68). -/
theorem getLsbD_crcBit (p : CrcParams) (c : Word) (k : Nat) :
    (crcBit p c).getLsbD k = (c.getLsbD (1 + k) ^^ (c.getLsbD 0 && p.polyRev.getLsbD k)) := by
  unfold crcBit
  cases h : c.getLsbD 0 <;> simp

/-- A polynomial whose top coefficient is 1 shows in the top bit which way a turn went, so no turn loses anything. -/
theorem crcBit_injective {p : CrcParams} (hp : p.polyRev.getLsbD 31 = true) : Function.Injective (crcBit p) := by
  intro c d h
  have hbit (k : Nat) : (c.getLsbD (1 + k) ^^ (c.getLsbD 0 && p.polyRev.getLsbD k)) =
      (d.getLsbD (1 + k) ^^ (d.getLsbD 0 && p.polyRev.getLsbD k)) := by
    rw [← getLsbD_crcBit, ← getLsbD_crcBit, h]
  have hlow : c.getLsbD 0 = d.getLsbD 0 := by
    simpa only [hp, BitVec.getLsbD_of_ge _ (1 + 31) (Nat.le_refl 32), Bool.and_true, Bool.false_xor] using hbit 31
  refine BitVec.eq_of_getLsbD_eq fun k _ => ?_
  cases k with
  | zero => exact hlow
  | succ k =>
    have hk := hbit k
    rw [hlow] at hk
    rw [Nat.add_comm k 1]
    exact Bool.xor_left_inj.mp hk

theorem crcBits_injective {p : CrcParams} (hp : p.polyRev.getLsbD 31 = true) (n : Nat) :
    Function.Injective (crcBits p n) := by
  induction n with
  | zero => exact Function.injective_id
  | succ n ih => exact ih.comp (crcBit_injective hp)

/-- Different registers stay different under the same byte. -/
theorem crcByte_injective {p : CrcParams} (hp : p.polyRev.getLsbD 31 = true) (b : Byte) :
    Function.Injective (fun c => crcByte p c b) := by
  intro c d h
  exact (BitVec.xor_left_inj _).mp (crcBits_injective hp 8 h)

/-- Different bytes take a register to different ones. -/
theorem crcByte_ne {p : CrcParams} (hp : p.polyRev.getLsbD 31 = true) (href : p.refIn = true) (c : Word) {b b' : Byte}
    (h : b ≠ b') : crcByte p c b ≠ crcByte p c b' := by
  intro heq
  have hx := (BitVec.xor_right_inj _).mp (crcBits_injective hp 8 heq)
  simp only [crcInput, href, if_true] at hx
  refine h (BitVec.eq_of_toNat_eq ?_)
  have hn := congrArg BitVec.toNat hx
  have hb := b.isLt
  have hb' := b'.isLt
  simp only [BitVec.toNat_setWidth] at hn
  omega

/-- Different registers stay different under any bytes. -/
theorem foldl_crcByte_injective {p : CrcParams} (hp : p.polyRev.getLsbD 31 = true) (bs : List Byte) :
    Function.Injective (fun c => bs.foldl (crcByte p) c) := by
  induction bs with
  | nil => exact Function.injective_id
  | cons b bs ih => exact ih.comp (crcByte_injective hp b)

/-- One changed byte changes the default CRC. -/
theorem crc32_iscsi_ne (xs ys : List Byte) {b b' : Byte} (h : b ≠ b') :
    crc32 .iscsi (xs ++ b :: ys) ≠ crc32 .iscsi (xs ++ b' :: ys) := by
  have hp : CrcParams.iscsi.polyRev.getLsbD 31 = true := by decide
  intro heq
  have hreg : crcRegister .iscsi (xs ++ b :: ys) = crcRegister .iscsi (xs ++ b' :: ys) := (BitVec.xor_left_inj _).mp heq
  rw [crcRegister_append, crcRegister_append] at hreg
  exact crcByte_ne hp rfl _ h (foldl_crcByte_injective hp ys hreg)

/-- One changed byte of a region changes the default CRC of the bytes around it. -/
theorem crc32_bytesAt_ne {s s' : State} {r : Region} {n j : Nat} (hj : j < n) (hne : s'.byteAt r j ≠ s.byteAt r j)
    (hsame : ∀ a, a < n → a ≠ j → s'.byteAt r a = s.byteAt r a) :
    crc32 .iscsi (s'.bytesAt r 0 n) ≠ crc32 .iscsi (s.bytesAt r 0 n) := by
  have hsplit (u : State) : u.bytesAt r 0 n = u.bytesAt r 0 j ++ u.byteAt r j :: u.bytesAt r (j + 1) (n - j - 1) := by
    have hn : n = j + (1 + (n - j - 1)) := by omega
    conv_lhs => rw [hn]
    rw [State.bytesAt_add, State.bytesAt_add, Nat.zero_add]
    simp [State.bytesAt]
  have hbefore : s'.bytesAt r 0 j = s.bytesAt r 0 j :=
    State.bytesAt_congr fun k hk => hsame _ (by omega) (by omega)
  have hafter : s'.bytesAt r (j + 1) (n - j - 1) = s.bytesAt r (j + 1) (n - j - 1) :=
    State.bytesAt_congr fun k hk => hsame _ (by omega) (by omega)
  rw [hsplit s', hsplit s, hbefore, hafter]
  exact crc32_iscsi_ne _ _ hne

/-! ### DECODE accepts and rejects -/

/-- What DECODE has found when it answers OK (R74). -/
theorem of_exec_decodeFrame_ok {n : Nat} {s t : State} (h : exec (.decodeFrame n) s = .next t)
    (hok : t.blk.rx_result = .ok) :
    n ≤ s.cfg.rxoutCap ∧ 4 ≤ n ∧
      (crc32 s.cfg.crc (s.bytesAt .rxOut 0 (n - 4))).toNat = unBe (s.bytesAt .rxOut (n - 4) 4) ∧
      t.blk.rx_rvalue = crc32 s.cfg.crc (s.bytesAt .rxOut 0 (n - 4)) := by
  by_cases hn : s.cfg.rxoutCap < n
  · cases (exec_beyond_rxout hn (by simp)).symm.trans h
    cases hok
  · have hle := Nat.not_lt.mp hn
    by_cases h4 : n < 4
    · cases (exec_decodeFrame_short hle h4).symm.trans h
      cases hok
    · have hge := Nat.not_lt.mp h4
      cases (exec_decodeFrame_within hle hge).symm.trans h
      exact ⟨hle, hge, by simpa using hok, rfl⟩

/-- DECODE of a payload whose CRC is not the trailer (R74). -/
theorem exec_decodeFrame_mismatch {n : Nat} {s : State} (h : n ≤ s.cfg.rxoutCap) (h4 : 4 ≤ n)
    (hne : (crc32 s.cfg.crc (s.bytesAt .rxOut 0 (n - 4))).toNat ≠ unBe (s.bytesAt .rxOut (n - 4) 4)) :
    exec (.decodeFrame n) s =
      .next (s.finishRx .integrityFault (crc32 s.cfg.crc (s.bytesAt .rxOut 0 (n - 4)))) := by
  rw [exec_decodeFrame_within h h4, if_neg hne]

end Sys2Proof.Machine

namespace Sys2Proof.Proofs

open Sys2Proof.Machine Sys2Proof.Safety

/-- Settles O21: the model's CRC is R68's loop line by line, and CRC_CALC reports it. -/
theorem crcCalcResult : Obligations.CrcCalcResult := by
  refine ⟨crc32_iscsi, crc32_check_value, fun n s => ⟨hasWord_crcCalc, ?_⟩⟩
  by_cases hn : s.cfg.stageCap < n
  · refine ⟨_, exec_beyond_stage hn (by simp), ?_, fun _ _ => rfl⟩
    rw [if_pos hn]
    exact txReports_finishTx s _ _
  · refine ⟨_, exec_crcCalc_within (Nat.not_lt.mp hn), ?_, fun h0 hcrc => ?_⟩
    · rw [if_neg hn]
      exact txReports_finishTx s _ _
    · subst h0
      rw [hcrc]
      exact crc32_nil

/-- Settles O24: the payload, and so the computed CRC, is the same, and four other bytes are another number. -/
theorem decodeRejectsChangedTrailer : Obligations.DecodeRejectsChangedTrailer := by
  rintro n s s' t - h hok hcfg hsame ⟨j, hj, hne⟩
  obtain ⟨hle, h4, hcrc, hvalue⟩ := of_exec_decodeFrame_ok h hok
  have hpayload : s'.bytesAt .rxOut 0 (n - 4) = s.bytesAt .rxOut 0 (n - 4) :=
    State.bytesAt_congr fun k hk => hsame _ (by omega)
  have htrailer : unBe (s'.bytesAt .rxOut (n - 4) 4) ≠ unBe (s.bytesAt .rxOut (n - 4) 4) := fun heq =>
    hne ((State.bytesAt_eq_bytesAt_iff s s' _ _ _ _ _).mp (unBe_inj _ _ (by simp) heq) j hj)
  refine ⟨_, exec_decodeFrame_mismatch (hcfg ▸ hle) h4 ?_, rfl, ?_⟩
  · rw [hcfg, hpayload, hcrc]
    exact htrailer.symm
  · rw [hvalue, ← hcfg, ← hpayload]
    rfl

/-- Settles O25: a changed payload byte changes the CRC but not the trailer, and a changed trailer byte is O24. -/
theorem decodeDetectsOneByteChange : Obligations.DecodeDetectsOneByteChange := by
  intro n j s s' t hiscsi h hok hcfg hj hne hsame
  obtain ⟨hle, h4, hcrc, -⟩ := of_exec_decodeFrame_ok h hok
  by_cases hjp : j < n - 4
  · have htrailer : s'.bytesAt .rxOut (n - 4) 4 = s.bytesAt .rxOut (n - 4) 4 :=
      State.bytesAt_congr fun k hk => hsame _ (by omega) (by omega)
    refine ⟨_, exec_decodeFrame_mismatch (hcfg ▸ hle) h4 fun heq => ?_, rfl⟩
    rw [hcfg, htrailer, ← hcrc, hiscsi] at heq
    exact crc32_bytesAt_ne hjp hne (fun a ha => hsame a (by omega)) (BitVec.eq_of_toNat_eq heq)
  · obtain ⟨t', ht', hfault, -⟩ := decodeRejectsChangedTrailer n s s' t hle h hok hcfg
      (fun a ha => hsame a (by omega) (by omega))
      ⟨j - (n - 4), by omega, by rwa [Nat.add_sub_cancel' (Nat.not_lt.mp hjp)]⟩
    exact ⟨t', ht', hfault⟩

end Sys2Proof.Proofs
end

section
/-! PROOFS. A transfer under any order of steps (41_tx_transfer.md R89, R91; 42_rx_reader.md R103): what it has come to
while it is being sent, its delivery, and fair orders. -/

namespace Sys2Proof.Machine

open Sys2Proof.Safety

/-- The step at an event placed is the event, on the state with those behind it. -/
theorem step_withInputs_cons (s : State) (e : Event) (es : List Event) :
    step (s.withInputs (e :: es)) = perform e (s.withInputs es) := step_of_cons rfl

theorem step_withInputs_effect {s t : State} {e : Event} {es : List Event}
    (h : step (s.withInputs (e :: es)) = .next t) : StepEffect (s.withInputs es) e t :=
  perform_effect ((step_withInputs_cons s e es).symm.trans h)

/-! ### The line over one step -/

/-- A step other than the reset only adds to the line. -/
theorem StepEffect.line_out {s t : State} {e : Event} (h : StepEffect s e t) (hne : e ≠ .sysReset) :
    ∃ more, t.blk.line_out = s.blk.line_out ++ more := by
  have hkept (heq : t.blk.line_out = s.blk.line_out) : ∃ more, t.blk.line_out = s.blk.line_out ++ more :=
    ⟨[], heq.trans (List.append_nil _).symm⟩
  cases h with
  | command i _ hx => cases hx <;> exact hkept rfl
  | send => exact ⟨_, rfl⟩
  | reset he => exact absurd he hne
  | _ => exact hkept rfl

/-! ### A transfer being sent -/

/-- In `t` the transfer in flight in `s` is still being sent: the bytes sent since `s` are on the line, in index order,
and the rest is waiting. -/
structure Sending (s t : State) : Prop where
  invariant : TransferInvariant t.blk
  inFlight : t.blk.tx_state = .inFlight
  notDone : t.blk.tx_done = false
  notStalled : t.blk.tx_stalled = false
  len : t.blk.tx_len = s.blk.tx_len
  sent_le : s.blk.tx_sent ≤ t.blk.tx_sent
  bytes : ∀ a, t.byteAt .txBuf a = s.byteAt .txBuf a
  line : t.blk.line_out = s.blk.line_out ++ s.bytesAt .txBuf s.blk.tx_sent (t.blk.tx_sent - s.blk.tx_sent)
  unfinished : s.blk.tx_sent < s.blk.tx_len → t.blk.tx_sent < t.blk.tx_len

/-- In `t` the transfer in flight in `s` is done, and all its bytes are on the line (R89). -/
structure Delivered (s t : State) : Prop where
  inFlight : t.blk.tx_state = .inFlight
  done : t.blk.tx_done = true
  line : t.blk.line_out = s.blk.line_out ++ s.bytesAt .txBuf s.blk.tx_sent (s.blk.tx_len - s.blk.tx_sent)

theorem sending_self {s : State} (hinv : TransferInvariant s.blk) (hf : s.blk.tx_state = .inFlight)
    (hd : s.blk.tx_done = false) (hs : s.blk.tx_stalled = false) : Sending s s where
  invariant := hinv
  inFlight := hf
  notDone := hd
  notStalled := hs
  len := rfl
  sent_le := Nat.le_refl _
  bytes _ := rfl
  line := by rw [Nat.sub_self]; exact (List.append_nil _).symm
  unfinished := id

/-- The events to come are no part of what a transfer has come to. -/
theorem Sending.withInputs {s t : State} (h : Sending s t) (es : List Event) : Sending s (t.withInputs es) :=
  { h with bytes := fun a => (t.withInputs_byteAt es .txBuf a).trans (h.bytes a) }

/-- A step that is no turn of TXDMA and no reset leaves the progress of a transfer being sent. -/
theorem StepEffect.progress {s t : State} {e : Event} (h : StepEffect s e t) (hinv : TransferInvariant s.blk)
    (hf : s.blk.tx_state = .inFlight) (hd : s.blk.tx_done = false) (hsend : e ≠ .txSend) (herr : e ≠ .txError)
    (hreset : e ≠ .sysReset) :
    t.blk.tx_state = s.blk.tx_state ∧ t.blk.tx_done = s.blk.tx_done ∧ t.blk.tx_stalled = s.blk.tx_stalled ∧
      t.blk.tx_sent = s.blk.tx_sent ∧ t.blk.line_out = s.blk.line_out := by
  cases h with
  | command i _ hx =>
    cases hx with
    | start _ ho he => cases (hinv.good_session_idle ho he).symm.trans hf
    | reclaim _ _ hdone => cases hd.symm.trans hdone
    | _ => exact ⟨rfl, rfl, rfl, rfl, rfl⟩
  | send he => exact absurd he hsend
  | stall he => exact absurd he herr
  | errorEnd he => exact absurd he herr
  | reset he => exact absurd he hreset
  | _ => exact ⟨rfl, rfl, rfl, rfl, rfl⟩

/-- A step that is no turn of TXDMA and no reset leaves a transfer being sent. -/
theorem Sending.other {s t u : State} {e : Event} (h : Sending s t) (hx : StepEffect t e u) (hsend : e ≠ .txSend)
    (herr : e ≠ .txError) (hreset : e ≠ .sysReset) : Sending s u ∧ u.blk.tx_sent = t.blk.tx_sent := by
  obtain ⟨hstate, hdone, hst, hsent, hline⟩ := hx.progress h.invariant h.inFlight h.notDone hsend herr hreset
  have hf := hstate.trans h.inFlight
  obtain ⟨hlen, hbytes⟩ := hx.buffer_of_inFlight h.invariant h.inFlight hf
  refine ⟨?_, hsent⟩
  exact
    { invariant := hx.transferInvariant h.invariant
      inFlight := hf
      notDone := hdone.trans h.notDone
      notStalled := hst.trans h.notStalled
      len := hlen.trans h.len
      sent_le := hsent ▸ h.sent_le
      bytes := fun a => (hbytes a).trans (h.bytes a)
      line := by rw [hline, hsent, h.line]
      unfinished := fun hlt => by rw [hsent, hlen]; exact h.unfinished hlt }

/-- TXDMA's turn while bytes wait sends the next one (R89). -/
theorem State.txSendStep_of_waiting {s : State} (hf : s.blk.tx_state = .inFlight) (hd : s.blk.tx_done = false)
    (hs : s.blk.tx_stalled = false) (hlt : s.blk.tx_sent < s.blk.tx_len) :
    s.txSendStep = { s with blk := { s.blk with
      line_out := s.blk.line_out ++ [s.byteAt .txBuf s.blk.tx_sent], tx_sent := s.blk.tx_sent + 1,
      tx_done := decide (s.blk.tx_sent + 1 = s.blk.tx_len) } } := by
  rcases s.txSendStep_cases with ⟨-, -, -, -, h⟩ | ⟨hno, -⟩
  · exact h
  · exact absurd ⟨hf, hd, hs, hlt⟩ hno

/-- A sequence of bytes and the byte after it. -/
theorem State.bytesAt_succ (s : State) (r : Region) (a n : Nat) :
    s.bytesAt r a (n + 1) = s.bytesAt r a n ++ [s.byteAt r (a + n)] := by
  rw [State.bytesAt_add]
  simp [State.bytesAt]

/-- TXDMA's turn while bytes wait: one more byte is on the line, and with the last one the transfer is delivered. -/
theorem Sending.send {s t : State} (h : Sending s t) (hlt : t.blk.tx_sent < t.blk.tx_len) :
    (Sending s t.txSendStep ∧ t.txSendStep.blk.tx_sent = t.blk.tx_sent + 1) ∨ Delivered s t.txSendStep := by
  have heq := State.txSendStep_of_waiting h.inFlight h.notDone h.notStalled hlt
  have hinv : TransferInvariant t.txSendStep.blk :=
    (perform_effect (e := .txSend) rfl).transferInvariant h.invariant
  have hle := h.sent_le
  have hline : t.txSendStep.blk.line_out =
      s.blk.line_out ++ s.bytesAt .txBuf s.blk.tx_sent (t.blk.tx_sent + 1 - s.blk.tx_sent) := by
    rw [heq, Nat.sub_add_comm hle, State.bytesAt_succ, Nat.add_sub_cancel' hle, ← List.append_assoc, ← h.line, h.bytes]
  by_cases hlast : t.blk.tx_sent + 1 = t.blk.tx_len
  · refine .inr ⟨by rw [heq]; exact h.inFlight, by rw [heq]; exact decide_eq_true hlast, ?_⟩
    rw [hline, hlast, h.len]
  · have hsent : t.txSendStep.blk.tx_sent = t.blk.tx_sent + 1 := by rw [heq]
    have hlen : t.txSendStep.blk.tx_len = t.blk.tx_len := by rw [heq]
    refine .inl ⟨?_, hsent⟩
    exact
      { invariant := hinv
        inFlight := by rw [heq]; exact h.inFlight
        notDone := by rw [heq]; exact decide_eq_false hlast
        notStalled := by rw [heq]; exact h.notStalled
        len := hlen.trans h.len
        sent_le := by omega
        bytes := fun a => by
          rw [heq]
          exact h.bytes a
        line := by rw [hline, hsent]
        unfinished := fun _ => by omega }

/-- TXDMA's turn with nothing left to send changes nothing (log 5). -/
theorem State.txSendStep_of_nothing_left {s : State} (h : ¬ s.blk.tx_sent < s.blk.tx_len) : s.txSendStep = s := by
  rcases s.txSendStep_cases with ⟨-, -, -, hlt, -⟩ | ⟨-, heq⟩
  · exact absurd hlt h
  · exact heq

/-- One step of a transfer being sent that is no transfer error and no reset: it is still being sent, with one byte
more if it was TXDMA's turn and a byte was waiting, or it is delivered. -/
theorem Sending.step {s t u : State} {e : Event} {es : List Event} (h : Sending s t)
    (hstep : step (t.withInputs (e :: es)) = .next u) (herr : e ≠ .txError) (hreset : e ≠ .sysReset) :
    (Sending s u ∧ u.blk.tx_sent =
      if e = .txSend ∧ t.blk.tx_sent < t.blk.tx_len then t.blk.tx_sent + 1 else t.blk.tx_sent) ∨ Delivered s u := by
  by_cases hsend : e = .txSend
  · subst hsend
    cases (step_withInputs_cons t _ es).symm.trans hstep
    have ht := h.withInputs es
    by_cases hlt : t.blk.tx_sent < t.blk.tx_len
    · rw [if_pos ⟨rfl, hlt⟩]
      exact ht.send hlt
    · rw [if_neg (fun hc => hlt hc.2)]
      exact .inl (by rw [State.txSendStep_of_nothing_left (s := t.withInputs es) hlt]; exact ⟨ht, rfl⟩)
  · rw [if_neg (fun hc => hsend hc.1)]
    exact .inl ((h.withInputs es).other (step_withInputs_effect hstep) hsend herr hreset)

/-! ### Delivery over a run -/

/-- Where a run without a transfer error and a reset has brought a transfer in flight in `s`: it is being sent, a byte
for every turn of TXDMA so far unless all are sent; or all its bytes are on the line, and DONE has been 1 on the way. -/
def deliveryState (s : State) (es : List Event) (t : State) : Prop :=
  (Sending s t ∧ (t.blk.tx_sent = s.blk.tx_sent + es.count .txSend ∨ t.blk.tx_sent = t.blk.tx_len)) ∨
  ((∃ later, t.blk.line_out =
      s.blk.line_out ++ s.bytesAt .txBuf s.blk.tx_sent (s.blk.tx_len - s.blk.tx_sent) ++ later) ∧
    ∃ j u, j ≤ es.length ∧ run j s = .next u ∧ u.blk.tx_done = true)

theorem deliveryState_step {s t u : State} {es : List Event} {e : Event} {rest : List Event}
    (hrun : run es.length s = .next t) (h : deliveryState s es t) (hs : t.inputs = e :: rest)
    (hstep : step t = .next u) (herr : e ≠ .txError) (hreset : e ≠ .sysReset) : deliveryState s (es ++ [e]) u := by
  have hrun' : run (es ++ [e]).length s = .next u := by
    rw [List.length_append]
    exact (run_add (k := 1) hrun).trans (run_succ hstep)
  rcases h with ⟨hsending, hcount⟩ | ⟨⟨later, hline⟩, j, w, hj, hw, hdone⟩
  · have hle := hsending.invariant.sent_le_len
    rcases hsending.step (e := e) (es := rest) (by rw [← hs]; exact hstep) herr hreset with ⟨hu, hsent⟩ | hdel
    · refine .inl ⟨hu, ?_⟩
      have hlen : u.blk.tx_len = t.blk.tx_len := hu.len.trans hsending.len.symm
      rw [List.count_append, List.count_singleton, hsent, hlen]
      by_cases hsend : e = .txSend
      · by_cases hlt : t.blk.tx_sent < t.blk.tx_len
        · simp only [hsend, hlt, and_self, if_true, beq_self_eq_true]
          omega
        · simp only [hlt, and_false, if_false]
          omega
      · simp only [hsend, false_and, if_false, beq_eq_false_iff_ne.mpr hsend, Bool.false_eq_true, Nat.add_zero]
        exact hcount
    · exact .inr ⟨⟨[], by rw [hdel.line, List.append_nil]⟩, _, u, Nat.le_refl _, hrun', hdel.done⟩
  · obtain ⟨more, hmore⟩ := (step_effect hs hstep).line_out hreset
    rw [State.withInputs_blk] at hmore
    exact .inr ⟨⟨later ++ more, by rw [hmore, hline, List.append_assoc]⟩, j, w,
      hj.trans (by rw [List.length_append]; omega), hw, hdone⟩

/-- A run without a transfer error and a reset (R89). -/
theorem run_delivery {k : Nat} {s t : State} (hs : Sending s s) (herr : Event.txError ∉ s.inputs.take k)
    (hreset : Event.sysReset ∉ s.inputs.take k) (hrun : run k s = .next t) :
    deliveryState s (s.inputs.take k) t := by
  refine run_induction (P := fun es u => Event.txError ∉ es → Event.sysReset ∉ es → deliveryState s es u) ?_ hrun
    (fun _ _ => .inl ⟨hs, .inl rfl⟩) herr hreset
  intro es u e rest v hu hP hin hstep herr hreset
  rw [List.mem_append, List.mem_singleton, not_or] at herr hreset
  exact deliveryState_step hu (hP herr.1 hreset.1) hin hstep (Ne.symm herr.2) (Ne.symm hreset.2)

/-! ### Orders of steps -/

/-- Each step of an order of steps has one of the outcomes listed. -/
theorem follows_effect {σ : Nat → State} {e : Schedule} (hf : follows σ e) (k : Nat) :
    StepEffect ((σ k).withInputs []) (e k) (σ (k + 1)) := step_withInputs_effect (hf k)

/-- A transfer that is never delivered is being sent for ever. -/
theorem sending_of_never_delivered {σ : Nat → State} {e : Schedule} {n : Nat} (hf : follows σ e)
    (h0 : Sending (σ n) (σ n)) (hev : ∀ k, n ≤ k → e k ≠ .txError ∧ e k ≠ .sysReset)
    (hnever : ∀ k, n ≤ k → ¬ Delivered (σ n) (σ k)) {k : Nat} (hk : n ≤ k) : Sending (σ n) (σ k) := by
  induction k, hk using Nat.le_induction with
  | base => exact h0
  | succ k hk ih =>
    obtain ⟨herr, hreset⟩ := hev k hk
    rcases ih.step (es := []) (hf k) herr hreset with ⟨hu, -⟩ | hdel
    · exact hu
    · exact absurd hdel (hnever (k + 1) (Nat.le_succ_of_le hk))

/-- Under a fair order a transfer with bytes left is delivered (R91): while it is not, TXDMA's guard stays true, so its
turns keep coming, and each sends one of finitely many bytes. -/
theorem exists_delivered {σ : Nat → State} {e : Schedule} {n : Nat} (hf : follows σ e) (hfair : sendFair σ e)
    (h0 : Sending (σ n) (σ n)) (hlt : (σ n).blk.tx_sent < (σ n).blk.tx_len)
    (hev : ∀ k, n ≤ k → e k ≠ .txError ∧ e k ≠ .sysReset) : ∃ k, n ≤ k ∧ Delivered (σ n) (σ k) := by
  by_contra hno
  push Not at hno
  have hsending {k : Nat} (hk : n ≤ k) := sending_of_never_delivered hf h0 hev hno hk
  have hwaiting {k : Nat} (hk : n ≤ k) := (hsending hk).unfinished hlt
  have hstep {k : Nat} (hk : n ≤ k) : (σ (k + 1)).blk.tx_sent =
      if e k = .txSend ∧ (σ k).blk.tx_sent < (σ k).blk.tx_len then (σ k).blk.tx_sent + 1 else (σ k).blk.tx_sent := by
    rcases (hsending hk).step (es := []) (hf k) (hev k hk).1 (hev k hk).2 with ⟨-, hsent⟩ | hdel
    · exact hsent
    · exact absurd hdel (hno (k + 1) (Nat.le_succ_of_le hk))
  have hmono {j k : Nat} (hj : n ≤ j) (hjk : j ≤ k) : (σ j).blk.tx_sent ≤ (σ k).blk.tx_sent := by
    induction k, hjk using Nat.le_induction with
    | base => exact Nat.le_refl _
    | succ k hk ih =>
      rw [hstep (hj.trans hk)]
      split <;> omega
  have hgrows (j : Nat) : ∃ k, n ≤ k ∧ j ≤ (σ k).blk.tx_sent := by
    induction j with
    | zero => exact ⟨n, Nat.le_refl n, Nat.zero_le _⟩
    | succ j ih =>
      obtain ⟨k, hk, hjk⟩ := ih
      obtain ⟨m, hm, hturn⟩ := hfair k fun i hi => by
        have hi' := hk.trans hi
        have hs := hsending hi'
        simp [sendEnabled, transferActive_of hs.inFlight hs.notDone hs.notStalled, hwaiting hi']
      have hm' := hk.trans hm
      refine ⟨m + 1, Nat.le_succ_of_le hm', ?_⟩
      rw [hstep hm', if_pos ⟨hturn, hwaiting hm'⟩]
      have := hmono hk hm
      omega
  obtain ⟨k, hk, hge⟩ := hgrows (σ n).blk.tx_len
  have := hwaiting hk
  have := (hsending hk).len
  omega

/-- A timeout armed stays armed until it fires or the reset comes (R102, R123). -/
theorem StepEffect.stays_armed {s t : State} {e : Event} (h : StepEffect s e t) (ha : s.blk.rx_armed = true)
    (hto : e ≠ .rxTimeout) (hreset : e ≠ .sysReset) : t.blk.rx_armed = true := by
  cases h with
  | command i _ hx => cases hx <;> exact ha
  | byte => rfl
  | timeout he => exact absurd he hto
  | reset he => exact absurd he hreset
  | _ => exact ha

/-- An armed timeout that fires sets TO (R102). -/
theorem State.rx_to_rxTimeoutStep {s : State} (ha : s.blk.rx_armed = true) : s.rxTimeoutStep.blk.rx_to = true := by
  rcases s.rxTimeoutStep_cases with ⟨-, h⟩ | ⟨hno, -⟩
  · rw [h]
  · cases ha.symm.trans hno

/-! ### Every run begins a fair order -/

/-- The events given, and after them TXDMA and RXTO in turn. -/
def turnsAfter (es : List Event) : Schedule := fun k =>
  if h : k < es.length then es[k] else if (k - es.length) % 2 = 0 then .txSend else .rxTimeout

theorem turnsAfter_of_lt {es : List Event} {k : Nat} (h : k < es.length) : turnsAfter es k = es[k] := dif_pos h

theorem turnsAfter_txSend (es : List Event) (n : Nat) : turnsAfter es (es.length + 2 * n) = .txSend := by
  rw [turnsAfter, dif_neg (by omega), if_pos (by omega)]

theorem turnsAfter_rxTimeout (es : List Event) (n : Nat) : turnsAfter es (es.length + (2 * n + 1)) = .rxTimeout := by
  rw [turnsAfter, dif_neg (by omega), if_neg (by omega)]

/-- The states an order of steps passes through from `s` on; where a step does not answer, the state stays. -/
def statesFrom (s : State) (e : Schedule) : Nat → State
  | 0 => s
  | k + 1 =>
    match step ((statesFrom s e k).withInputs [e k]) with
    | .next t => t
    | .fault _ => statesFrom s e k
    | .refused _ => statesFrom s e k

/-- The states follow the order wherever its steps answer. -/
theorem statesFrom_succ {s t : State} {e : Schedule} {k : Nat}
    (h : step ((statesFrom s e k).withInputs [e k]) = .next t) : statesFrom s e (k + 1) = t := by
  rw [statesFrom, h]

/-- The states pass through a run over the events given. -/
theorem run_statesFrom {s t : State} {es : List Event} (h : run es.length (s.withInputs es) = .next t) {k : Nat}
    (hk : k ≤ es.length) :
    run (es.length - k) ((statesFrom s (turnsAfter es) k).withInputs (es.drop k)) = .next t := by
  induction k with
  | zero => exact h
  | succ k ih =>
    have hlt : k < es.length := hk
    have hrun := ih (Nat.le_of_lt hlt)
    rw [show es.length - k = es.length - (k + 1) + 1 by omega, List.drop_eq_getElem_cons hlt] at hrun
    obtain ⟨m, hm, hrun⟩ := run_succ_cases hrun
    have hnext := step_withInputs _ [] hm
    rw [← turnsAfter_of_lt hlt] at hnext
    have hin : m.withInputs (es.drop (k + 1)) = m := by
      rw [← step_inputs _ hm]
      rfl
    rw [statesFrom_succ hnext, State.withInputs_withInputs, hin]
    exact hrun

/-- Every step of the order answers: those of the run, and every turn of TXDMA and RXTO. -/
theorem follows_statesFrom {s t : State} {es : List Event} (h : run es.length (s.withInputs es) = .next t) :
    follows (statesFrom s (turnsAfter es)) (turnsAfter es) := by
  intro k
  suffices hans : ∃ u, step ((statesFrom s (turnsAfter es) k).withInputs [turnsAfter es k]) = .next u by
    obtain ⟨u, hu⟩ := hans
    exact hu.trans (by rw [statesFrom_succ hu])
  by_cases hlt : k < es.length
  · have hrun := run_statesFrom h (Nat.le_of_lt hlt)
    rw [show es.length - k = es.length - (k + 1) + 1 by omega, List.drop_eq_getElem_cons hlt] at hrun
    obtain ⟨m, hm, -⟩ := run_succ_cases hrun
    rw [turnsAfter_of_lt hlt]
    exact ⟨_, step_withInputs _ [] hm⟩
  · rw [turnsAfter, dif_neg hlt]
    split <;> exact ⟨_, step_withInputs_cons _ _ []⟩

/-- The order is fair: both agents get turns for ever, and a timeout armed waits for RXTO's next one. -/
theorem fair_turnsAfter {σ : Nat → State} {es : List Event} (hf : follows σ (turnsAfter es)) :
    fair σ (turnsAfter es) := by
  refine ⟨fun n _ => ⟨es.length + 2 * n, by omega, turnsAfter_txSend es n⟩, fun n ha _ => ?_⟩
  by_contra hno
  push Not at hno
  have harmed {k : Nat} (hk : n ≤ k) : (σ k).blk.rx_armed = true := by
    induction k, hk using Nat.le_induction with
    | base => exact ha
    | succ k hk ih =>
      obtain ⟨hto, hreset⟩ := hno k hk
      exact (follows_effect hf k).stays_armed ih (fun he => hto he ih) hreset
  have hk : n ≤ es.length + (2 * n + 1) := by omega
  exact (hno _ hk).1 (turnsAfter_rxTimeout es n) (harmed hk)

end Sys2Proof.Machine

namespace Sys2Proof.Proofs

open Sys2Proof.Machine Sys2Proof.Safety

/-- Settles O43: as many turns as bytes left cannot leave the transfer being sent with a byte waiting. -/
theorem transferDeliveredUnderAnySchedule : Obligations.TransferDeliveredUnderAnySchedule := by
  intro k s t hinv hf hd hst herr hreset hcount hrun
  have hend := run_delivery (sending_self hinv hf hd hst) herr hreset hrun
  rcases hend with ⟨hsending, hsent⟩ | ⟨hline, j, u, hj, hu, hdone⟩
  · have hle := hsending.invariant.sent_le_len
    have hlen := hsending.len
    have hall : t.blk.tx_sent = s.blk.tx_len := by
      have := hinv.sent_le_len
      omega
    refine ⟨⟨[], by rw [hsending.line, hall, List.append_nil]⟩, fun hlt => ?_⟩
    have := hsending.unfinished hlt
    omega
  · exact ⟨hline, fun _ => ⟨j, u, hj.trans (List.length_take_le _ _), hu, hdone⟩⟩

/-- Settles O60: a transfer not delivered keeps TXDMA's guard true, an armed timeout that fires sets TO, and a run goes
on with the turns of both agents. -/
theorem fairScheduleProgress : Obligations.FairScheduleProgress := by
  refine ⟨fun σ e n hf hfair hinv hun hfl hd hst hev => ?transfer, fun σ e n hf hfair ha hline hev => ?timeout,
    fun s t es hrun => ?begins⟩
  case transfer =>
    obtain ⟨k, hk, hdel⟩ := exists_delivered hf hfair (sending_self hinv hfl hd hst) (hun hfl hd) hev
    exact ⟨k, hk, hdel.inFlight, hdel.done, hdel.line⟩
  case timeout =>
    obtain ⟨k, hk, ⟨hturn, harmed⟩ | hreset⟩ := hfair n ha hline
    · refine ⟨k + 1, Nat.le_succ_of_le hk, ?_⟩
      have hstep := (step_withInputs_cons (σ k) (e k) []).symm.trans (hf k)
      rw [hturn] at hstep
      have hnext : ((σ k).withInputs []).rxTimeoutStep = σ (k + 1) := Host.Outcome.next.inj hstep
      rw [← hnext]
      exact State.rx_to_rxTimeoutStep harmed
    · exact absurd hreset (hev k hk)
  case begins =>
    have hf := follows_statesFrom hrun
    exact ⟨_, _, rfl, hf, fair_turnsAfter hf, fun k hk => turnsAfter_of_lt hk⟩

end Sys2Proof.Proofs
end

section
/-! PROOFS. The receive ring over any order of steps (42_rx_reader.md R96, R101, R105), and a frame sent, received and
decoded (40_codec.md R76). -/

namespace Sys2Proof.Machine

open Sys2Proof.Safety

/-! ### The ring after arrivals -/

/-- In `t` the bytes `bs` have been received since `s`, and none drained: the last RX_CAP of them stand in the ring,
from where `rx_wr` was on. -/
structure Received (s t : State) (bs : List Byte) : Prop where
  cfg : t.cfg = s.cfg
  running : t.blk.rx_run = true
  rd : t.blk.rx_rd = s.blk.rx_rd
  wr : t.blk.rx_wr = (s.blk.rx_wr + bs.length) % s.cfg.rxCap
  ring : ∀ j (h : j < bs.length), bs.length ≤ j + s.cfg.rxCap →
    t.byteAt .rxRing ((s.blk.rx_wr + j) % s.cfg.rxCap) = bs[j]

theorem received_nil {s : State} (hrun : s.blk.rx_run = true) (hwr : s.blk.rx_wr < s.cfg.rxCap) :
    Received s s [] where
  cfg := rfl
  running := hrun
  rd := rfl
  wr := (Nat.mod_eq_of_lt hwr).symm
  ring _ h := nomatch h

theorem Received.withInputs {s t : State} {bs : List Byte} (h : Received s t bs) (es : List Event) :
    Received s (t.withInputs es) bs :=
  { h with ring := fun j hj hcap => (t.withInputs_byteAt es .rxRing _).trans (h.ring j hj hcap) }

/-- Two places of the ring fewer than RX_CAP apart are different. -/
theorem ring_place_ne {cap w i j : Nat} (hij : i < j) (hcap : j < i + cap) : (w + i) % cap ≠ (w + j) % cap := by
  intro heq
  have hdvd : cap ∣ j - i := by
    have := (Nat.modEq_iff_dvd' (by omega : w + i ≤ w + j)).mp heq
    rwa [Nat.add_sub_add_left] at this
  exact absurd (Nat.le_of_dvd (by omega) hdvd) (by omega)

/-- One more byte received (R101). -/
theorem Received.byte {s t : State} {bs : List Byte} (h : Received s t bs) (b : Byte) :
    Received s (t.rxByteStep b) (bs ++ [b]) := by
  have heq := State.rxByteStep_of_running h.running b
  have hwr : (t.rxByteStep b).blk.rx_wr = (t.blk.rx_wr + 1) % t.cfg.rxCap := by rw [heq]
  have hnew := State.byteAt_rxByteStep_rx_wr h.running b
  have hold := sameBytesBut_rxByteStep h.running b
  exact
    { cfg := by rw [heq]; exact h.cfg
      running := by rw [heq]; exact h.running
      rd := by rw [heq]; exact h.rd
      wr := by rw [hwr, h.wr, h.cfg, Nat.mod_add_mod, List.length_append, List.length_singleton, Nat.add_assoc]
      ring := fun j hj hcap => by
        rw [List.length_append, List.length_singleton] at hj hcap
        by_cases hlast : j = bs.length
        · subst hlast
          rw [← h.wr, hnew, List.getElem_concat_length rfl]
        · have hlt : j < bs.length := by omega
          rw [List.getElem_append_left hlt, ← h.ring j hlt (by omega)]
          refine hold .rxRing _ fun _ => ?_
          have hne := ring_place_ne (w := s.blk.rx_wr) (cap := s.cfg.rxCap) hlt (by omega)
          rw [← h.wr] at hne
          omega }

/-- A step that offers no byte, drains nothing and is no reset leaves the ring (R101). -/
theorem Received.other {s t u : State} {bs : List Byte} {e : Event} (h : Received s t bs) (hx : StepEffect t e u)
    (hbyte : ∀ b, e ≠ .rxByte b) (hread : ∀ n, ¬ isCommand e (.rxRead n)) (hreset : e ≠ .sysReset) :
    Received s u bs := by
  cases hx with
  | command i hc hx =>
    cases hx with
    | rxStart => exact { h with running := rfl }
    | drain n k hi => exact absurd (hi ▸ hc) (hread n)
    | _ => exact { h with }
  | byte b he => exact absurd he (hbyte b)
  | reset he => exact absurd he hreset
  | _ => exact { h with }

theorem offeredBytes_append (es fs : List Event) : offeredBytes (es ++ fs) = offeredBytes es ++ offeredBytes fs :=
  List.filterMap_append

theorem offeredBytes_other {e : Event} (h : ∀ b, e ≠ .rxByte b) : offeredBytes [e] = [] := by
  cases e with
  | rxByte b => exact absurd rfl (h b)
  | _ => rfl

/-- A step that drains nothing and is no reset: the byte it offers, if any, is received. -/
theorem Received.step {s t u : State} {bs : List Byte} {e : Event} {es : List Event} (h : Received s t bs)
    (hstep : step (t.withInputs (e :: es)) = .next u) (hread : ∀ n, ¬ isCommand e (.rxRead n))
    (hreset : e ≠ .sysReset) : Received s u (bs ++ offeredBytes [e]) := by
  by_cases hbyte : ∃ b, e = .rxByte b
  · obtain ⟨b, rfl⟩ := hbyte
    cases (step_withInputs_cons t _ es).symm.trans hstep
    exact (h.withInputs es).byte b
  · rw [offeredBytes_other fun b he => hbyte ⟨b, he⟩, List.append_nil]
    exact (h.withInputs es).other (step_withInputs_effect hstep) (fun b he => hbyte ⟨b, he⟩) hread hreset

/-- A run without a drain and a reset receives the bytes its events offer. -/
theorem run_received {k : Nat} {s t : State} (hs : Received s s []) (hreset : Event.sysReset ∉ s.inputs.take k)
    (hread : ∀ e ∈ s.inputs.take k, ∀ n, ¬ isCommand e (.rxRead n)) (hrun : run k s = .next t) :
    Received s t (offeredBytes (s.inputs.take k)) := by
  refine run_induction (P := fun es u => Event.sysReset ∉ es → (∀ e ∈ es, ∀ n, ¬ isCommand e (.rxRead n)) →
    Received s u (offeredBytes es)) ?_ hrun (fun _ _ => hs) hreset hread
  intro es u e rest v _ hP hin hstep hreset hread
  rw [List.mem_append, List.mem_singleton, not_or] at hreset
  rw [offeredBytes_append]
  have hu := hP hreset.1 fun f hf => hread f (List.mem_append_left _ hf)
  exact hu.step (es := rest) (by rw [← hin]; exact hstep) (hread e (by simp)) (Ne.symm hreset.2)

/-! ### The next drain -/

/-- The count of waiting bytes when the index was m places on, around the ring (R31). -/
theorem ringAvail_add (cap w m : Nat) : ringAvail cap ((w + m) % cap) w = m % cap := by
  have h : (((w + m) % cap : Nat) - (w : Int)) % cap = ((m % cap : Nat) : Int) := by
    push_cast
    rw [Int.emod_sub_emod, add_sub_cancel_left]
  rw [ringAvail, h, Int.toNat_natCast]

/-- The waiting bytes of a ring that was empty are the last received, in order (R105). -/
theorem Received.waiting {s t : State} {bs : List Byte} (h : Received s t bs) (hempty : s.blk.rx_rd = s.blk.rx_wr)
    (hcap : 0 < s.cfg.rxCap) :
    t.waiting (bs.length % s.cfg.rxCap) = bs.drop (bs.length - bs.length % s.cfg.rxCap) := by
  have hlt := Nat.mod_lt bs.length hcap
  have hle := Nat.mod_le bs.length s.cfg.rxCap
  have hdrop : bs.length - bs.length % s.cfg.rxCap = s.cfg.rxCap * (bs.length / s.cfg.rxCap) := by
    have := Nat.div_add_mod bs.length s.cfg.rxCap
    omega
  refine List.ext_getElem (by rw [State.length_waiting, List.length_drop]; omega) fun i hi hi' => ?_
  rw [State.length_waiting] at hi
  rw [State.getElem_waiting, List.getElem_drop, h.cfg, h.rd, hempty,
    ← h.ring (bs.length - bs.length % s.cfg.rxCap + i) (by omega) (by omega)]
  congr 1
  rw [hdrop, Nat.add_left_comm, Nat.mul_add_mod]

/-- RX_READ after arrivals into an empty ring: the last bytes received that the ring shows, in order (R98, R105). -/
theorem Received.drain {s t : State} {bs : List Byte} {n : Nat} (h : Received s t bs)
    (hempty : s.blk.rx_rd = s.blk.rx_wr) (hpos : 0 < s.cfg.rxCap) (hn : bs.length % s.cfg.rxCap ≤ n)
    (hcap : n ≤ s.cfg.rxoutCap) :
    t.avail = bs.length % s.cfg.rxCap ∧
    exec (.rxRead n) t = .next ((t.drain (bs.length % s.cfg.rxCap)).finishRx .ok
      (BitVec.ofNat 32 (bs.length % s.cfg.rxCap))) ∧
    ((t.drain (bs.length % s.cfg.rxCap)).finishRx .ok (BitVec.ofNat 32 (bs.length % s.cfg.rxCap))).bytesAt .rxOut 0
      (bs.length % s.cfg.rxCap) = bs.drop (bs.length - bs.length % s.cfg.rxCap) := by
  have havail : t.avail = bs.length % s.cfg.rxCap := by
    rw [State.avail, h.cfg, h.wr, h.rd, hempty, ringAvail_add]
  refine ⟨havail, ?_, ?_⟩
  · rw [exec_rxRead_within (by rw [h.cfg]; exact hcap), havail, Nat.min_eq_left hn]
  · rw [bytesAt_drain, h.waiting hempty hpos]

/-! ### Turns in a row -/

/-- The step at a well-formed command's event. -/
theorem step_commandEvent {i : Instr} {s t : State} {es : List Event} (hwf : i.wf = true) (h : exec i s = .next t) :
    step (s.withInputs (commandEvent i.port (encode i) :: es)) = .next (t.withInputs es) :=
  calc step (s.withInputs (commandEvent i.port (encode i) :: es))
      = exec i (s.withInputs es) := step_of_isCommand rfl ⟨encode i, rfl, decode_encode hwf⟩
    _ = .next (t.withInputs es) := exec_withInputs es h

/-- Turns of TXDMA in a row. -/
theorem run_sends (m : Nat) (s : State) (rest : List Event) :
    run m (s.withInputs (List.replicate m .txSend ++ rest)) = .next ((State.txSendStep^[m] s).withInputs rest) := by
  induction m generalizing s with
  | zero => rfl
  | succ m ih =>
    rw [List.replicate_succ, List.cons_append, Function.iterate_succ_apply, ← ih]
    refine run_succ ((step_withInputs_cons s _ _).trans ?_)
    exact congrArg Host.Outcome.next (s.withInputs_turns _ 0).1

/-- Bytes received in a row. -/
theorem run_arrivals (bs : List Byte) (s : State) (rest : List Event) :
    run bs.length (s.withInputs (bs.map .rxByte ++ rest)) = .next ((bs.foldl State.rxByteStep s).withInputs rest) := by
  induction bs generalizing s with
  | nil => rfl
  | cons b bs ih =>
    rw [List.map_cons, List.cons_append, List.foldl_cons, ← ih]
    refine run_succ ((step_withInputs_cons s _ _).trans ?_)
    exact congrArg Host.Outcome.next (s.withInputs_turns _ b).2.2.1

/-- Turns of TXDMA put the bytes on the line, in index order (R89). -/
theorem iterate_txSendStep {s : State} (hf : s.blk.tx_state = .inFlight) (hd : s.blk.tx_done = false)
    (hs : s.blk.tx_stalled = false) (hlt : s.blk.tx_sent < s.blk.tx_len) {m : Nat}
    (hm : s.blk.tx_sent + m ≤ s.blk.tx_len) :
    State.txSendStep^[m] s = { s with blk := { s.blk with
      line_out := s.blk.line_out ++ s.bytesAt .txBuf s.blk.tx_sent m, tx_sent := s.blk.tx_sent + m,
      tx_done := decide (s.blk.tx_sent + m = s.blk.tx_len) } } := by
  induction m with
  | zero =>
    have hd' : s.blk.tx_done = decide (s.blk.tx_sent + 0 = s.blk.tx_len) := hd.trans (decide_eq_false (by omega)).symm
    rw [← hd', show s.bytesAt .txBuf s.blk.tx_sent 0 = [] from rfl, List.append_nil]
    rfl
  | succ m ih =>
    rw [Function.iterate_succ_apply', ih (by omega), State.bytesAt_succ, ← List.append_assoc]
    exact State.txSendStep_of_waiting hf (decide_eq_false (by omega)) hs (by simp only; omega)

theorem received_foldl {s t : State} {xs : List Byte} (h : Received s t xs) (bs : List Byte) :
    Received s (bs.foldl State.rxByteStep t) (xs ++ bs) := by
  induction bs generalizing t xs with
  | nil => simpa using h
  | cons b bs ih => simpa using ih (h.byte b)

/-- Bytes received leave the line (R128). -/
theorem line_out_foldl_rxByteStep (bs : List Byte) (s : State) :
    (bs.foldl State.rxByteStep s).blk.line_out = s.blk.line_out := by
  induction bs generalizing s with
  | nil => rfl
  | cons b bs ih =>
    rw [List.foldl_cons, ih]
    rcases s.rxByteStep_cases b with ⟨-, h⟩ | ⟨-, h⟩ <;> rw [h]

/-! ### A frame sent, received and decoded -/

/-- Bytes written to a region's memory read back as a sequence. -/
theorem bytesAt_of_written {s t : State} {r : Region} {lo : Nat} {bs : List Byte} (hd : t.draw = s.draw)
    (hm : t.mem r = Memory.writeBytes r (s.mem r) lo bs) : t.bytesAt r lo bs.length = bs :=
  (State.bytesAt_congr fun k _ => byteAt_eq_putBytes hd hm (lo + k)).trans (s.bytesAt_putBytes r lo bs)

/-- ENCODE and TX_COMMIT in a good empty session: the frame is in the buffer and its transfer starts (R73, R85). -/
theorem exists_frame_in_flight {s : State} {n : Nat} (hgood : goodSession s.blk = true) (hlen : s.blk.tx_len = 0)
    (hn : n ≤ s.cfg.stageCap) (hcap : n + 4 ≤ s.cfg.txCap) :
    ∃ a c, exec (.encodeFrame n) s = .next a ∧ exec .txCommit a = .next c ∧ c.cfg = s.cfg ∧
      sameReceiveSide s.blk c.blk ∧ c.blk.line_out = s.blk.line_out ∧ c.blk.tx_state = .inFlight ∧
      c.blk.tx_done = false ∧ c.blk.tx_stalled = false ∧ c.blk.tx_sent = 0 ∧ c.blk.tx_len = n + 4 ∧
      c.bytesAt .txBuf 0 (n + 4) = frame s.cfg.crc (s.bytesAt .stage 0 n) := by
  generalize hframe : frame s.cfg.crc (s.bytesAt .stage 0 n) = f
  have hf : f.length = n + 4 := by rw [← hframe, length_frame, State.length_bytesAt]
  obtain ⟨ho, he⟩ : s.blk.sess_open = true ∧ s.blk.sess_err = .ok := by simpa [goodSession] using hgood
  have hencode := exec_encodeFrame_within hn
  rw [hframe] at hencode
  rcases s.sessionAppend_cases f .serializationFault with ⟨hno, -⟩ | ⟨-, herr, -⟩ | ⟨-, -, hover, -⟩ | ⟨-, -, -, happ⟩
  · cases ho.symm.trans hno
  · exact absurd he herr
  · omega
  · rw [hlen, Nat.zero_add, hf] at happ
    refine ⟨_, _, hencode, exec_txCommit_good (by rw [happ]; simp [ho]) (by rw [happ]; exact he), ?_⟩
    rw [happ]
    refine ⟨rfl, rfl, rfl, rfl, decide_eq_false (Nat.succ_ne_zero (n + 3)), rfl, rfl, rfl, ?_⟩
    rw [← hf]
    exact bytesAt_of_written (s := s) (r := .txBuf) rfl rfl

/-- The steps of R76's order, one part after the other: two commands, the sends, the arrivals, and two commands. -/
theorem run_send_receive_decode {s a c u t : State} {n : Nat} {f : List Byte} (hn : n < 2 ^ 16) (hf : f.length < 2 ^ 16)
    (hencode : exec (.encodeFrame n) s = .next a) (hcommit : exec .txCommit a = .next c)
    (hread : exec (.rxRead f.length) (f.foldl State.rxByteStep (State.txSendStep^[f.length] c)) = .next u)
    (hdecode : exec (.decodeFrame f.length) u = .next t) :
    run (f.length + (f.length + 2) + 1 + 1) (s.withInputs (txCommands [.encodeFrame n, .txCommit] ++
      List.replicate f.length .txSend ++ f.map .rxByte ++
      [commandEvent .rx (encode (.rxRead f.length)), commandEvent .rx (encode (.decodeFrame f.length))])) =
      .next (t.withInputs []) := by
  have hwfn : (Instr.encodeFrame n).wf = true := decide_eq_true hn
  have hwfr : (Instr.rxRead f.length).wf = true := decide_eq_true hf
  have hwfd : (Instr.decodeFrame f.length).wf = true := decide_eq_true hf
  rw [List.append_assoc, List.append_assoc]
  exact (run_succ (step_commandEvent hwfn hencode)).trans <|
    (run_succ (step_commandEvent rfl hcommit)).trans <|
    (run_add (run_sends f.length c _)).trans <|
    (run_add (run_arrivals f _ _)).trans <|
    (run_succ (step_commandEvent hwfr hread)).trans <|
    run_succ (step_commandEvent hwfd hdecode)

/-- DECODE of a frame that stands in RXOUT: OK and the payload's CRC (R74, R76). -/
theorem exec_decodeFrame_of_frame {s : State} {payload : List Byte} (hcap : payload.length + 4 ≤ s.cfg.rxoutCap)
    (h : s.bytesAt .rxOut 0 (payload.length + 4) = frame s.cfg.crc payload) :
    exec (.decodeFrame (payload.length + 4)) s = .next (s.finishRx .ok (crc32 s.cfg.crc payload)) := by
  obtain ⟨hpayload, htrailer⟩ := (s.bytesAt_eq_frame_iff .rxOut 0 s.cfg.crc payload).mp h
  rw [Nat.zero_add] at htrailer
  have hcrc : (crc32 s.cfg.crc payload).toNat = unBe (beBytes 4 (crc32 s.cfg.crc payload).toNat) := by
    rw [unBe_beBytes, Nat.mod_eq_of_lt (crc32 s.cfg.crc payload).isLt]
  rw [exec_decodeFrame_within hcap (Nat.le_add_left _ _), Nat.add_sub_cancel, hpayload, htrailer, if_pos hcrc]

/-- RX_READ and DECODE of a frame received into an empty ring: OK, the payload's CRC, and the payload in RXOUT. -/
theorem Received.decode {s t : State} {payload : List Byte} (h : Received s t (frame s.cfg.crc payload))
    (hempty : s.blk.rx_rd = s.blk.rx_wr) (hrx : payload.length + 4 < s.cfg.rxCap)
    (hrxout : payload.length + 4 ≤ s.cfg.rxoutCap) :
    ∃ u v, exec (.rxRead (payload.length + 4)) t = .next u ∧ exec (.decodeFrame (payload.length + 4)) u = .next v ∧
      v.blk.line_out = t.blk.line_out ∧ v.blk.rx_result = .ok ∧ v.blk.rx_rvalue = crc32 s.cfg.crc payload ∧
      v.bytesAt .rxOut 0 payload.length = payload := by
  have hlen : (frame s.cfg.crc payload).length = payload.length + 4 := length_frame _ _
  have hmod : (frame s.cfg.crc payload).length % s.cfg.rxCap = payload.length + 4 := by
    rw [hlen, Nat.mod_eq_of_lt hrx]
  obtain ⟨-, hread, hout⟩ := h.drain (n := payload.length + 4) hempty (Nat.zero_lt_of_lt hrx) hmod.le hrxout
  rw [hmod] at hread hout
  rw [hlen, Nat.sub_self, List.drop_zero] at hout
  have hcfg : ((t.drain (payload.length + 4)).finishRx .ok (BitVec.ofNat 32 (payload.length + 4))).cfg = s.cfg := by
    rw [State.finishRx_drain]
    exact h.cfg
  have hline : ((t.drain (payload.length + 4)).finishRx .ok (BitVec.ofNat 32 (payload.length + 4))).blk.line_out =
      t.blk.line_out := by rw [State.finishRx_drain]
  generalize (t.drain (payload.length + 4)).finishRx .ok (BitVec.ofNat 32 (payload.length + 4)) = u at *
  rw [← hcfg] at hrxout hout ⊢
  exact ⟨u, _, hread, exec_decodeFrame_of_frame hrxout hout, hline, rfl, rfl,
    ((u.bytesAt_eq_frame_iff .rxOut 0 u.cfg.crc payload).mp hout).1⟩

end Sys2Proof.Machine

namespace Sys2Proof.Proofs

open Sys2Proof.Machine Sys2Proof.Safety

/-- Settles O50: the ring holds the last bytes received, from where it was empty. -/
theorem drainAfterArrivals : Obligations.DrainAfterArrivals := by
  intro es n s t rest hwf hrun hempty hwr hs hreset hread hrunes hn hcap
  have htake : s.inputs.take es.length = es := by rw [hs, List.take_left]
  have hrec := run_received (received_nil hrun hwr) (by rwa [htake]) (by rwa [htake]) hrunes
  rw [htake] at hrec
  obtain ⟨havail, hexec, hbytes⟩ := hrec.drain hempty (Nat.zero_lt_of_lt hwr) hn hcap
  exact ⟨havail, _, hexec, rfl, hbytes⟩

/-- Settles O26: the sends put the frame on the line, the drain brings it to RXOUT, and DECODE finds it valid. -/
theorem frameRoundTrip : Obligations.FrameRoundTrip := by
  intro n s hwf hgood hlen hn htx hrxout hrx hrun hempty hwr hs
  have hcaps := Params.caps_of_wf hwf
  obtain ⟨a, c, hencode, hcommit, hcfg, hside, hline, hf, hd, hst, hsent, hclen, hbytes⟩ :=
    exists_frame_in_flight hgood hlen hn htx
  generalize hpdef : s.bytesAt .stage 0 n = p at hs hbytes ⊢
  obtain rfl : p.length = n := by rw [← hpdef, State.length_bytesAt]
  have hflen : (frame s.cfg.crc p).length = p.length + 4 := length_frame _ _
  have hsends := iterate_txSendStep hf hd hst (by omega) (m := p.length + 4) (by omega)
  rw [hsent, hbytes, hline, ← hflen] at hsends
  obtain ⟨hrunc, hrdc, hwrc⟩ : c.blk.rx_run = s.blk.rx_run ∧ c.blk.rx_rd = s.blk.rx_rd ∧ c.blk.rx_wr = s.blk.rx_wr := by
    rw [hside]
    exact ⟨rfl, rfl, rfl⟩
  rw [← hrunc] at hrun
  rw [← hrdc, ← hwrc] at hempty
  rw [← hwrc, ← hcfg] at hwr
  have hrec : Received c ((frame s.cfg.crc p).foldl State.rxByteStep (State.txSendStep^[(frame s.cfg.crc p).length] c))
      (frame s.cfg.crc p) := by
    refine received_foldl (xs := []) ?_ (frame s.cfg.crc p)
    rw [hsends]
    exact { received_nil hrun hwr with }
  have hlineR : ((frame s.cfg.crc p).foldl State.rxByteStep
      (State.txSendStep^[(frame s.cfg.crc p).length] c)).blk.line_out = s.blk.line_out ++ frame s.cfg.crc p := by
    rw [line_out_foldl_rxByteStep, hsends]
  rw [← hcfg] at hrec hlineR hrx hrxout hflen ⊢
  obtain ⟨u, t, hread, hdecode, hlineT, hok, hvalue, hpayload⟩ := hrec.decode hempty hrx hrxout
  rw [← hflen] at hread hdecode
  have hrunall := run_send_receive_decode (by omega) (by omega) hencode hcommit hread hdecode
  refine ⟨t.withInputs [], ?_, hlineT.trans hlineR, hok, hvalue, ?_⟩
  · rw [show 2 * p.length + 12 = (p.length + 4) + ((p.length + 4) + 2) + 1 + 1 by omega]
    rw [hflen, hcfg, ← hs] at hrunall
    exact hrunall
  · rw [State.withInputs_bytesAt]
    exact hpayload

end Sys2Proof.Proofs
end
